-- ==== Sys2Proof/Word.lean ====
section
/-! DEFINITION. The word, byte and byte-sequence types of CryptTest CORE (00_scope.md R10, R11). -/

namespace Sys2Proof

/-- A word: 32 bits (00_scope.md R10). -/
abbrev Word := BitVec 32

/-- A byte: 8 bits (00_scope.md R11). -/
abbrev Byte := BitVec 8

/-- A byte sequence, first element first (00_scope.md R11). -/
abbrev Bytes := List Byte

/-- The 16-word array of a stream context or of the working vector (10_state.md R40, R51). -/
abbrev Words16 := Vector Word 16

end Sys2Proof
end

