-- ==== Sys2Proof/Config.lean ====
section
/-! DEFINITION. The parameters of CryptTest CORE at the values this hardware takes (00_scope.md R6 to R9; log 10)
and the offsets of its bus window (10_state.md R30, 20_memory.md R67). There is no free value: nothing in the
spec is left undefined (93_implementation_defined.md). -/

namespace Sys2Proof.Config

/-- Bytes of one keystream block (R6 `BLOCK_BYTES`). -/
abbrev blockBytes : Nat := 64

/-- Smallest key size in bits (R6 `KEYSIZE_MIN`). -/
abbrev keySizeMin : Nat := 384

/-- Largest key size in bits (R6 `KEYSIZE_MAX`). -/
abbrev keySizeMax : Nat := 16384

/-- Step of the key size in bits (R6 `KEYSIZE_STEP`). -/
abbrev keySizeStep : Nat := 8

/-- The constant of the plaintext limit (R6 `MAXPT_CONST`). -/
abbrev maxPtConst : Nat := 37

/-- Size of the input buffer (R7 `IBUF_BYTES`, OPEN parameter at this hardware's value, log 10). -/
abbrev ibufBytes : Nat := 16384

/-- Size of the output buffer (R7 `OBUF_BYTES`, OPEN parameter at this hardware's value, log 10). -/
abbrev obufBytes : Nat := 16384

/-- Stream-cipher context slots (R8 `NUM_SC_CTX`, OPEN parameter at this hardware's value, log 10). -/
abbrev numScCtx : Nat := 2

/-- RSA context slots (R8 `NUM_RSA_CTX`, OPEN parameter at this hardware's value, log 10). -/
abbrev numRsaCtx : Nat := 2

/-- Largest byte length of one key field (R9 `FIELD_MAX_BYTES`, OPEN parameter, log 10). -/
abbrev fieldMaxBytes : Nat := 2048

/-- Width of one limb of a big integer (R9 `LIMB_BITS`). -/
abbrev limbBits : Nat := 32

/-- The constant the `ID` register reads as (10_state.md R31). -/
abbrev idValue : Word := 0x43540001#32

/-- Offset of `ID` (R30). -/
abbrev offId : Nat := 0x000
/-- Offset of `CFG` (R30). -/
abbrev offCfg : Nat := 0x004
/-- Offset of `CMD` (R30). -/
abbrev offCmd : Nat := 0x008
/-- Offset of `STATUS` (R30). -/
abbrev offStatus : Nat := 0x00C
/-- Offset of `ILEN` (R30). -/
abbrev offIlen : Nat := 0x010
/-- Offset of `OLEN` (R30). -/
abbrev offOlen : Nat := 0x014
/-- Offset of `ARG0` (R30). -/
abbrev offArg0 : Nat := 0x018
/-- Offset of `ARG1` (R30). -/
abbrev offArg1 : Nat := 0x01C
/-- Offset of `ARG2` (R30). -/
abbrev offArg2 : Nat := 0x020
/-- Offset of `SCSTAT` (R30). -/
abbrev offScstat : Nat := 0x024
/-- Offset of `RSASTAT` (R30). -/
abbrev offRsastat : Nat := 0x028
/-- First offset past the register block (R67). -/
abbrev regsEnd : Nat := 0x02C
/-- First offset of the `IBUF` window (R67). -/
abbrev ibufBase : Nat := 0x4000
/-- First offset of the `OBUF` window (R67). -/
abbrev obufBase : Nat := 0x8000

end Sys2Proof.Config
end

