-- ==== Sys2Proof/Syntax.lean ====
section
/-! DEFINITION. The 17 commands of CryptTest CORE (30_encoding.md R93), one constructor per row of opcode_table.json. -/

namespace Sys2Proof

/-- The cipher variant, `fl[0]` of `SC_INIT` (40_stream_cipher.md R120). -/
inductive Variant where
  | salsa20
  | chacha20
  deriving DecidableEq, Repr

/-- A command with its operands as the command word carries them (30_encoding.md R92, R93).
`ctx` is the 4-bit context field; which of its values name a slot is `Instr.wellFormed`. -/
inductive Instr where
  /-- `SC_INIT ctx, variant, rounds` (R136). -/
  | scInit (ctx : BitVec 4) (variant : Variant) (rounds : BitVec 16)
  /-- `SC_PROCESS ctx` (R137). -/
  | scProcess (ctx : BitVec 4)
  /-- `SC_SEEK ctx` (R138). -/
  | scSeek (ctx : BitVec 4)
  /-- `SC_DISPOSE ctx` (R140). -/
  | scDispose (ctx : BitVec 4)
  /-- `SC_QUERY ctx` (R139). -/
  | scQuery (ctx : BitVec 4)
  /-- `RSA_INIT ctx, keySizeBits, hashSel` (R169). -/
  | rsaInit (ctx : BitVec 4) (keySizeBits : BitVec 16) (hashSel : BitVec 4)
  /-- `RSA_ENC ctx, pub|priv` (R172). -/
  | rsaEnc (ctx : BitVec 4) (usePrivate : Bool)
  /-- `RSA_DEC ctx, pub|priv` (R173). -/
  | rsaDec (ctx : BitVec 4) (usePrivate : Bool)
  /-- `RSA_PRIVENC ctx` (R174). -/
  | rsaPrivenc (ctx : BitVec 4)
  /-- `RSA_PRIVDEC ctx` (R175). -/
  | rsaPrivdec (ctx : BitVec 4)
  /-- `RSA_PUBENC ctx` (R176). -/
  | rsaPubenc (ctx : BitVec 4)
  /-- `RSA_PUBDEC ctx` (R177). -/
  | rsaPubdec (ctx : BitVec 4)
  /-- `RSA_QUERY ctx` (R178). -/
  | rsaQuery (ctx : BitVec 4)
  /-- `RSA_DISPOSE ctx` (R179). -/
  | rsaDispose (ctx : BitVec 4)
  /-- `BI_B2I be|le` (R234). -/
  | biB2i (littleEndian : Bool)
  /-- `BI_I2B length, be|le` (R235). -/
  | biI2b (length : BitVec 16) (littleEndian : Bool)
  /-- `BI_XOR` (R236). -/
  | biXor
  deriving DecidableEq, Repr

end Sys2Proof
end

