-- ==== Sys2Proof/Machine/State.lean ====
section
/-! DEFINITION. The state of CryptTest CORE (10_state.md R20 to R53), the reasons a step can stop, and the state
after reset (R53, 70_reset_and_hazards.md R280). -/

namespace Sys2Proof.Machine

/-- Why a step would stop with a fault: NEVER. Every word either spells a command or fails with `IllegalCommand`
(30_encoding.md R98), every command ends (70_reset_and_hazards.md R290), and a failing command or a `BusError` is a
next state (60_exceptions.md R255, R264). So no constructor is given (log 12). -/
inductive Fault where
  deriving DecidableEq, Repr

/-- Why a step would be refused. -/
inductive Refusal where
  /-- The instruction named has no meaning in the model. Raised by `exec` alone, in an arm without a meaning; no arm
  is without one, so no step answers it. Safe: the model stops where the hardware goes on. -/
  | notModelled (mnemonic : String)
  deriving DecidableEq, Repr

/-- Lifecycle flag of a context (10_state.md R23). Encoded value 3 is never held: it has no constructor. -/
inductive Life where
  /-- Never constructed since reset, code 0. -/
  | free
  /-- Constructed, usable, code 1. -/
  | live
  /-- Torn down, code 2. -/
  | disposed
  deriving DecidableEq, Repr

/-- A stream-cipher context (10_state.md R40). The block counter is inside `state` (R43). -/
structure ScCtx where
  life : Life
  variant : Variant
  rounds : BitVec 16
  state : Words16
  deriving DecidableEq, Repr

/-- A stream-cipher context at reset (R53). -/
def ScCtx.reset : ScCtx where
  life := .free
  variant := .salsa20
  rounds := 0#16
  state := Vector.replicate 16 0#32

/-- An RSA context (10_state.md R45). The integers are naturals, as R45 allows (log 11). -/
structure RsaCtx where
  life : Life
  n : Nat
  e : Nat
  d : Nat
  p : Nat
  q : Nat
  dp : Nat
  dq : Nat
  inverseQ : Nat
  hasPublicInfo : Bool
  hasPrivateInfo : Bool
  hasCrtInfo : Bool
  keySizeBits : BitVec 16
  hashId : BitVec 3
  hashLen : BitVec 8
  deriving DecidableEq, Repr

/-- An RSA context at reset (R53). -/
def RsaCtx.reset : RsaCtx where
  life := .free
  n := 0
  e := 0
  d := 0
  p := 0
  q := 0
  dp := 0
  dq := 0
  inverseQ := 0
  hasPublicInfo := false
  hasPrivateInfo := false
  hasCrtInfo := false
  keySizeBits := 0#16
  hashId := 0#3
  hashLen := 0#8

/-- The RSU's and BCU's temporaries (10_state.md R52): the converted payload, the exponentiation accumulator, and
the CRT intermediates. Zero between commands (log 7). -/
structure Temps where
  pt : Nat
  acc : Nat
  m1 : Nat
  m2 : Nat
  h : Nat
  m : Nat
  deriving DecidableEq, Repr

/-- The temporaries, zeroed (R52). -/
def Temps.zero : Temps := ⟨0, 0, 0, 0, 0, 0⟩

/-- A buffer: (offset, byte) pairs, offsets strictly rising, no pair holding the byte an unlisted offset reads as,
which is 0, the reset value of every buffer byte (R53; log 9). -/
abbrev Memory := List Host.Cell

/-- One event on the host's side (20_memory.md R61, 70_reset_and_hazards.md R281). `width` is the access width in
bits (log 4); `off` the byte offset in the window (log 5). -/
inductive HostEvent where
  /-- `BusRead(off)`. -/
  | read (width : Nat) (off : BitVec 16)
  /-- `BusWrite(off, value)`. -/
  | write (width : Nat) (off : BitVec 16) (value : Word)
  /-- `Reset`. -/
  | reset
  deriving DecidableEq, Repr

/-- What the host saw of its last bus access (20_memory.md R61; log 2). -/
inductive BusResponse where
  /-- No access since reset. -/
  | idle
  /-- A write was accepted. -/
  | done
  /-- A read returned this word. -/
  | data (v : Word)
  /-- The access is one CORE does not implement (60_exceptions.md R264; log 3). -/
  | busError
  deriving DecidableEq, Repr

/-- The state of CORE (10_state.md R20) and, last, the model's two fields for the host's side of the bus. -/
structure State where
  /-- `ILEN` (R35). -/
  ilen : Word
  /-- `OLEN` (R36). -/
  olen : Word
  /-- `ARG0` (R37). -/
  arg0 : Word
  /-- `ARG1` (R37). -/
  arg1 : Word
  /-- `ARG2` (R37). -/
  arg2 : Word
  /-- `CFG` (R32). -/
  cfg : Word
  /-- `STATUS` (R34). -/
  status : Word
  /-- The stream-cipher contexts (R40); `SCSTAT` is a view of them (R38). -/
  sc : Vector ScCtx Config.numScCtx
  /-- The RSA contexts (R45); `RSASTAT` is a view of them (R39). -/
  rsa : Vector RsaCtx Config.numRsaCtx
  /-- `BIACC` (R48). -/
  biacc : Nat
  /-- `IBUF` (R49). -/
  ibuf : Memory
  /-- `OBUF` (R50), held whole (log 8). -/
  obuf : Memory
  /-- The working vector `X` (R51; log 7). -/
  x : Words16
  /-- The keystream buffer `KS` (R51; log 7). -/
  ks : Vector Byte 64
  /-- The RSU's and BCU's temporaries (R52; log 7). -/
  temps : Temps
  /-- The model's own: the host events yet to happen, the next one first (log 1). -/
  pending : List HostEvent
  /-- The model's own: the response to the last bus access (log 2). -/
  resp : BusResponse
  deriving DecidableEq, Repr

/-- CORE right after reset (R53, R280): nothing is unspecified. No host event is pending (log 1). -/
def State.reset : State where
  ilen := 0#32
  olen := 0#32
  arg0 := 0#32
  arg1 := 0#32
  arg2 := 0#32
  cfg := 0#32
  status := 0#32
  sc := Vector.replicate Config.numScCtx ScCtx.reset
  rsa := Vector.replicate Config.numRsaCtx RsaCtx.reset
  biacc := 0
  ibuf := []
  obuf := []
  x := Vector.replicate 16 0#32
  ks := Vector.replicate 64 0#8
  temps := Temps.zero
  pending := []
  resp := .idle

end Sys2Proof.Machine
end

