-- ==== Sys2Proof/Machine/Flags.lean ====
section
/-! DEFINITION. CORE's flags: the lifecycle flag of a context (10_state.md R23), the status word with its codes
(R34, 60_exceptions.md R250), the configuration bits (R32) and the availability flags' word (41_rsa_engine.md R178).
There is no carry, zero, sign or overflow flag (R24). -/

namespace Sys2Proof.Machine

/-- The typed failures of a command (60_exceptions.md R250). -/
inductive Failure where
  | invalidArgument
  | illegalState
  | malformedKeyMaterial
  | missingKeyMaterial
  | payloadTooLarge
  | emptyPayload
  | lengthMismatch
  | illegalCommand
  deriving DecidableEq, Repr

/-- The number of a failure in `STATUS.code` (R250). -/
def Failure.code : Failure → Nat
  | .invalidArgument => 1
  | .illegalState => 2
  | .malformedKeyMaterial => 3
  | .missingKeyMaterial => 4
  | .payloadTooLarge => 5
  | .emptyPayload => 6
  | .lengthMismatch => 7
  | .illegalCommand => 8

/-- `STATUS` as a command leaves it: `2^31 + op * 2^8 + code` (30_encoding.md R96). -/
def statusWord (op : BitVec 8) (code : Nat) : Word := BitVec.ofNat 32 (2 ^ 31 + op.toNat * 2 ^ 8 + code)

/-- `STATUS.code`, bits 3:0 (10_state.md R34). -/
def statusCode (v : Word) : Nat := (v.extractLsb' 0 4).toNat

/-- `STATUS.lastop`, bits 15:8 (R34). -/
def statusLastop (v : Word) : BitVec 8 := v.extractLsb' 8 8

/-- `STATUS.VALID`, bit 31 (R34). -/
def statusValid (v : Word) : Bool := v.getLsbD 31

/-- The two-bit code of a lifecycle flag (R23). -/
def Life.code : Life → Nat
  | .free => 0
  | .live => 1
  | .disposed => 2

/-- Lifecycle flags packed two bits a context, context 0 lowest (R38, R39). -/
def packLives : List Life → Nat
  | [] => 0
  | l :: ls => l.code + 4 * packLives ls

/-- `CFG.DATA_LE`, bit 0 (R32). -/
def State.dataLe (s : State) : Bool := s.cfg.getLsbD 0

/-- `CFG.KEY_LE`, bit 1 (R32). -/
def State.keyLe (s : State) : Bool := s.cfg.getLsbD 1

/-- `CFG.CC8PAD`, bit 2 (R32). -/
def State.cc8pad (s : State) : Bool := s.cfg.getLsbD 2

/-- What a write stores in `CFG`: `v[2:0]`, the other bits discarded (R32). -/
def cfgStored (v : Word) : Word := v &&& 7#32

/-- The flags word of `RSA_QUERY` (41_rsa_engine.md R178): availability flags in bits 2:0, `hashId` in 10:8,
`hashLen` in 23:16, the rest 0. -/
def rsaFlagsWord (c : RsaCtx) : Word :=
  BitVec.ofNat 32
    (c.hasPublicInfo.toNat + 2 * c.hasPrivateInfo.toNat + 4 * c.hasCrtInfo.toNat
      + 2 ^ 8 * c.hashId.toNat + 2 ^ 16 * c.hashLen.toNat)

end Sys2Proof.Machine
end

