-- ==== Sys2Proof/Machine/Ops.lean ====
section
/-! DEFINITION. The named operations over buffers and contexts, and how a command ends (30_encoding.md R96): with
success, or with a failure, CORE's "trap entry" (60_exceptions.md R255). There is no return from a failure to model:
no handler, no saved state, no return command (R256). -/

namespace Sys2Proof.Machine

/-- One byte of a buffer. An unlisted offset reads as the reset value 0 (10_state.md R53; log 9). -/
def Memory.read : Memory → Nat → Byte
  | [], _ => 0#8
  | (k, b) :: m, a => if k = a then b else Memory.read m a

/-- Store one byte, keeping the canonical form: writing 0 removes the entry. -/
def Memory.write : Memory → Nat → Byte → Memory
  | [], a, v => if v = 0#8 then [] else [(a, v)]
  | (k, b) :: m, a, v =>
    if a < k then (if v = 0#8 then (k, b) :: m else (a, v) :: (k, b) :: m)
    else if a = k then (if v = 0#8 then m else (k, v) :: m)
    else (k, b) :: Memory.write m a v

/-- `buf[a .. a + n)` (00_scope.md R11). -/
def Memory.readBytes (m : Memory) (a : Nat) : Nat → Bytes
  | 0 => []
  | n + 1 => Memory.read m a :: Memory.readBytes m (a + 1) n

/-- `buf[a .. a + len(bs)) <- bs` (00_scope.md R12). -/
def Memory.writeBytes (m : Memory) (a : Nat) : Bytes → Memory
  | [] => m
  | b :: bs => Memory.write (Memory.writeBytes m (a + 1) bs) a b

/-- Offsets strictly rising from `lo` on, no entry holding the unlisted value. -/
def Memory.wfFrom : Nat → Memory → Bool
  | _, [] => true
  | lo, (k, b) :: m => decide (lo ≤ k) && decide (b ≠ 0#8) && Memory.wfFrom (k + 1) m

/-- The canonical form of a buffer. -/
def Memory.wf (m : Memory) : Bool := Memory.wfFrom 0 m

/-- Every listed offset is below the buffer's size. -/
def Memory.below (m : Memory) (size : Nat) : Bool := m.all fun cell => decide (cell.1 < size)

/-- The four bytes of a word, least significant first (40_stream_cipher.md R121 `BYTES32`). -/
def bytes32 (w : Word) : Bytes :=
  [w.extractLsb' 0 8, w.extractLsb' 8 8, w.extractLsb' 16 8, w.extractLsb' 24 8]

/-- The word at offset `i` of a byte sequence, least significant byte first (R121 `LE32`). -/
def le32 (s : Bytes) (i : Nat) : Word :=
  BitVec.ofNat 32
    ((s.getD i 0#8).toNat + 256 * (s.getD (i + 1) 0#8).toNat + 65536 * (s.getD (i + 2) 0#8).toNat
      + 16777216 * (s.getD (i + 3) 0#8).toNat)

/-- `sc[c] <- v`. -/
def State.setSc (s : State) (c : Nat) (v : ScCtx) : State := { s with sc := s.sc.setIfInBounds c v }

/-- `rsa[c] <- v`. -/
def State.setRsa (s : State) (c : Nat) (v : RsaCtx) : State := { s with rsa := s.rsa.setIfInBounds c v }

/-- What `Run` of 30_encoding.md R96 yields. -/
inductive RunResult where
  /-- `fail Code`. -/
  | fail (f : Failure)
  /-- `succeed(s)`: the state with the command's context changes, and the result bytes. -/
  | succeed (s : State) (out : Bytes)
  deriving DecidableEq, Repr

/-- `KS, X and all temporaries <- 0`, at the end of every command (R96; 10_state.md R51, R52). -/
def clearTemporaries (s : State) : State :=
  { s with x := Vector.replicate 16 0#32, ks := Vector.replicate 64 0#8, temps := Temps.zero }

/-- A failing command's end, CORE's "trap entry" (60_exceptions.md R255): `OLEN <- 0` and `STATUS` with the failure's
code; nothing is saved, nothing is masked, control goes nowhere. -/
def takeFailure (op : BitVec 8) (f : Failure) (s : State) : State :=
  clearTemporaries { s with olen := 0#32, status := statusWord op f.code }

/-- A succeeding command's end (30_encoding.md R96): the result in `OBUF` from offset 0, its length in `OLEN`,
`STATUS` with code `OK`. -/
def finish (op : BitVec 8) (s : State) (out : Bytes) : State :=
  clearTemporaries
    { s with
      obuf := Memory.writeBytes s.obuf 0 out
      olen := BitVec.ofNat 32 out.length
      status := statusWord op 0 }

/-- `Complete(op, outcome)` (R96). `s` is the state the command started from: a failure leaves it but for `OLEN` and
`STATUS`. -/
def complete (op : BitVec 8) (s : State) : RunResult → State
  | .fail f => takeFailure op f s
  | .succeed t out => finish op t out

/-- The checks most stream commands begin with: the slot exists (30_encoding.md R95), then it is LIVE (10_state.md
R23); then the command goes on with the context. -/
def withLiveSc (ctx : BitVec 4) (s : State) (body : ScCtx → RunResult) : RunResult :=
  match s.sc[ctx.toNat]? with
  | none => .fail .illegalCommand
  | some c => if c.life = .live then body c else .fail .illegalState

/-- The checks most RSA commands begin with: the slot exists (R95), then it is LIVE (R23). -/
def withLiveRsa (ctx : BitVec 4) (s : State) (body : RsaCtx → RunResult) : RunResult :=
  match s.rsa[ctx.toNat]? with
  | none => .fail .illegalCommand
  | some c => if c.life = .live then body c else .fail .illegalState

end Sys2Proof.Machine
end

