-- ==== Sys2Proof/Machine/Bus.lean ====
section
/-! DEFINITION. The bus window: which accesses are legal, what a read returns, what a write stores
(20_memory.md R60 to R67, 10_state.md R30 to R39). -/

namespace Sys2Proof.Machine

/-- The offset holds something (R66, R67). -/
def mapped (off : Nat) : Bool :=
  decide (off < Config.regsEnd)
    || (decide (Config.ibufBase ≤ off) && decide (off < Config.ibufBase + Config.ibufBytes))
    || (decide (Config.obufBase ≤ off) && decide (off < Config.obufBase + Config.obufBytes))

/-- A legal access: 32 bits wide, aligned, mapped (R61, R66). -/
def legalAccess (width : Nat) (off : BitVec 16) : Bool :=
  decide (width = 32) && decide (off.toNat % 4 = 0) && mapped off.toNat

/-- `SCSTAT` (10_state.md R38). -/
def State.scstat (s : State) : Word := BitVec.ofNat 32 (packLives (s.sc.toList.map ScCtx.life))

/-- `RSASTAT` (R39). -/
def State.rsastat (s : State) : Word := BitVec.ofNat 32 (packLives (s.rsa.toList.map RsaCtx.life))

/-- What a read of the register block returns (R30); `CMD` reads as 0 (R33). -/
def readRegister (s : State) (off : Nat) : Word :=
  if off = Config.offId then Config.idValue
  else if off = Config.offCfg then s.cfg
  else if off = Config.offStatus then s.status
  else if off = Config.offIlen then s.ilen
  else if off = Config.offOlen then s.olen
  else if off = Config.offArg0 then s.arg0
  else if off = Config.offArg1 then s.arg1
  else if off = Config.offArg2 then s.arg2
  else if off = Config.offScstat then s.scstat
  else if off = Config.offRsastat then s.rsastat
  else 0#32

/-- Byte `i` of the `OBUF` window: 0 at and beyond `OLEN` (R65). -/
def obufVisible (s : State) (i : Nat) : Byte := if i < s.olen.toNat then Memory.read s.obuf i else 0#8

/-- What a read of the `OBUF` window returns, byte lanes little-endian (R62, R65). -/
def readObuf (s : State) (i : Nat) : Word :=
  le32 [obufVisible s i, obufVisible s (i + 1), obufVisible s (i + 2), obufVisible s (i + 3)] 0

/-- The word a legal read returns; the `IBUF` window reads as 0 (R63, R64). -/
def readWord (s : State) (off : Nat) : Word :=
  if off < Config.regsEnd then readRegister s off
  else if off < Config.obufBase then 0#32
  else readObuf s (off - Config.obufBase)

/-- `BusRead(off)` (R61). -/
def busRead (s : State) (width : Nat) (off : BitVec 16) : BusResponse :=
  if legalAccess width off then .data (readWord s off.toNat) else .busError

/-- What a legal write other than to `CMD` stores; writes to `ID`, `STATUS`, `OLEN`, `SCSTAT`, `RSASTAT` and the
`OBUF` window are discarded (R63, R64, R65). -/
def writeWord (s : State) (off : Nat) (v : Word) : State :=
  if off = Config.offCfg then { s with cfg := cfgStored v }
  else if off = Config.offIlen then { s with ilen := v }
  else if off = Config.offArg0 then { s with arg0 := v }
  else if off = Config.offArg1 then { s with arg1 := v }
  else if off = Config.offArg2 then { s with arg2 := v }
  else if Config.ibufBase ≤ off ∧ off < Config.obufBase then
    { s with ibuf := Memory.writeBytes s.ibuf (off - Config.ibufBase) (bytes32 v) }
  else s

end Sys2Proof.Machine
end

