-- ==== Sys2Proof/WellFormed.lean ====
section
/-! DEFINITION. Which instruction terms spell a command: the context field names a slot that exists
(30_encoding.md R95). Reserved flag and immediate bits have no place in `Instr`, so R94 is the decoder's. -/

namespace Sys2Proof

/-- The context field of a stream command is in range (R95). -/
def scCtxOk (ctx : BitVec 4) : Bool := decide (ctx.toNat < Config.numScCtx)

/-- The context field of an RSA command is in range (R95). -/
def rsaCtxOk (ctx : BitVec 4) : Bool := decide (ctx.toNat < Config.numRsaCtx)

/-- The instruction spells one of the 17 commands on a slot that exists (R93, R95). -/
def Instr.wellFormed : Instr → Bool
  | .scInit ctx _ _ => scCtxOk ctx
  | .scProcess ctx => scCtxOk ctx
  | .scSeek ctx => scCtxOk ctx
  | .scDispose ctx => scCtxOk ctx
  | .scQuery ctx => scCtxOk ctx
  | .rsaInit ctx _ _ => rsaCtxOk ctx
  | .rsaEnc ctx _ => rsaCtxOk ctx
  | .rsaDec ctx _ => rsaCtxOk ctx
  | .rsaPrivenc ctx => rsaCtxOk ctx
  | .rsaPrivdec ctx => rsaCtxOk ctx
  | .rsaPubenc ctx => rsaCtxOk ctx
  | .rsaPubdec ctx => rsaCtxOk ctx
  | .rsaQuery ctx => rsaCtxOk ctx
  | .rsaDispose ctx => rsaCtxOk ctx
  | .biB2i _ => true
  | .biI2b _ _ => true
  | .biXor => true

end Sys2Proof
end

