-- ==== Sys2Proof/Decode.lean ====
section
/-! DEFINITION. The decoder, total on every 32-bit word (30_encoding.md R90 to R99), the encoder, and the opcode
map of R93 as data. -/

namespace Sys2Proof

/-- Why a word spells no command. Every one of them ends as `IllegalCommand` (R94, R95, R97). -/
inductive DecodeError where
  /-- The `op` byte is not in the opcode map (R97). -/
  | unknownOp (op : BitVec 8)
  /-- A bit the row marks zero is 1 (R94). -/
  | reservedField (op : BitVec 8)
  /-- The context field names no slot (R95). -/
  | ctxOutOfRange (op : BitVec 8) (ctx : BitVec 4)
  deriving DecidableEq, Repr

/-- Field `op`, bits 7:0 (R91). -/
def opField (w : Word) : BitVec 8 := w.extractLsb' 0 8

/-- Field `ctx`, bits 11:8 (R91). -/
def ctxField (w : Word) : BitVec 4 := w.extractLsb' 8 4

/-- Field `fl`, bits 15:12 (R91). -/
def flField (w : Word) : BitVec 4 := w.extractLsb' 12 4

/-- Field `imm`, bits 31:16 (R91). -/
def immField (w : Word) : BitVec 16 := w.extractLsb' 16 16

/-- `fl[0]`, the one flag bit most commands have (R93). -/
def flagBit (w : Word) : Bool := (flField w).getLsbD 0

/-- `fl[3:1]` are all zero. -/
def flagsHighZero (w : Word) : Bool := decide ((flField w).toNat < 2)

/-- `fl` is zero. -/
def flagsZero (w : Word) : Bool := decide (flField w = 0#4)

/-- `imm` is zero. -/
def immZero (w : Word) : Bool := decide (immField w = 0#16)

/-- `ctx` is zero, as the codec commands require (R91). -/
def ctxZero (w : Word) : Bool := decide (ctxField w = 0#4)

/-- The variant a flag bit selects (R105: `salsa20 = 0`, `chacha20 = 1`). -/
def variantOfBit (b : Bool) : Variant := if b then .chacha20 else .salsa20

/-- The flag bit of a variant. -/
def bitOfVariant : Variant → Bool
  | .salsa20 => false
  | .chacha20 => true

/-- The check of a stream command: reserved bits first (R94), then the slot (R95). -/
def decodeSc (w : Word) (fieldsOk : Bool) (i : Instr) : Except DecodeError Instr :=
  if fieldsOk then
    if scCtxOk (ctxField w) then .ok i else .error (.ctxOutOfRange (opField w) (ctxField w))
  else .error (.reservedField (opField w))

/-- The check of an RSA command: reserved bits first (R94), then the slot (R95). -/
def decodeRsa (w : Word) (fieldsOk : Bool) (i : Instr) : Except DecodeError Instr :=
  if fieldsOk then
    if rsaCtxOk (ctxField w) then .ok i else .error (.ctxOutOfRange (opField w) (ctxField w))
  else .error (.reservedField (opField w))

/-- The check of a codec command: reserved bits, `ctx` among them (R94). -/
def decodeBi (w : Word) (fieldsOk : Bool) (i : Instr) : Except DecodeError Instr :=
  if fieldsOk && ctxZero w then .ok i else .error (.reservedField (opField w))

/-- The decoder (R93 to R98). No state changes how a word is decoded (R99). -/
def decode (w : Word) : Except DecodeError Instr :=
  if opField w = 0x10#8 then
    decodeSc w (flagsHighZero w) (.scInit (ctxField w) (variantOfBit (flagBit w)) (immField w))
  else if opField w = 0x11#8 then decodeSc w (flagsZero w && immZero w) (.scProcess (ctxField w))
  else if opField w = 0x12#8 then decodeSc w (flagsZero w && immZero w) (.scSeek (ctxField w))
  else if opField w = 0x13#8 then decodeSc w (flagsZero w && immZero w) (.scDispose (ctxField w))
  else if opField w = 0x14#8 then decodeSc w (flagsZero w && immZero w) (.scQuery (ctxField w))
  else if opField w = 0x20#8 then decodeRsa w true (.rsaInit (ctxField w) (immField w) (flField w))
  else if opField w = 0x21#8 then decodeRsa w (flagsHighZero w && immZero w) (.rsaEnc (ctxField w) (flagBit w))
  else if opField w = 0x22#8 then decodeRsa w (flagsHighZero w && immZero w) (.rsaDec (ctxField w) (flagBit w))
  else if opField w = 0x23#8 then decodeRsa w (flagsZero w && immZero w) (.rsaPrivenc (ctxField w))
  else if opField w = 0x24#8 then decodeRsa w (flagsZero w && immZero w) (.rsaPrivdec (ctxField w))
  else if opField w = 0x25#8 then decodeRsa w (flagsZero w && immZero w) (.rsaPubenc (ctxField w))
  else if opField w = 0x26#8 then decodeRsa w (flagsZero w && immZero w) (.rsaPubdec (ctxField w))
  else if opField w = 0x27#8 then decodeRsa w (flagsZero w && immZero w) (.rsaQuery (ctxField w))
  else if opField w = 0x28#8 then decodeRsa w (flagsZero w && immZero w) (.rsaDispose (ctxField w))
  else if opField w = 0x30#8 then decodeBi w (flagsHighZero w && immZero w) (.biB2i (flagBit w))
  else if opField w = 0x31#8 then decodeBi w (flagsHighZero w) (.biI2b (immField w) (flagBit w))
  else if opField w = 0x32#8 then decodeBi w (flagsZero w && immZero w) .biXor
  else .error (.unknownOp (opField w))

/-- The `op` byte of each command (R93). -/
def opcodeOf : Instr → BitVec 8
  | .scInit _ _ _ => 0x10#8
  | .scProcess _ => 0x11#8
  | .scSeek _ => 0x12#8
  | .scDispose _ => 0x13#8
  | .scQuery _ => 0x14#8
  | .rsaInit _ _ _ => 0x20#8
  | .rsaEnc _ _ => 0x21#8
  | .rsaDec _ _ => 0x22#8
  | .rsaPrivenc _ => 0x23#8
  | .rsaPrivdec _ => 0x24#8
  | .rsaPubenc _ => 0x25#8
  | .rsaPubdec _ => 0x26#8
  | .rsaQuery _ => 0x27#8
  | .rsaDispose _ => 0x28#8
  | .biB2i _ => 0x30#8
  | .biI2b _ _ => 0x31#8
  | .biXor => 0x32#8

/-- A flag bit as the 4-bit field `fl`. -/
def flOfBit (b : Bool) : BitVec 4 := if b then 1#4 else 0#4

/-- The word with the given fields: `op + ctx * 2^8 + fl * 2^12 + imm * 2^16` (R105), written as R91's layout. -/
def assemble (op : BitVec 8) (ctx fl : BitVec 4) (imm : BitVec 16) : Word := imm ++ fl ++ ctx ++ op

/-- The encoder: the command word of an instruction (R91, R93). -/
def encode : Instr → Word
  | .scInit ctx v rounds => assemble 0x10#8 ctx (flOfBit (bitOfVariant v)) rounds
  | .scProcess ctx => assemble 0x11#8 ctx 0#4 0#16
  | .scSeek ctx => assemble 0x12#8 ctx 0#4 0#16
  | .scDispose ctx => assemble 0x13#8 ctx 0#4 0#16
  | .scQuery ctx => assemble 0x14#8 ctx 0#4 0#16
  | .rsaInit ctx keySizeBits hashSel => assemble 0x20#8 ctx hashSel keySizeBits
  | .rsaEnc ctx p => assemble 0x21#8 ctx (flOfBit p) 0#16
  | .rsaDec ctx p => assemble 0x22#8 ctx (flOfBit p) 0#16
  | .rsaPrivenc ctx => assemble 0x23#8 ctx 0#4 0#16
  | .rsaPrivdec ctx => assemble 0x24#8 ctx 0#4 0#16
  | .rsaPubenc ctx => assemble 0x25#8 ctx 0#4 0#16
  | .rsaPubdec ctx => assemble 0x26#8 ctx 0#4 0#16
  | .rsaQuery ctx => assemble 0x27#8 ctx 0#4 0#16
  | .rsaDispose ctx => assemble 0x28#8 ctx 0#4 0#16
  | .biB2i le => assemble 0x30#8 0#4 (flOfBit le) 0#16
  | .biI2b length le => assemble 0x31#8 0#4 (flOfBit le) length
  | .biXor => assemble 0x32#8 0#4 0#4 0#16

/-- One row of the opcode map: mask, match, and the number of context slots (none: the mask covers `ctx`). -/
structure OpcodeRow where
  mask : Word
  pattern : Word
  slots : Option Nat
  deriving DecidableEq, Repr

/-- The opcode map as R93 prints it, in its order. The decoder does not read it; that the two accept the same
words is a statement of its own. -/
def opcodeMap : List OpcodeRow :=
  [ ⟨0x0000E0FF#32, 0x00000010#32, some Config.numScCtx⟩,
    ⟨0xFFFFF0FF#32, 0x00000011#32, some Config.numScCtx⟩,
    ⟨0xFFFFF0FF#32, 0x00000012#32, some Config.numScCtx⟩,
    ⟨0xFFFFF0FF#32, 0x00000013#32, some Config.numScCtx⟩,
    ⟨0xFFFFF0FF#32, 0x00000014#32, some Config.numScCtx⟩,
    ⟨0x000000FF#32, 0x00000020#32, some Config.numRsaCtx⟩,
    ⟨0xFFFFE0FF#32, 0x00000021#32, some Config.numRsaCtx⟩,
    ⟨0xFFFFE0FF#32, 0x00000022#32, some Config.numRsaCtx⟩,
    ⟨0xFFFFF0FF#32, 0x00000023#32, some Config.numRsaCtx⟩,
    ⟨0xFFFFF0FF#32, 0x00000024#32, some Config.numRsaCtx⟩,
    ⟨0xFFFFF0FF#32, 0x00000025#32, some Config.numRsaCtx⟩,
    ⟨0xFFFFF0FF#32, 0x00000026#32, some Config.numRsaCtx⟩,
    ⟨0xFFFFF0FF#32, 0x00000027#32, some Config.numRsaCtx⟩,
    ⟨0xFFFFF0FF#32, 0x00000028#32, some Config.numRsaCtx⟩,
    ⟨0xFFFFEFFF#32, 0x00000030#32, none⟩,
    ⟨0x0000EFFF#32, 0x00000031#32, none⟩,
    ⟨0xFFFFFFFF#32, 0x00000032#32, none⟩ ]

/-- The row's test of R93: `(w and mask) = match` and `ctx` in range. -/
def OpcodeRow.accepts (r : OpcodeRow) (w : Word) : Bool :=
  decide (w &&& r.mask = r.pattern) &&
    (match r.slots with
     | none => true
     | some k => decide ((ctxField w).toNat < k))

/-- The instruction the decoder reads from a command word whose low `nbits` bits are `w` and whose other bits are 0.
A command is one 32-bit word (R90), so more than 32 bits is no command. -/
def decodeTableWord (nbits w : Nat) : Option Instr :=
  if nbits ≤ 32 then
    match decode (BitVec.ofNat 32 (w % 2 ^ nbits)) with
    | .ok i => some i
    | .error _ => none
  else none

end Sys2Proof
end

