-- ==== Sys2Proof/Machine/Operands.lean ====
section
/-! DEFINITION. Where a command's operands come from (30_encoding.md R92, R108): always `IBUF` from offset 0, its
length from `ILEN`, or the split at `ARG0`. -/

namespace Sys2Proof.Machine

/-- `IBUF[0 .. ILEN)` (R92). -/
def State.operand (s : State) : Bytes := Memory.readBytes s.ibuf 0 s.ilen.toNat

/-- `ILEN` is within the input buffer (the checks of 92_eei_decisions.md D39). -/
def State.ilenFits (s : State) : Bool := decide (s.ilen.toNat ≤ Config.ibufBytes)

/-- `IBUF[0 .. ARG0)`: the key of `SC_INIT`, the operand `x` of `BI_XOR` (R92). -/
def State.firstPart (s : State) : Bytes := Memory.readBytes s.ibuf 0 s.arg0.toNat

/-- `IBUF[ARG0 .. ARG0 + ARG1)`: the nonce of `SC_INIT`, the operand `y` of `BI_XOR` (R92). -/
def State.secondPart (s : State) : Bytes := Memory.readBytes s.ibuf s.arg0.toNat s.arg1.toNat

/-- `ILEN = ARG0 + ARG1`, compared as integers with no wrap (42_modular_arithmetic.md R213). -/
def State.splitFits (s : State) : Bool := decide (s.arg0.toNat + s.arg1.toNat = s.ilen.toNat)

end Sys2Proof.Machine
end

