-- ==== Sys2Proof/Machine/Codec.lean ====
section
/-! DEFINITION. The functions of the big-integer codec unit (43_bigint_codec.md R230 to R233). -/

namespace Sys2Proof.Machine

/-- The value of a byte sequence, `b[0]` least significant (R230, `littleEndian = 1`). -/
def leToNat : Bytes → Nat
  | [] => 0
  | b :: bs => b.toNat + 256 * leToNat bs

/-- `bytesToInteger(b, littleEndian)` (R230). -/
def bytesToInteger (b : Bytes) (littleEndian : Bool) : Nat :=
  if littleEndian then leToNat b else leToNat b.reverse

/-- The low `length` bytes of `v`, least significant first (R231 `le`). -/
def natToLe (v : Nat) : Nat → Bytes
  | 0 => []
  | length + 1 => BitVec.ofNat 8 v :: natToLe (v / 256) length

/-- `integerToBytes(v, length, littleEndian)`, truncating silently (R231). -/
def integerToBytes (v length : Nat) (littleEndian : Bool) : Bytes :=
  if littleEndian then natToLe v length else (natToLe v length).reverse

/-- `xorBytes(x, y)`, `LengthMismatch` when the lengths differ (R232). -/
def xorBytes (x y : Bytes) : Except Failure Bytes :=
  if x.length = y.length then .ok (List.zipWith (· ^^^ ·) x y) else .error .lengthMismatch

/-- The limb form of a natural, limb 0 least significant (R233). Not observable. -/
def limbs (v k : Nat) : List Word :=
  (List.range k).map fun i => BitVec.ofNat 32 (v / 2 ^ (Config.limbBits * i))

end Sys2Proof.Machine
end

