-- ==== Sys2Proof/Machine/CodecCommands.lean ====
section
/-! DEFINITION. The meanings of `BI_B2I`, `BI_I2B`, `BI_XOR` (43_bigint_codec.md R234 to R236). -/

namespace Sys2Proof.Machine

/-- The meaning of `BI_B2I` (R234). -/
def execBiB2i (littleEndian : Bool) (s : State) : Host.Outcome State Fault Refusal :=
  .next (complete (opcodeOf (.biB2i littleEndian)) s
    (if s.ilenFits then .succeed { s with biacc := bytesToInteger s.operand littleEndian } []
     else .fail .invalidArgument))

/-- The meaning of `BI_I2B` (R235). -/
def execBiI2b (length : BitVec 16) (littleEndian : Bool) (s : State) : Host.Outcome State Fault Refusal :=
  .next (complete (opcodeOf (.biI2b length littleEndian)) s
    (if length.toNat ≤ Config.obufBytes then .succeed s (integerToBytes s.biacc length.toNat littleEndian)
     else .fail .invalidArgument))

/-- `BI_XOR` (R236): the lengths' sum is checked before their equality. -/
def runBiXor (s : State) : RunResult :=
  if s.ilenFits && s.splitFits then
    match xorBytes s.firstPart s.secondPart with
    | .ok out => .succeed s out
    | .error f => .fail f
  else .fail .invalidArgument

/-- The meaning of `BI_XOR`. -/
def execBiXor (s : State) : Host.Outcome State Fault Refusal :=
  .next (complete (opcodeOf .biXor) s (runBiXor s))

end Sys2Proof.Machine
end

