-- ==== Sys2Proof/Machine/KeyDescriptor.lean ====
section
/-! DEFINITION. The binary key descriptor (30_encoding.md R100 to R103) and the key material it gives
(41_rsa_engine.md R163 to R168). -/

namespace Sys2Proof.Machine

/-- One record of a descriptor (R101). -/
structure KeyRecord where
  tag : Byte
  value : Bytes
  deriving DecidableEq, Repr

/-- The records of a descriptor laid end to end; none when a header is cut short or a value runs past the end
(R165). Each record takes at least three bytes, so fuel equal to the length is enough. -/
def parseRecords : Nat → Bytes → Option (List KeyRecord)
  | _, [] => some []
  | fuel + 1, tag :: lo :: hi :: rest =>
    let len := lo.toNat + 256 * hi.toNat
    if rest.length < len then none
    else
      match parseRecords fuel (rest.drop len) with
      | none => none
      | some rs => some (⟨tag, rest.take len⟩ :: rs)
  | _, _ => none

/-- `ParseTop(buf)` (R165); an empty description is malformed. The records stand for R165's `count` and `raw`
(log 19). -/
def parseTop (buf : Bytes) : Option (List KeyRecord) :=
  if buf = [] then none else parseRecords buf.length buf

/-- `count[t]` (R165). -/
def tagCount (rs : List KeyRecord) (t : Nat) : Nat := rs.countP fun r => decide (r.tag.toNat = t)

/-- `raw[t]`: the first record's value, later copies are counted and not kept (R165). -/
def tagRaw (rs : List KeyRecord) (t : Nat) : Bytes :=
  match rs.find? fun r => decide (r.tag.toNat = t) with
  | none => []
  | some r => r.value

/-- `ok[t]` (R166). -/
def fieldOk (rs : List KeyRecord) (t : Nat) : Bool :=
  decide (tagCount rs t = 1) && decide (1 ≤ (tagRaw rs t).length)
    && decide ((tagRaw rs t).length ≤ Config.fieldMaxBytes)

/-- `val[t]` (R166). -/
def fieldVal (rs : List KeyRecord) (keyLe : Bool) (t : Nat) : Nat :=
  if fieldOk rs t then bytesToInteger (tagRaw rs t) keyLe else 0

/-- The public group is available: `N`, `E`, and `N` is not 0 (R167). -/
def publicOk (rs : List KeyRecord) (keyLe : Bool) : Bool :=
  fieldOk rs 1 && fieldOk rs 2 && decide (fieldVal rs keyLe 1 ≠ 0)

/-- The private group is available: `D` (R167). -/
def privateOk (rs : List KeyRecord) : Bool := fieldOk rs 3

/-- The CRT group is available: all five fields, `P` and `Q` not 0 (R167). -/
def crtOk (rs : List KeyRecord) (keyLe : Bool) : Bool :=
  fieldOk rs 4 && fieldOk rs 5 && fieldOk rs 6 && fieldOk rs 7 && fieldOk rs 8
    && decide (fieldVal rs keyLe 4 ≠ 0) && decide (fieldVal rs keyLe 5 ≠ 0)

/-- `val[t]` if the field's group is available, else 0 (R168). -/
def groupVal (avail : Bool) (rs : List KeyRecord) (keyLe : Bool) (t : Nat) : Nat :=
  if avail then fieldVal rs keyLe t else 0

/-- `hashId` of a hash selector (R164). -/
def hashIdOf (hashSel : BitVec 4) : BitVec 3 :=
  if hashSel.toNat < 4 then BitVec.ofNat 3 hashSel.toNat else 7#3

/-- `hashLen` of a hash selector in bytes (R164). -/
def hashLenOf (hashSel : BitVec 4) : BitVec 8 :=
  match hashSel.toNat with
  | 0 => 20#8
  | 1 => 32#8
  | 2 => 48#8
  | 3 => 64#8
  | _ => 0#8

/-- `keySizeBits` is valid (R163). -/
def keySizeOk (keySizeBits : BitVec 16) : Bool :=
  decide (Config.keySizeMin ≤ keySizeBits.toNat) && decide (keySizeBits.toNat ≤ Config.keySizeMax)
    && decide (keySizeBits.toNat % Config.keySizeStep = 0)

/-- The context `RSA_INIT` builds from the parsed records (R164, R166 to R169). -/
def rsaInitCtx (rs : List KeyRecord) (keyLe : Bool) (keySizeBits : BitVec 16) (hashSel : BitVec 4) : RsaCtx where
  life := .live
  n := groupVal (publicOk rs keyLe) rs keyLe 1
  e := groupVal (publicOk rs keyLe) rs keyLe 2
  d := groupVal (privateOk rs) rs keyLe 3
  p := groupVal (crtOk rs keyLe) rs keyLe 4
  q := groupVal (crtOk rs keyLe) rs keyLe 5
  dp := groupVal (crtOk rs keyLe) rs keyLe 6
  dq := groupVal (crtOk rs keyLe) rs keyLe 7
  inverseQ := groupVal (crtOk rs keyLe) rs keyLe 8
  hasPublicInfo := publicOk rs keyLe
  hasPrivateInfo := privateOk rs
  hasCrtInfo := crtOk rs keyLe
  keySizeBits := keySizeBits
  hashId := hashIdOf hashSel
  hashLen := hashLenOf hashSel

end Sys2Proof.Machine
end

