-- ==== Sys2Proof/Machine/ModArith.lean ====
section
/-! DEFINITION. The modular multiplier and exponentiation engine (42_modular_arithmetic.md R200 to R211): the
contract `powMod`, the Montgomery and Barrett datapath that computes it, and the CRT recombination. The commands call
`modExp`, the datapath of R210; that it meets the contract is a statement of its own (log 14). -/

namespace Sys2Proof.Machine

/-- The contract of `ModExp`, by recursion on the exponent (R200). -/
def powMod (b : Nat) : Nat → Nat → Nat
  | 0, n => 1 % n
  | e + 1, n => (powMod b e n * b) % n

/-- The number of bits of `e`; `bitlen(0) = 0` (R207). -/
def bitLen (e : Nat) : Nat := if e = 0 then 0 else e.log2 + 1

/-- `k(n)`, the least `k >= 1` with `n < 2^(32 k)` (R203). -/
def limbCount (n : Nat) : Nat := n.log2 / Config.limbBits + 1

/-- `R = B^k` with `B = 2^32` (R203). -/
def montRadix (n : Nat) : Nat := 2 ^ (Config.limbBits * limbCount n)

/-- The inverse of an odd `n` modulo the power of two `r`, correct to `2^j` bits after `j` steps from 1. R204 fixes
the value by its property and gives no way to compute it: this way is the model's (log 14). -/
def inverseMod (n r : Nat) : Nat → Nat
  | 0 => 1
  | j + 1 =>
    let y := inverseMod n r j
    (y * (r + 2 - (n * y) % r)) % r

/-- `n' = (-n^(-1)) mod R` (R204). -/
def montNPrime (n : Nat) : Nat :=
  let r := montRadix n
  (r - inverseMod n r (bitLen (Config.limbBits * limbCount n)) % r) % r

/-- Montgomery reduction `REDC(T)` (R205). -/
def redc (n r n' t : Nat) : Nat :=
  let m := ((t % r) * n') % r
  let u := (t + m * n) / r
  if n ≤ u then u - n else u

/-- Montgomery multiplication (R206). -/
def montMul (n r n' x y : Nat) : Nat := redc n r n' (x * y)

/-- The exponent loop of R207, from bit `i - 1` down to bit 0. -/
def montLoop (n r n' x e : Nat) : Nat → Nat → Nat
  | 0, acc => acc
  | i + 1, acc =>
    let sq := montMul n r n' acc acc
    montLoop n r n' x e i (if e.testBit i then montMul n r n' sq x else sq)

/-- Montgomery exponentiation for odd `n` (R207), with `R2 = R^2 mod n` and `ONE = R mod n` (R204). -/
def montExp (b e n : Nat) : Nat :=
  let r := montRadix n
  let n' := montNPrime n
  let x := redc n r n' ((b % n) * ((r * r) % n))
  redc n r n' (montLoop n r n' x e (bitLen e) (r % n))

/-- One turn of the `while r >= n` loop of R208. -/
def subtractIfGe (n r : Nat) : Nat := if n ≤ r then r - n else r

/-- Barrett reduction (R208); "at most two iterations" of the final loop. -/
def barrettReduce (n x : Nat) : Nat :=
  let k := limbCount n
  let mu := 2 ^ (Config.limbBits * (2 * k)) / n
  let q1 := x / 2 ^ (Config.limbBits * (k - 1))
  let q3 := q1 * mu / 2 ^ (Config.limbBits * (k + 1))
  subtractIfGe n (subtractIfGe n (x - q3 * n))

/-- The exponent loop of R209, from bit `i - 1` down to bit 0. -/
def barrettLoop (n x e : Nat) : Nat → Nat → Nat
  | 0, acc => acc
  | i + 1, acc =>
    let sq := barrettReduce n (acc * acc)
    barrettLoop n x e i (if e.testBit i then barrettReduce n (sq * x) else sq)

/-- Barrett exponentiation (R209). -/
def barrettExp (b e n : Nat) : Nat := barrettLoop n (b % n) e (bitLen e) (1 % n)

/-- `ModExp(b, e, n)`: Montgomery for odd `n`, Barrett for even `n` (R210). -/
def modExp (b e n : Nat) : Nat := if n % 2 = 1 then montExp b e n else barrettExp b e n

/-- `H = ((M1 - M2) * InverseQ) mod P`, the Euclidean residue (R211; 00_scope.md R13). -/
def crtH (m1 m2 inverseQ p : Nat) : Nat := ((((m1 : Int) - (m2 : Int)) * (inverseQ : Int)) % (p : Int)).toNat

/-- `CrtCombine(C, P, Q, DP, DQ, InverseQ)` (R211). -/
def crtCombine (c p q dp dq inverseQ : Nat) : Nat :=
  let m1 := modExp c dp p
  let m2 := modExp c dq q
  m2 + q * crtH m1 m2 inverseQ p

end Sys2Proof.Machine
end

