-- ==== Sys2Proof/Machine/RsaCommands.lean ====
section
/-! DEFINITION. The meanings of the nine `RSA_` commands (41_rsa_engine.md R160 to R179). -/

namespace Sys2Proof.Machine

/-- `modulusByteLength` (R161). -/
def modulusByteLength (c : RsaCtx) : Nat := c.keySizeBits.toNat / 8

/-- `maxPlaintextBytes` (R162). -/
def maxPlaintextBytes (c : RsaCtx) : Nat :=
  (c.keySizeBits.toNat - Config.keySizeMin) / 8 + Config.maxPtConst

/-- `RSA_INIT` (R169). -/
def runRsaInit (ctx : BitVec 4) (keySizeBits : BitVec 16) (hashSel : BitVec 4) (s : State) : RunResult :=
  match s.rsa[ctx.toNat]? with
  | none => .fail .illegalCommand
  | some c =>
    if c.life = .live then .fail .illegalState
    else if keySizeOk keySizeBits then
      (if s.ilenFits then
        match parseTop s.operand with
        | none => .fail .malformedKeyMaterial
        | some rs => .succeed (s.setRsa ctx.toNat (rsaInitCtx rs s.keyLe keySizeBits hashSel)) []
      else .fail .malformedKeyMaterial)
    else .fail .invalidArgument

/-- The meaning of `RSA_INIT`. -/
def execRsaInit (ctx : BitVec 4) (keySizeBits : BitVec 16) (hashSel : BitVec 4) (s : State) :
    Host.Outcome State Fault Refusal :=
  .next (complete (opcodeOf (.rsaInit ctx keySizeBits hashSel)) s (runRsaInit ctx keySizeBits hashSel s))

/-- The direction of a transform; it decides the payload limit and nothing else (R170, R171). -/
inductive Direction where
  | enc
  | dec
  deriving DecidableEq, Repr

/-- The payload limit of a direction (R170; 90_conflicts.md C9). -/
def payloadLimit (c : RsaCtx) : Direction → Nat
  | .enc => maxPlaintextBytes c
  | .dec => modulusByteLength c

/-- `PayloadCheck(c, dir)` (R170), then `body`. The length compared is `ILEN`, never the value. -/
def withPayload (c : RsaCtx) (dir : Direction) (s : State) (body : RunResult) : RunResult :=
  if payloadLimit c dir < s.ilen.toNat then .fail .payloadTooLarge
  else if s.ilen.toNat = 0 then .fail .emptyPayload
  else body

/-- The payload as an integer (R171 `PT`, R174 `C`). -/
def payloadInteger (s : State) : Nat := bytesToInteger s.operand s.dataLe

/-- The integer result serialised to exactly `modulusByteLength` bytes, silently truncated (R171, R174). -/
def transformResult (c : RsaCtx) (s : State) (m : Nat) : RunResult :=
  .succeed s (integerToBytes m (modulusByteLength c) s.dataLe)

/-- `Direct(c, usePrivate, dir)` (R171): exponent `D` needs the private and the public group, exponent `E` the public
one. The sign correction of R202 is a dead branch over naturals. -/
def rsaDirect (ctx : BitVec 4) (usePrivate : Bool) (dir : Direction) (s : State) : RunResult :=
  withLiveRsa ctx s fun c =>
    withPayload c dir s
      (if usePrivate then
        (if c.hasPrivateInfo && c.hasPublicInfo then transformResult c s (modExp (payloadInteger s) c.d c.n)
         else .fail .missingKeyMaterial)
      else
        (if c.hasPublicInfo then transformResult c s (modExp (payloadInteger s) c.e c.n)
         else .fail .missingKeyMaterial))

/-- The CRT path (R174): only the CRT group is consulted, `N` and `D` are not read. -/
def rsaCrt (ctx : BitVec 4) (dir : Direction) (s : State) : RunResult :=
  withLiveRsa ctx s fun c =>
    withPayload c dir s
      (if c.hasCrtInfo then
        transformResult c s (crtCombine (payloadInteger s) c.p c.q c.dp c.dq c.inverseQ)
      else .fail .missingKeyMaterial)

/-- The meaning of `RSA_ENC` (R172). -/
def execRsaEnc (ctx : BitVec 4) (usePrivate : Bool) (s : State) : Host.Outcome State Fault Refusal :=
  .next (complete (opcodeOf (.rsaEnc ctx usePrivate)) s (rsaDirect ctx usePrivate .enc s))

/-- The meaning of `RSA_DEC` (R173). -/
def execRsaDec (ctx : BitVec 4) (usePrivate : Bool) (s : State) : Host.Outcome State Fault Refusal :=
  .next (complete (opcodeOf (.rsaDec ctx usePrivate)) s (rsaDirect ctx usePrivate .dec s))

/-- The meaning of `RSA_PRIVENC` (R174). -/
def execRsaPrivenc (ctx : BitVec 4) (s : State) : Host.Outcome State Fault Refusal :=
  .next (complete (opcodeOf (.rsaPrivenc ctx)) s (rsaCrt ctx .enc s))

/-- The meaning of `RSA_PRIVDEC` (R175). -/
def execRsaPrivdec (ctx : BitVec 4) (s : State) : Host.Outcome State Fault Refusal :=
  .next (complete (opcodeOf (.rsaPrivdec ctx)) s (rsaCrt ctx .dec s))

/-- The meaning of `RSA_PUBENC` (R176; 90_conflicts.md C7). -/
def execRsaPubenc (ctx : BitVec 4) (s : State) : Host.Outcome State Fault Refusal :=
  .next (complete (opcodeOf (.rsaPubenc ctx)) s (rsaDirect ctx false .enc s))

/-- The meaning of `RSA_PUBDEC` (R177; 90_conflicts.md C7). -/
def execRsaPubdec (ctx : BitVec 4) (s : State) : Host.Outcome State Fault Refusal :=
  .next (complete (opcodeOf (.rsaPubdec ctx)) s (rsaDirect ctx false .dec s))

/-- The 16 bytes of `RSA_QUERY` (R178). -/
def rsaQueryBytes (c : RsaCtx) : Bytes :=
  bytes32 (BitVec.ofNat 32 c.keySizeBits.toNat) ++ bytes32 (BitVec.ofNat 32 (modulusByteLength c))
    ++ bytes32 (BitVec.ofNat 32 (maxPlaintextBytes c)) ++ bytes32 (rsaFlagsWord c)

/-- The meaning of `RSA_QUERY` (R178). -/
def execRsaQuery (ctx : BitVec 4) (s : State) : Host.Outcome State Fault Refusal :=
  .next (complete (opcodeOf (.rsaQuery ctx)) s (withLiveRsa ctx s fun c => .succeed s (rsaQueryBytes c)))

/-- `RSA_DISPOSE` (R179): marks a LIVE slot, clears nothing else, succeeds on a slot in any state. -/
def runRsaDispose (ctx : BitVec 4) (s : State) : RunResult :=
  match s.rsa[ctx.toNat]? with
  | none => .fail .illegalCommand
  | some c =>
    if c.life = .live then .succeed (s.setRsa ctx.toNat { c with life := .disposed }) [] else .succeed s []

/-- The meaning of `RSA_DISPOSE`. -/
def execRsaDispose (ctx : BitVec 4) (s : State) : Host.Outcome State Fault Refusal :=
  .next (complete (opcodeOf (.rsaDispose ctx)) s (runRsaDispose ctx s))

end Sys2Proof.Machine
end

