-- ==== Sys2Proof/Machine/StreamCipher.lean ====
section
/-! DEFINITION. The stream-cipher unit's functions (40_stream_cipher.md R120 to R135): building the state, the
Salsa20 and ChaCha20 mixers, the block function and the block counter. The details the spec supplies from general
knowledge are followed as its rules print them (log 16). -/

namespace Sys2Proof.Machine

/-- `rotl32(v, n)` for `0 < n < 32` (00_scope.md R10). -/
def rotl32 (v : Word) (n : Nat) : Word := v.rotateLeft n

/-- The constant words for a key of `keyLen` bytes: sigma for 32, tau otherwise (R123). -/
def constantWords (keyLen : Nat) : Vector Word 4 :=
  if keyLen = 32 then #v[0x61707865#32, 0x3320646E#32, 0x79622D32#32, 0x6B206574#32]
  else #v[0x61707865#32, 0x3120646E#32, 0x79622D36#32, 0x6B206574#32]

/-- The offset of key word `i` in a key of `keyLen` bytes: a 16-byte key fills the second half again (R124). -/
def keyWordOffset (keyLen i : Nat) : Nat := if keyLen = 32 then 4 * i else 4 * (i % 4)

/-- Key word `k[i]`, `i < 8` (R124). -/
def keyWord (key : Bytes) (i : Nat) : Word := le32 key (keyWordOffset key.length i)

/-- The Salsa20 state (R125). -/
def salsaState (key nonce : Bytes) (counter : Word) : Words16 :=
  let cw := constantWords key.length
  #v[cw[0], keyWord key 0, keyWord key 1, keyWord key 2,
     keyWord key 3, cw[1], le32 nonce 0, le32 nonce 4,
     counter, 0#32, cw[2], keyWord key 4,
     keyWord key 5, keyWord key 6, keyWord key 7, cw[3]]

/-- The ChaCha20 state from a 12-byte nonce (R126). -/
def chachaState (key nonce : Bytes) (counter : Word) : Words16 :=
  let cw := constantWords key.length
  #v[cw[0], cw[1], cw[2], cw[3],
     keyWord key 0, keyWord key 1, keyWord key 2, keyWord key 3,
     keyWord key 4, keyWord key 5, keyWord key 6, keyWord key 7,
     counter, le32 nonce 0, le32 nonce 4, le32 nonce 8]

/-- An 8-byte ChaCha20 nonce padded to 12 bytes, zeros first unless `CC8PAD` (R127); another nonce unchanged. -/
def padNonce (cc8pad : Bool) (nonce : Bytes) : Bytes :=
  if nonce.length = 8 then
    (if cc8pad then nonce ++ [0#8, 0#8, 0#8, 0#8] else [0#8, 0#8, 0#8, 0#8] ++ nonce)
  else nonce

/-- The state `SC_INIT` builds (R125, R126, R127). -/
def initialState (variant : Variant) (cc8pad : Bool) (key nonce : Bytes) (counter : Word) : Words16 :=
  match variant with
  | .salsa20 => salsaState key nonce counter
  | .chacha20 => chachaState key (padNonce cc8pad nonce) counter

/-- The Salsa20 quarter-round (R128). -/
def salsaQuarter (x : Words16) (a b c d : Fin 16) : Words16 :=
  let x := x.set b (x[b] ^^^ rotl32 (x[a] + x[d]) 7)
  let x := x.set c (x[c] ^^^ rotl32 (x[b] + x[a]) 9)
  let x := x.set d (x[d] ^^^ rotl32 (x[c] + x[b]) 13)
  x.set a (x[a] ^^^ rotl32 (x[d] + x[c]) 18)

/-- The Salsa20 column round, the first four quarter-rounds of R129. -/
def salsaColumns (x : Words16) : Words16 :=
  let x := salsaQuarter x 0 4 8 12
  let x := salsaQuarter x 5 9 13 1
  let x := salsaQuarter x 10 14 2 6
  salsaQuarter x 15 3 7 11

/-- The Salsa20 row round, the last four quarter-rounds of R129 (90_conflicts.md C1). -/
def salsaRows (x : Words16) : Words16 :=
  let x := salsaQuarter x 0 1 2 3
  let x := salsaQuarter x 5 6 7 4
  let x := salsaQuarter x 10 11 8 9
  salsaQuarter x 15 12 13 14

/-- The ChaCha20 quarter-round (R130). -/
def chachaQuarter (x : Words16) (a b c d : Fin 16) : Words16 :=
  let x := x.set a (x[a] + x[b])
  let x := x.set d (rotl32 (x[d] ^^^ x[a]) 16)
  let x := x.set c (x[c] + x[d])
  let x := x.set b (rotl32 (x[b] ^^^ x[c]) 12)
  let x := x.set a (x[a] + x[b])
  let x := x.set d (rotl32 (x[d] ^^^ x[a]) 8)
  let x := x.set c (x[c] + x[d])
  x.set b (rotl32 (x[b] ^^^ x[c]) 7)

/-- The ChaCha20 column round (R131). -/
def chachaColumns (x : Words16) : Words16 :=
  let x := chachaQuarter x 0 4 8 12
  let x := chachaQuarter x 1 5 9 13
  let x := chachaQuarter x 2 6 10 14
  chachaQuarter x 3 7 11 15

/-- The ChaCha20 diagonal round (R131). -/
def chachaDiagonals (x : Words16) : Words16 :=
  let x := chachaQuarter x 0 5 10 15
  let x := chachaQuarter x 1 6 11 12
  let x := chachaQuarter x 2 7 8 13
  chachaQuarter x 3 4 9 14

/-- One double round of the variant (R129, R131). -/
def doubleRound (variant : Variant) (x : Words16) : Words16 :=
  match variant with
  | .salsa20 => salsaRows (salsaColumns x)
  | .chacha20 => chachaDiagonals (chachaColumns x)

/-- `n` double rounds (R132). -/
def doubleRounds (variant : Variant) : Nat → Words16 → Words16
  | 0, x => x
  | n + 1, x => doubleRounds variant n (doubleRound variant x)

/-- The words of the block function, before serialisation (R132). -/
def blockWords (variant : Variant) (state : Words16) (rounds : BitVec 16) : Words16 :=
  Vector.zipWith (· + ·) (doubleRounds variant (rounds.toNat / 2) state) state

/-- `Block(variant, state, rounds)`: 64 keystream bytes (R132). -/
def block (variant : Variant) (state : Words16) (rounds : BitVec 16) : Bytes :=
  (blockWords variant state rounds).toList.flatMap bytes32

/-- The counter's advance after one block (R133 for Salsa20, R134 for ChaCha20). -/
def advanceCounter (variant : Variant) (state : Words16) : Words16 :=
  match variant with
  | .salsa20 =>
    let next := state.set 8 (state[8] + 1#32)
    if next[8] = 0#32 then next.set 9 (next[9] + 1#32) else next
  | .chacha20 => state.set 12 (state[12] + 1#32)

/-- The number of 64-byte chunks of `n` bytes, the last one maybe shorter (R137, 70_reset_and_hazards.md R290). -/
def chunkCount (n : Nat) : Nat := (n + 63) / 64

/-- The chunk loop of `SC_PROCESS` over `k` chunks of `data` (R137): the state with its counter advanced, and the
bytes out. Each chunk takes a fresh block and drops what it does not use (R135). -/
def processChunks (variant : Variant) (rounds : BitVec 16) : Nat → Words16 → Bytes → Words16 × Bytes
  | 0, state, _ => (state, [])
  | k + 1, state, data =>
    let out := List.zipWith (· ^^^ ·) (data.take 64) (block variant state rounds)
    let rest := processChunks variant rounds k (advanceCounter variant state) (data.drop 64)
    (rest.1, out ++ rest.2)

end Sys2Proof.Machine
end

