-- ==== Sys2Proof/Machine/StreamCommands.lean ====
section
/-! DEFINITION. The meanings of `SC_INIT`, `SC_PROCESS`, `SC_SEEK`, `SC_DISPOSE`, `SC_QUERY`
(40_stream_cipher.md R136 to R140). -/

namespace Sys2Proof.Machine

/-- The nonce length is in the variant's accepted set (R143). -/
def nonceLenOk (variant : Variant) (nonceLen : Nat) : Bool :=
  match variant with
  | .salsa20 => decide (8 ≤ nonceLen)
  | .chacha20 => decide (nonceLen = 8) || decide (nonceLen = 12)

/-- The lengths check of `SC_INIT` (R136, check 3). -/
def scInitLengthsOk (variant : Variant) (s : State) : Bool :=
  (decide (s.arg0.toNat = 16) || decide (s.arg0.toNat = 32))
    && nonceLenOk variant s.arg1.toNat && s.ilenFits && s.splitFits

/-- The context `SC_INIT` builds (R136). -/
def scInitCtx (variant : Variant) (rounds : BitVec 16) (s : State) : ScCtx where
  life := .live
  variant := variant
  rounds := rounds
  state := initialState variant s.cc8pad s.firstPart s.secondPart s.arg2

/-- `SC_INIT` (R136). -/
def runScInit (ctx : BitVec 4) (variant : Variant) (rounds : BitVec 16) (s : State) : RunResult :=
  match s.sc[ctx.toNat]? with
  | none => .fail .illegalCommand
  | some c =>
    if c.life = .live then .fail .illegalState
    else if scInitLengthsOk variant s then .succeed (s.setSc ctx.toNat (scInitCtx variant rounds s)) []
    else .fail .invalidArgument

/-- The meaning of `SC_INIT`. -/
def execScInit (ctx : BitVec 4) (variant : Variant) (rounds : BitVec 16) (s : State) :
    Host.Outcome State Fault Refusal :=
  .next (complete (opcodeOf (.scInit ctx variant rounds)) s (runScInit ctx variant rounds s))

/-- `SC_PROCESS` (R137). -/
def runScProcess (ctx : BitVec 4) (s : State) : RunResult :=
  withLiveSc ctx s fun c =>
    if s.ilenFits then
      let r := processChunks c.variant c.rounds (chunkCount s.ilen.toNat) c.state s.operand
      .succeed (s.setSc ctx.toNat { c with state := r.1 }) r.2
    else .fail .invalidArgument

/-- The meaning of `SC_PROCESS`. -/
def execScProcess (ctx : BitVec 4) (s : State) : Host.Outcome State Fault Refusal :=
  .next (complete (opcodeOf (.scProcess ctx)) s (runScProcess ctx s))

/-- The state words after `SC_SEEK` (R138): `ARG1` is read for Salsa20 only. -/
def seekState (variant : Variant) (lo hi : Word) (state : Words16) : Words16 :=
  match variant with
  | .salsa20 => (state.set 8 lo).set 9 hi
  | .chacha20 => state.set 12 lo

/-- `SC_SEEK` (R138). -/
def runScSeek (ctx : BitVec 4) (s : State) : RunResult :=
  withLiveSc ctx s fun c =>
    .succeed (s.setSc ctx.toNat { c with state := seekState c.variant s.arg0 s.arg1 c.state }) []

/-- The meaning of `SC_SEEK`. -/
def execScSeek (ctx : BitVec 4) (s : State) : Host.Outcome State Fault Refusal :=
  .next (complete (opcodeOf (.scSeek ctx)) s (runScSeek ctx s))

/-- A stream context after teardown: all zero, DISPOSED (R140). -/
def disposedSc : ScCtx where
  life := .disposed
  variant := .salsa20
  rounds := 0#16
  state := Vector.replicate 16 0#32

/-- `SC_DISPOSE` (R140): succeeds on a slot in any state. -/
def runScDispose (ctx : BitVec 4) (s : State) : RunResult :=
  match s.sc[ctx.toNat]? with
  | none => .fail .illegalCommand
  | some c => if c.life = .live then .succeed (s.setSc ctx.toNat disposedSc) [] else .succeed s []

/-- The meaning of `SC_DISPOSE`. -/
def execScDispose (ctx : BitVec 4) (s : State) : Host.Outcome State Fault Refusal :=
  .next (complete (opcodeOf (.scDispose ctx)) s (runScDispose ctx s))

/-- The variant as the number `SC_QUERY` reports (R120, R139). -/
def variantCode : Variant → Word
  | .salsa20 => 0#32
  | .chacha20 => 1#32

/-- The counter's low word (R139). -/
def counterLo (c : ScCtx) : Word :=
  match c.variant with
  | .salsa20 => c.state[8]
  | .chacha20 => c.state[12]

/-- The counter's high word, 0 for ChaCha20 (R139). -/
def counterHi (c : ScCtx) : Word :=
  match c.variant with
  | .salsa20 => c.state[9]
  | .chacha20 => 0#32

/-- The 16 bytes of `SC_QUERY` (R139). -/
def scQueryBytes (c : ScCtx) : Bytes :=
  bytes32 (variantCode c.variant) ++ bytes32 (BitVec.ofNat 32 c.rounds.toNat) ++ bytes32 (counterLo c)
    ++ bytes32 (counterHi c)

/-- `SC_QUERY` (R139). -/
def runScQuery (ctx : BitVec 4) (s : State) : RunResult :=
  withLiveSc ctx s fun c => .succeed s (scQueryBytes c)

/-- The meaning of `SC_QUERY`. -/
def execScQuery (ctx : BitVec 4) (s : State) : Host.Outcome State Fault Refusal :=
  .next (complete (opcodeOf (.scQuery ctx)) s (runScQuery ctx s))

end Sys2Proof.Machine
end

