-- ==== Sys2Proof/Machine/Dispatch.lean ====
section
/-! DEFINITION. The meaning of every command, one arm each. -/

namespace Sys2Proof.Machine

def exec (i : Instr) (s : State) : Host.Outcome State Fault Refusal :=
  match i with
  | .scInit ctx variant rounds => Sys2Proof.Machine.execScInit ctx variant rounds s
  | .scProcess ctx => Sys2Proof.Machine.execScProcess ctx s
  | .scSeek ctx => Sys2Proof.Machine.execScSeek ctx s
  | .scDispose ctx => Sys2Proof.Machine.execScDispose ctx s
  | .scQuery ctx => Sys2Proof.Machine.execScQuery ctx s
  | .rsaInit ctx keySizeBits hashSel => Sys2Proof.Machine.execRsaInit ctx keySizeBits hashSel s
  | .rsaEnc ctx usePrivate => Sys2Proof.Machine.execRsaEnc ctx usePrivate s
  | .rsaDec ctx usePrivate => Sys2Proof.Machine.execRsaDec ctx usePrivate s
  | .rsaPrivenc ctx => Sys2Proof.Machine.execRsaPrivenc ctx s
  | .rsaPrivdec ctx => Sys2Proof.Machine.execRsaPrivdec ctx s
  | .rsaPubenc ctx => Sys2Proof.Machine.execRsaPubenc ctx s
  | .rsaPubdec ctx => Sys2Proof.Machine.execRsaPubdec ctx s
  | .rsaQuery ctx => Sys2Proof.Machine.execRsaQuery ctx s
  | .rsaDispose ctx => Sys2Proof.Machine.execRsaDispose ctx s
  | .biB2i littleEndian => Sys2Proof.Machine.execBiB2i littleEndian s
  | .biI2b length littleEndian => Sys2Proof.Machine.execBiI2b length littleEndian s
  | .biXor => Sys2Proof.Machine.execBiXor s

end Sys2Proof.Machine
end

