-- ==== Sys2Proof/Machine/Command.lean ====
section
/-! DEFINITION. A write to `CMD` (30_encoding.md R96), a bus write, and one host event. -/

namespace Sys2Proof.Machine

/-- The command a word encodes runs; a word that spells no command fails `IllegalCommand` (R96, R98). -/
def issueCommand (w : Word) (s : State) : Host.Outcome State Fault Refusal :=
  match decode w with
  | .ok i => exec i s
  | .error _ => .next (takeFailure (opField w) .illegalCommand s)

/-- `BusWrite(off, v)` (20_memory.md R61, R63). The response to a legal write is `done` whatever the command's code
(log 20). -/
def busWrite (width : Nat) (off : BitVec 16) (v : Word) (s : State) : Host.Outcome State Fault Refusal :=
  if legalAccess width off then
    (if off.toNat = Config.offCmd then issueCommand v { s with resp := .done }
     else .next { writeWord s off.toNat v with resp := .done })
  else .next { s with resp := .busError }

/-- One host event, already taken off `pending`. `Reset` keeps the events that follow it (70_reset_and_hazards.md
R281; log 6). -/
def hostEvent (ev : HostEvent) (s : State) : Host.Outcome State Fault Refusal :=
  match ev with
  | .read width off => .next { s with resp := busRead s width off }
  | .write width off v => busWrite width off v s
  | .reset => .next { State.reset with pending := s.pending }

end Sys2Proof.Machine
end

