-- ==== Sys2Proof/Machine/Step.lean ====
section
/-! DEFINITION. One step: the host's next event (00_scope.md R14: one step per bus access). -/

namespace Sys2Proof.Machine

/-- One step. With no event pending nothing happens: state lasts (60_exceptions.md R263; log 1). -/
def step (s : State) : Host.Outcome State Fault Refusal :=
  match s.pending with
  | [] => .next s
  | ev :: rest => hostEvent ev { s with pending := rest }

/-- `s` with a write of the command word to `CMD` as the host's next event: CORE has no fetch, a command is the data
of that write (20_memory.md R72; log 1). Bits of the word above `nbits` are 0. -/
def State.withFetchWord (s : State) (nbits w : Nat) : State :=
  { s with
    pending := .write 32 (BitVec.ofNat 16 Config.offCmd) (BitVec.ofNat 32 (w % 2 ^ nbits)) :: s.pending }

end Sys2Proof.Machine
end

