-- ==== Sys2Proof/Machine/Assembler.lean ====
section
/-! DEFINITION. The assembler's pseudo-instructions as the host events they expand to (30_encoding.md R105, R106).
Defaults (`rounds = 20`, `counter = 0`, `hi = 0`, SHA1) are the assembler's, never the hardware's (R105). The text
form of the notation is not modelled (log 21). -/

namespace Sys2Proof.Machine

/-- `WR off, v` (R105). -/
def wr (off : Nat) (v : Word) : HostEvent := .write 32 (BitVec.ofNat 16 off) v

/-- `RD off` (R105). -/
def rd (off : Nat) : HostEvent := .read 32 (BitVec.ofNat 16 off)

/-- A command mnemonic: `WR CMD, <word>` (R105). -/
def command (i : Instr) : HostEvent := wr Config.offCmd (encode i)

/-- `LOAD <bytes>` (R106): the words of the sequence, bytes past its end taken as 0, then its length. -/
def loadEvents (b : Bytes) : List HostEvent :=
  (List.range ((b.length + 3) / 4)).map (fun k => wr (Config.ibufBase + 4 * k) (le32 b (4 * k)))
    ++ [wr Config.offIlen (BitVec.ofNat 32 b.length)]

/-- `SC_NEW ctx, variant, key, nonce, rounds, counter` (R106). -/
def scNew (ctx : BitVec 4) (variant : Variant) (key nonce : Bytes) (rounds : BitVec 16 := 20#16)
    (counter : Word := 0#32) : List HostEvent :=
  loadEvents (key ++ nonce)
    ++ [wr Config.offArg0 (BitVec.ofNat 32 key.length), wr Config.offArg1 (BitVec.ofNat 32 nonce.length),
        wr Config.offArg2 counter, command (.scInit ctx variant rounds)]

/-- `TRANSFORM ctx, data` (R106). -/
def transform (ctx : BitVec 4) (data : Bytes) : List HostEvent := loadEvents data ++ [command (.scProcess ctx)]

/-- `SEEK ctx, lo, hi` (R106). -/
def seek (ctx : BitVec 4) (lo : Word) (hi : Word := 0#32) : List HostEvent :=
  [wr Config.offArg0 lo, wr Config.offArg1 hi, command (.scSeek ctx)]

/-- `RSA_NEW ctx, keySizeBits, descriptor, hash` (R106). -/
def rsaNew (ctx : BitVec 4) (keySizeBits : BitVec 16) (descriptor : Bytes) (hashSel : BitVec 4 := 0#4) :
    List HostEvent :=
  loadEvents descriptor ++ [command (.rsaInit ctx keySizeBits hashSel)]

/-- `XOR x, y` (R106). -/
def xorEvents (x y : Bytes) : List HostEvent :=
  loadEvents (x ++ y)
    ++ [wr Config.offArg0 (BitVec.ofNat 32 x.length), wr Config.offArg1 (BitVec.ofNat 32 y.length),
        command .biXor]

/-- `READ n` (R106): `RD OLEN`, then the words of the result. -/
def readEvents (n : Nat) : List HostEvent :=
  rd Config.offOlen :: (List.range ((n + 3) / 4)).map fun k => rd (Config.obufBase + 4 * k)

/-- `EXPECT code`: the value `RD STATUS` must return after command `op` (R106). -/
def expectStatus (op : BitVec 8) (code : Nat) : Word := statusWord op code

/-- `FIELD tag, bytes` inside a descriptor (R106, R101). -/
def fieldBytes (tag : Byte) (value : Bytes) : Bytes :=
  tag :: BitVec.ofNat 8 (value.length % 256) :: BitVec.ofNat 8 (value.length / 256) :: value

end Sys2Proof.Machine
end

