-- ==== Sys2Proof/Safety.lean ====
section
/-! DEFINITION. What a good state is (`State.Inv`, the spec's own invariants), and how a command ends, in the terms
the statements use: success (30_encoding.md R96) and failure (60_exceptions.md R255). -/

namespace Sys2Proof.Machine

/-- The stream-context invariant of 10_state.md R40: all zero when not LIVE. -/
abbrev ScCtx.Ok (c : ScCtx) : Prop :=
  c.life ≠ .live → c.variant = .salsa20 ∧ c.rounds = 0#16 ∧ c.state = Vector.replicate 16 0#32

/-- Every integer of an RSA context fits its field (R45). -/
abbrev RsaCtx.Bounded (c : RsaCtx) : Prop :=
  c.n < 2 ^ (8 * Config.fieldMaxBytes) ∧ c.e < 2 ^ (8 * Config.fieldMaxBytes)
    ∧ c.d < 2 ^ (8 * Config.fieldMaxBytes) ∧ c.p < 2 ^ (8 * Config.fieldMaxBytes)
    ∧ c.q < 2 ^ (8 * Config.fieldMaxBytes) ∧ c.dp < 2 ^ (8 * Config.fieldMaxBytes)
    ∧ c.dq < 2 ^ (8 * Config.fieldMaxBytes) ∧ c.inverseQ < 2 ^ (8 * Config.fieldMaxBytes)

/-- The fields of an unavailable group are 0 (R45), and an available modulus or prime is not 0 (41_rsa_engine.md
R167). -/
abbrev RsaCtx.GroupsOk (c : RsaCtx) : Prop :=
  (c.hasPublicInfo = false → c.n = 0 ∧ c.e = 0) ∧ (c.hasPublicInfo = true → c.n ≠ 0)
    ∧ (c.hasPrivateInfo = false → c.d = 0)
    ∧ (c.hasCrtInfo = false → c.p = 0 ∧ c.q = 0 ∧ c.dp = 0 ∧ c.dq = 0 ∧ c.inverseQ = 0)
    ∧ (c.hasCrtInfo = true → c.p ≠ 0 ∧ c.q ≠ 0)

/-- `hashId` and `hashLen` are one of the pairs of 41_rsa_engine.md R164. -/
abbrev RsaCtx.HashOk (c : RsaCtx) : Prop :=
  (c.hashId, c.hashLen) ∈ [(0#3, 20#8), (1#3, 32#8), (2#3, 48#8), (3#3, 64#8), (7#3, 0#8)]

/-- The RSA-context invariant: at reset values when FREE (R53); else bounded, its key size valid (R163), its groups
and hash as `RSA_INIT` leaves them. -/
abbrev RsaCtx.Ok (c : RsaCtx) : Prop :=
  (c.life = .free → c = RsaCtx.reset)
    ∧ (c.life ≠ .free → c.Bounded ∧ keySizeOk c.keySizeBits = true ∧ c.GroupsOk ∧ c.HashOk)

/-- `STATUS` holds what 10_state.md R34 allows: code 0 to 8, reserved bits 0, and 0 altogether before the first
command. -/
abbrev statusLegal (v : Word) : Prop :=
  statusCode v ≤ 8 ∧ v.extractLsb' 4 4 = 0#4 ∧ v.extractLsb' 16 15 = 0#15 ∧ (statusValid v = false → v = 0#32)

/-- A buffer in its canonical form and within its size. -/
abbrev bufferOk (m : Memory) (size : Nat) : Prop := Memory.wf m = true ∧ Memory.below m size = true

/-- The hidden datapath registers are zero between commands (R51, R52). -/
abbrev State.TempsZero (s : State) : Prop :=
  s.x = Vector.replicate 16 0#32 ∧ s.ks = Vector.replicate 64 0#8 ∧ s.temps = Temps.zero

/-- The invariant of CORE's state. -/
abbrev State.Inv (s : State) : Prop :=
  bufferOk s.ibuf Config.ibufBytes ∧ bufferOk s.obuf Config.obufBytes ∧ s.cfg.toNat < 8 ∧ statusLegal s.status
    ∧ s.olen.toNat ≤ Config.obufBytes ∧ (∀ i : Fin Config.numScCtx, (s.sc[i]).Ok)
    ∧ (∀ i : Fin Config.numRsaCtx, (s.rsa[i]).Ok) ∧ s.biacc < 2 ^ (8 * Config.ibufBytes) ∧ s.TempsZero

/-- `u` is what a command of opcode `op` leaves when it succeeds with result `out`, `t` being the state with the
command's own effect: the result in `OBUF` from offset 0 and every other byte as it was, `OLEN`, `STATUS` with code
`OK`, the temporaries cleared, all else as in `t` (R96). -/
def SucceedsWith (op : BitVec 8) (t : State) (out : Bytes) (u : State) : Prop :=
  u = { t with
        obuf := u.obuf
        olen := BitVec.ofNat 32 out.length
        status := statusWord op 0
        x := Vector.replicate 16 0#32
        ks := Vector.replicate 64 0#8
        temps := Temps.zero }
    ∧ ∀ a, Memory.read u.obuf a = if a < out.length then out.getD a 0#8 else Memory.read t.obuf a

/-- `u` is what a command of opcode `op` leaves when it fails with `f` from state `s`: `OLEN` 0, `STATUS` with the
failure's code, the temporaries cleared, all else as in `s` (R255, R96). -/
def FailsWith (op : BitVec 8) (f : Failure) (s u : State) : Prop :=
  u = { s with
        olen := 0#32
        status := statusWord op f.code
        x := Vector.replicate 16 0#32
        ks := Vector.replicate 64 0#8
        temps := Temps.zero }

end Sys2Proof.Machine
end

