-- ==== Sys2Proof/Certificates/Slice0/Obligations.lean ====
section
/-! DEFINITION. The statements for the provers. Each docstring names the rule of spec/ it formalises.
A statement that gives the next state as a record update says the whole frame: every field not named is unchanged. -/

open Sys2Proof Sys2Proof.Machine

namespace Sys2Proof.Claims

/-- The stream slot a command may write (10_state.md R40: written by `SC_INIT`, `SC_PROCESS`, `SC_SEEK`,
`SC_DISPOSE`). -/
def writesSc : Instr → Nat → Prop
  | .scInit ctx _ _, j => ctx.toNat = j
  | .scProcess ctx, j => ctx.toNat = j
  | .scSeek ctx, j => ctx.toNat = j
  | .scDispose ctx, j => ctx.toNat = j
  | _, _ => False

/-- The RSA slot a command may write (R45: `RSA_INIT` all fields, `RSA_DISPOSE` the lifecycle flag). -/
def writesRsa : Instr → Nat → Prop
  | .rsaInit ctx _ _, j => ctx.toNat = j
  | .rsaDispose ctx, j => ctx.toNat = j
  | _, _ => False

/-- The failures a command that is well formed may end with (60_exceptions.md R251, second table, without
`IllegalCommand`). -/
def listedFailures : Instr → List Failure
  | .scInit _ _ _ => [.illegalState, .invalidArgument]
  | .scProcess _ => [.illegalState, .invalidArgument]
  | .scSeek _ => [.illegalState]
  | .scQuery _ => [.illegalState]
  | .scDispose _ => []
  | .rsaDispose _ => []
  | .rsaInit _ _ _ => [.illegalState, .invalidArgument, .malformedKeyMaterial]
  | .rsaEnc _ _ => [.illegalState, .payloadTooLarge, .emptyPayload, .missingKeyMaterial]
  | .rsaDec _ _ => [.illegalState, .payloadTooLarge, .emptyPayload, .missingKeyMaterial]
  | .rsaPrivenc _ => [.illegalState, .payloadTooLarge, .emptyPayload, .missingKeyMaterial]
  | .rsaPrivdec _ => [.illegalState, .payloadTooLarge, .emptyPayload, .missingKeyMaterial]
  | .rsaPubenc _ => [.illegalState, .payloadTooLarge, .emptyPayload, .missingKeyMaterial]
  | .rsaPubdec _ => [.illegalState, .payloadTooLarge, .emptyPayload, .missingKeyMaterial]
  | .rsaQuery _ => [.illegalState]
  | .biB2i _ => [.invalidArgument]
  | .biI2b _ _ => [.invalidArgument]
  | .biXor => [.invalidArgument, .lengthMismatch]

/-- The command fails with `f`. -/
def FailsAs (i : Instr) (f : Failure) (s : State) : Prop :=
  ∃ u, exec i s = .next u ∧ FailsWith (opcodeOf i) f s u

/-- The command succeeds with result `out`, `t` being the state with its own effect. -/
def SucceedsAs (i : Instr) (s t : State) (out : Bytes) : Prop :=
  ∃ u, exec i s = .next u ∧ SucceedsWith (opcodeOf i) t out u

/-- `sc[j] <- c`, all else as in `s`. -/
def putSc (s : State) (j : Nat) (c : ScCtx) : State := { s with sc := s.sc.setIfInBounds j c }

/-- `rsa[j] <- c`, all else as in `s`. -/
def putRsa (s : State) (j : Nat) (c : RsaCtx) : State := { s with rsa := s.rsa.setIfInBounds j c }

/-- The word at offset `o` of `IBUF`, least significant byte first (40_stream_cipher.md R121). -/
def ibufWord (s : State) (o : Nat) : Word :=
  BitVec.ofNat 32
    ((Memory.read s.ibuf o).toNat + 256 * (Memory.read s.ibuf (o + 1)).toNat
      + 65536 * (Memory.read s.ibuf (o + 2)).toNat + 16777216 * (Memory.read s.ibuf (o + 3)).toNat)

/-- Key word `k[i]` of the key at the start of `IBUF` (R124). -/
def keyAt (s : State) (i : Nat) : Word := ibufWord s (if s.arg0.toNat = 32 then 4 * i else 4 * (i % 4))

/-- Word `i` of the nonce that follows the key in `IBUF`. -/
def nonceAt (s : State) (i : Nat) : Word := ibufWord s (s.arg0.toNat + 4 * i)

/-- The lengths `SC_INIT` accepts (R136 check 3, R143). -/
def LengthsAccepted (variant : Variant) (s : State) : Prop :=
  (s.arg0.toNat = 16 ∨ s.arg0.toNat = 32)
    ∧ (variant = .salsa20 → 8 ≤ s.arg1.toNat)
    ∧ (variant = .chacha20 → s.arg1.toNat = 8 ∨ s.arg1.toNat = 12)
    ∧ s.ilen.toNat ≤ 16384 ∧ s.ilen.toNat = s.arg0.toNat + s.arg1.toNat

/-- Constant word 1: sigma for a 32-byte key, tau for a 16-byte key (R123). -/
def const1 (s : State) : Word := if s.arg0.toNat = 32 then 0x3320646E#32 else 0x3120646E#32

/-- Constant word 2 (R123). -/
def const2 (s : State) : Word := if s.arg0.toNat = 32 then 0x79622D32#32 else 0x79622D36#32

/-- The Salsa20 state words (R125). -/
def salsaWords (s : State) : Words16 :=
  #v[0x61707865#32, keyAt s 0, keyAt s 1, keyAt s 2, keyAt s 3, const1 s, nonceAt s 0, nonceAt s 1,
     s.arg2, 0#32, const2 s, keyAt s 4, keyAt s 5, keyAt s 6, keyAt s 7, 0x6B206574#32]

/-- The ChaCha20 state words: a 12-byte nonce (R126), an 8-byte nonce with zeros first or last (R127). -/
def chachaWords (s : State) : Words16 :=
  #v[0x61707865#32, const1 s, const2 s, 0x6B206574#32, keyAt s 0, keyAt s 1, keyAt s 2, keyAt s 3,
     keyAt s 4, keyAt s 5, keyAt s 6, keyAt s 7, s.arg2,
     if s.arg1.toNat = 8 ∧ s.cfg.getLsbD 2 = false then 0#32 else nonceAt s 0,
     if s.arg1.toNat = 8 ∧ s.cfg.getLsbD 2 = false then nonceAt s 0 else nonceAt s 1,
     if s.arg1.toNat = 8 then (if s.cfg.getLsbD 2 = false then nonceAt s 1 else 0#32) else nonceAt s 2]

/-- The state words of a fresh context (R136). -/
def initWords (variant : Variant) (s : State) : Words16 :=
  match variant with
  | .salsa20 => salsaWords s
  | .chacha20 => chachaWords s

/-- The Salsa20 64-bit counter (R133). -/
def counter64 (st : Words16) : Nat := st[8].toNat + 2 ^ 32 * st[9].toNat

/-- The direct RSA transforms of a direction and an exponent choice (41_rsa_engine.md R172, R173, R176, R177). -/
def directForms (ctx : BitVec 4) : Bool → Direction → List Instr
  | true, .enc => [.rsaEnc ctx true]
  | true, .dec => [.rsaDec ctx true]
  | false, .enc => [.rsaEnc ctx false, .rsaPubenc ctx]
  | false, .dec => [.rsaDec ctx false, .rsaPubdec ctx]

/-- The CRT transform of a direction (R174, R175). -/
def crtForm (ctx : BitVec 4) : Direction → Instr
  | .enc => .rsaPrivenc ctx
  | .dec => .rsaPrivdec ctx

/-- The payload limit of R170 written out from R161 and R162. -/
def limitOf (c : RsaCtx) : Direction → Nat
  | .enc => (c.keySizeBits.toNat - 384) / 8 + 37
  | .dec => c.keySizeBits.toNat / 8

/-- The payload as an integer in the byte order of `CFG.DATA_LE` (R171). -/
def payloadOf (s : State) : Nat :=
  bytesToInteger (Memory.readBytes s.ibuf 0 s.ilen.toNat) (s.cfg.getLsbD 0)

/-- A transform's result bytes (R171). -/
def resultBytes (c : RsaCtx) (s : State) (m : Nat) : Bytes :=
  integerToBytes m (c.keySizeBits.toNat / 8) (s.cfg.getLsbD 0)

/-- Tag `t` occurs exactly once and its value `v` has 1 to 2048 bytes (R166). -/
def usable (rs : List KeyRecord) (t : Nat) (v : Bytes) : Prop :=
  (rs.filter fun r => decide (r.tag.toNat = t)).map KeyRecord.value = [v] ∧ 1 ≤ v.length ∧ v.length ≤ 2048

/-- A descriptor of the given records (30_encoding.md R100, R101). -/
def descriptor (rs : List KeyRecord) : Bytes := rs.flatMap fun r => fieldBytes r.tag r.value

/-- Field `op` of a command's word (R93). -/
def opOf : Instr → Nat
  | .scInit _ _ _ => 0x10
  | .scProcess _ => 0x11
  | .scSeek _ => 0x12
  | .scDispose _ => 0x13
  | .scQuery _ => 0x14
  | .rsaInit _ _ _ => 0x20
  | .rsaEnc _ _ => 0x21
  | .rsaDec _ _ => 0x22
  | .rsaPrivenc _ => 0x23
  | .rsaPrivdec _ => 0x24
  | .rsaPubenc _ => 0x25
  | .rsaPubdec _ => 0x26
  | .rsaQuery _ => 0x27
  | .rsaDispose _ => 0x28
  | .biB2i _ => 0x30
  | .biI2b _ _ => 0x31
  | .biXor => 0x32

/-- Field `ctx` of a command's word; 0 for the codec commands (R91, R93). -/
def ctxOf : Instr → Nat
  | .scInit ctx _ _ => ctx.toNat
  | .scProcess ctx => ctx.toNat
  | .scSeek ctx => ctx.toNat
  | .scDispose ctx => ctx.toNat
  | .scQuery ctx => ctx.toNat
  | .rsaInit ctx _ _ => ctx.toNat
  | .rsaEnc ctx _ => ctx.toNat
  | .rsaDec ctx _ => ctx.toNat
  | .rsaPrivenc ctx => ctx.toNat
  | .rsaPrivdec ctx => ctx.toNat
  | .rsaPubenc ctx => ctx.toNat
  | .rsaPubdec ctx => ctx.toNat
  | .rsaQuery ctx => ctx.toNat
  | .rsaDispose ctx => ctx.toNat
  | .biB2i _ => 0
  | .biI2b _ _ => 0
  | .biXor => 0

/-- Field `fl` of a command's word: `salsa20 = 0`, `chacha20 = 1`; `pub = 0`, `priv = 1`; `be = 0`, `le = 1`; the hash
selector of `RSA_INIT`; 0 elsewhere (R93, R105). -/
def flOf : Instr → Nat
  | .scInit _ .salsa20 _ => 0
  | .scInit _ .chacha20 _ => 1
  | .rsaInit _ _ hashSel => hashSel.toNat
  | .rsaEnc _ usePrivate => if usePrivate then 1 else 0
  | .rsaDec _ usePrivate => if usePrivate then 1 else 0
  | .biB2i littleEndian => if littleEndian then 1 else 0
  | .biI2b _ littleEndian => if littleEndian then 1 else 0
  | _ => 0

/-- Field `imm` of a command's word: the rounds, the key size or the length; 0 elsewhere (R93). -/
def immOf : Instr → Nat
  | .scInit _ _ rounds => rounds.toNat
  | .rsaInit _ keySizeBits _ => keySizeBits.toNat
  | .biI2b length _ => length.toNat
  | _ => 0

/-- `rotl32(v, n)` as 00_scope.md R10 computes it. -/
def rot (v : Word) (n : Nat) : Word := BitVec.ofNat 32 (v.toNat * 2 ^ n % 2 ^ 32 + v.toNat / 2 ^ (32 - n))

/-- A quarter-round of the variant (R128, R130). -/
def quarter : Variant → Words16 → Fin 16 × Fin 16 × Fin 16 × Fin 16 → Words16
  | .salsa20, x, (a, b, c, d) => salsaQuarter x a b c d
  | .chacha20, x, (a, b, c, d) => chachaQuarter x a b c d

/-- The index tuples of a double round, in order (R129, R131). -/
def roundTuples : Variant → List (Fin 16 × Fin 16 × Fin 16 × Fin 16)
  | .salsa20 => [(0, 4, 8, 12), (5, 9, 13, 1), (10, 14, 2, 6), (15, 3, 7, 11),
                 (0, 1, 2, 3), (5, 6, 7, 4), (10, 11, 8, 9), (15, 12, 13, 14)]
  | .chacha20 => [(0, 4, 8, 12), (1, 5, 9, 13), (2, 6, 10, 14), (3, 7, 11, 15),
                  (0, 5, 10, 15), (1, 6, 11, 12), (2, 7, 8, 13), (3, 4, 9, 14)]

/-- One double round: the eight quarter-rounds in order (R129, R131). -/
def eightQuarters (v : Variant) (x : Words16) : Words16 := (roundTuples v).foldl (quarter v) x

/-- What a host can read off the bus (00_scope.md R15): the registers, the lifecycle flags, and `OBUF` below `OLEN`. -/
def SameVisible (s t : State) : Prop :=
  s.cfg = t.cfg ∧ s.status = t.status ∧ s.ilen = t.ilen ∧ s.olen = t.olen ∧ s.arg0 = t.arg0 ∧ s.arg1 = t.arg1
    ∧ s.arg2 = t.arg2 ∧ (∀ i : Fin Config.numScCtx, (s.sc[i]).life = (t.sc[i]).life)
    ∧ (∀ i : Fin Config.numRsaCtx, (s.rsa[i]).life = (t.rsa[i]).life)
    ∧ ∀ a, a < s.olen.toNat → Memory.read s.obuf a = Memory.read t.obuf a

end Sys2Proof.Claims

open Sys2Proof.Claims

/-! ## Encoding -/

/-- Decoding an encoded well-formed command gives it back, with every operand at every value (R91, R93). -/
def Obligations.DecodeOfEncode : Prop :=
  ∀ i : Instr, i.wellFormed = true → decode (encode i) = .ok i

/-- A word that decodes is the encoding of what it decodes to, which is well formed: no bit of a word is dropped, and
one command has one word (R94, R95, R98). -/
def Obligations.EncodeOfDecode : Prop :=
  ∀ (w : Word) (i : Instr), decode w = .ok i → i.wellFormed = true ∧ encode i = w

/-- The decoder accepts exactly the words the opcode map of R93 accepts, and reads the row's command. -/
def Obligations.DecoderFollowsOpcodeMap : Prop :=
  ∀ w : Word,
    ((∃ i, decode w = .ok i) ↔ ∃ r ∈ opcodeMap, r.accepts w = true)
      ∧ ∀ i, decode w = .ok i → ∃ r ∈ opcodeMap, r.accepts w = true ∧ opcodeOf i = opField r.pattern

/-- Where each field of a command stands in its word: `op + ctx * 2^8 + fl * 2^12 + imm * 2^16` (R91, R105), for every
command and every operand; `op` is also the opcode `STATUS.lastop` reports. -/
def Obligations.EncodePlacesFields : Prop :=
  ∀ i : Instr,
    (encode i).toNat = opOf i + ctxOf i * 2 ^ 8 + flOf i * 2 ^ 12 + immOf i * 2 ^ 16
      ∧ (opcodeOf i).toNat = opOf i

/-- Words of the spec's own examples decode to the commands it says (30_encoding.md R105; 95_test_vectors.md B1). -/
def Obligations.ExampleWordsDecode : Prop :=
  decode 0x00141010#32 = .ok (.scInit 0 .chacha20 20)
    ∧ decode 0x00140110#32 = .ok (.scInit 1 .salsa20 20)
    ∧ decode 0x00000111#32 = .ok (.scProcess 1)
    ∧ decode 0x08001120#32 = .ok (.rsaInit 1 2048 1)
    ∧ decode 0x00001022#32 = .ok (.rsaDec 0 true)
    ∧ decode 0x00041031#32 = .ok (.biI2b 4 true)
    ∧ decode 0x00000032#32 = .ok .biXor

/-! ## The step -/

/-- A step whose next event is a write of a command word to `CMD` runs the decoded command, the event taken off the
list and the write answered `done` (R96, 20_memory.md R72; the event list and the response are the model's, logs 1, 2). -/
def Obligations.StepRunsDecodedCommand : Prop :=
  ∀ (s : State) (w : Word) (rest : List HostEvent) (i : Instr),
    s.pending = .write 32 0x008#16 w :: rest → decode w = .ok i →
    step s = exec i { s with pending := rest, resp := .done }

/-- A word that spells no command fails `IllegalCommand` with bits 7:0 of the word in `STATUS.lastop` (R94, R95, R96;
the event list and the response are the model's, logs 1, 2; that the write is answered `done` is log 20). -/
def Obligations.UndecodableWordIsIllegalCommand : Prop :=
  ∀ (s : State) (w : Word) (rest : List HostEvent) (e : DecodeError),
    s.pending = .write 32 0x008#16 w :: rest → decode w = .error e →
    ∃ u, step s = .next u
      ∧ FailsWith (w.extractLsb' 0 8) .illegalCommand { s with pending := rest, resp := .done } u

/-- Every `op` value outside the map is illegal whatever the other fields hold (R97), and ends as R96 and R255 say (the
event list and the response are the model's, logs 1, 2; that the write is answered `done` is log 20). -/
def Obligations.UnknownOpcodeIsIllegalCommand : Prop :=
  ∀ (s : State) (w : Word) (rest : List HostEvent),
    s.pending = .write 32 0x008#16 w :: rest →
    (w.toNat % 256 ≤ 0x0F ∨ (0x15 ≤ w.toNat % 256 ∧ w.toNat % 256 ≤ 0x1F)
      ∨ (0x29 ≤ w.toNat % 256 ∧ w.toNat % 256 ≤ 0x2F) ∨ 0x33 ≤ w.toNat % 256) →
    ∃ u, step s = .next u
      ∧ FailsWith (w.extractLsb' 0 8) .illegalCommand { s with pending := rest, resp := .done } u

/-- With no event pending the state lasts (60_exceptions.md R263; the idle step is the model's choice, log 1). -/
def Obligations.IdleStepKeepsState : Prop :=
  ∀ s : State, s.pending = [] → step s = .next s

/-- The `Reset` event puts every element at its reset value (70_reset_and_hazards.md R280, R281; that later events
stay pending is the model's choice, log 6). -/
def Obligations.ResetEventGivesResetState : Prop :=
  ∀ (s : State) (rest : List HostEvent), s.pending = .reset :: rest →
    step s = .next { State.reset with pending := rest }

/-- R53: every element of CORE's state after reset. -/
def Obligations.ResetValues : Prop :=
  busRead State.reset 32 0x000#16 = .data 0x43540001#32
    ∧ State.reset.cfg = 0#32 ∧ State.reset.status = 0#32 ∧ State.reset.ilen = 0#32 ∧ State.reset.olen = 0#32
    ∧ State.reset.arg0 = 0#32 ∧ State.reset.arg1 = 0#32 ∧ State.reset.arg2 = 0#32
    ∧ busRead State.reset 32 0x024#16 = .data 0#32 ∧ busRead State.reset 32 0x028#16 = .data 0#32
    ∧ (∀ j : Fin Config.numScCtx, (State.reset.sc[j]).life = .free ∧ (State.reset.sc[j]).variant = .salsa20
        ∧ (State.reset.sc[j]).rounds = 0#16 ∧ ∀ k : Fin 16, (State.reset.sc[j]).state[k] = 0#32)
    ∧ (∀ j : Fin Config.numRsaCtx, State.reset.rsa[j]
        = ⟨.free, 0, 0, 0, 0, 0, 0, 0, 0, false, false, false, 0#16, 0#3, 0#8⟩)
    ∧ State.reset.biacc = 0
    ∧ (∀ a, Memory.read State.reset.ibuf a = 0#8) ∧ (∀ a, Memory.read State.reset.obuf a = 0#8)
    ∧ (∀ k : Fin 16, State.reset.x[k] = 0#32) ∧ (∀ k : Fin 64, State.reset.ks[k] = 0#8)
    ∧ State.reset.temps = ⟨0, 0, 0, 0, 0, 0⟩

/-- Every step answers a next state: no word and no access stops CORE (R98, R264, R290). -/
def Obligations.StepAlwaysAnswersNext : Prop :=
  ∀ s : State, ∃ t, step s = .next t

/-! ## The bus -/

/-- An access of another width, at an offset that is no multiple of 4 (R61), or unmapped (R66) answers `BusError` and
changes no state of CORE (R264). The event list and the response are the model's (logs 1, 2); that a `BusError` is a
next state is read from R264 (log 3). -/
def Obligations.BusErrorChangesNothing : Prop :=
  ∀ (s : State) (rest : List HostEvent) (ev : HostEvent) (width : Nat) (off : BitVec 16),
    (ev = .read width off ∨ ∃ v, ev = .write width off v) → s.pending = ev :: rest →
    (width ≠ 32 ∨ off.toNat % 4 ≠ 0 ∨ (0x002C ≤ off.toNat ∧ off.toNat ≤ 0x3FFF) ∨ 0xC000 ≤ off.toNat) →
    step s = .next { s with pending := rest, resp := .busError }

/-- Reads never change CORE's state (R63), and the registers read as R30 to R39 say (the event list and the response
are the model's, logs 1, 2). -/
def Obligations.RegisterReads : Prop :=
  ∀ (s : State) (rest : List HostEvent) (off : BitVec 16),
    (∀ width, s.pending = .read width off :: rest →
      ∃ r, step s = .next { s with pending := rest, resp := r })
    ∧ ∀ v, (off, v) ∈ [(0x000#16, 0x43540001#32), (0x004#16, s.cfg), (0x008#16, 0#32), (0x00C#16, s.status),
          (0x010#16, s.ilen), (0x014#16, s.olen), (0x018#16, s.arg0), (0x01C#16, s.arg1), (0x020#16, s.arg2),
          (0x024#16, BitVec.ofNat 32 ((s.sc[0]).life.code + 4 * (s.sc[1]).life.code)),
          (0x028#16, BitVec.ofNat 32 ((s.rsa[0]).life.code + 4 * (s.rsa[1]).life.code))] →
        s.pending = .read 32 off :: rest →
        step s = .next { s with pending := rest, resp := .data v }

/-- Writes to the registers store as R32, R35, R37 say, and writes to read-only registers and to the `OBUF` window are
accepted and discarded (R63; the event list and the response are the model's, logs 1, 2). -/
def Obligations.RegisterWrites : Prop :=
  ∀ (s t : State) (rest : List HostEvent) (off : BitVec 16) (v : Word),
    ((off, t) ∈ [(0x004#16, { s with cfg := BitVec.ofNat 32 (v.toNat % 8) }), (0x010#16, { s with ilen := v }),
        (0x018#16, { s with arg0 := v }), (0x01C#16, { s with arg1 := v }), (0x020#16, { s with arg2 := v }),
        (0x000#16, s), (0x00C#16, s), (0x014#16, s), (0x024#16, s), (0x028#16, s)]
      ∨ (0x8000 ≤ off.toNat ∧ off.toNat ≤ 0xBFFF ∧ off.toNat % 4 = 0 ∧ t = s)) →
    s.pending = .write 32 off v :: rest →
    step s = .next { t with pending := rest, resp := .done }

/-- A write to the `IBUF` window stores four bytes, lowest lane at the lowest offset, and no other byte changes; a read
of the window returns 0 (R64); nothing else changes (R63) but the event list and the response, which are the model's
(logs 1, 2). -/
def Obligations.IbufWindow : Prop :=
  ∀ (s : State) (rest : List HostEvent) (k : Nat) (v : Word),
    4 * k < 16384 →
    (Memory.wf s.ibuf = true → s.pending = .write 32 (BitVec.ofNat 16 (0x4000 + 4 * k)) v :: rest →
      ∃ m, step s = .next { s with ibuf := m, pending := rest, resp := .done }
        ∧ (∀ j, j < 4 → Memory.read m (4 * k + j) = v.extractLsb' (8 * j) 8)
        ∧ ∀ a, (a < 4 * k ∨ 4 * k + 4 ≤ a) → Memory.read m a = Memory.read s.ibuf a)
    ∧ (s.pending = .read 32 (BitVec.ofNat 16 (0x4000 + 4 * k)) :: rest →
      step s = .next { s with pending := rest, resp := .data 0#32 })

/-- A read of the `OBUF` window returns the bytes below `OLEN` and 0 beyond; a write to it is discarded (R65); nothing
else changes (R63) but the event list and the response, which are the model's (logs 1, 2). -/
def Obligations.ObufWindow : Prop :=
  ∀ (s : State) (rest : List HostEvent) (k : Nat) (w : Word),
    4 * k < 16384 →
    (s.pending = .read 32 (BitVec.ofNat 16 (0x8000 + 4 * k)) :: rest →
      ∃ v, step s = .next { s with pending := rest, resp := .data v }
        ∧ ∀ j, j < 4 → v.extractLsb' (8 * j) 8
            = if 4 * k + j < s.olen.toNat then Memory.read s.obuf (4 * k + j) else 0#8)
    ∧ (s.pending = .write 32 (BitVec.ofNat 16 (0x8000 + 4 * k)) w :: rest →
      step s = .next { s with pending := rest, resp := .done })

/-- No read returns key material, stream state, `BIACC`, `IBUF` or the temporaries (00_scope.md R15, 60_exceptions.md
R258): what a read returns depends on the visible state alone. -/
def Obligations.ReadsHideSecrets : Prop :=
  ∀ (s t : State) (width : Nat) (off : BitVec 16), SameVisible s t → busRead s width off = busRead t width off

/-- The pseudo-instruction `LOAD` (30_encoding.md R106) makes its bytes the operand of the next command, from any
canonical `IBUF`. -/
def Obligations.LoadMakesOperand : Prop :=
  ∀ (s : State) (b : Bytes) (rest : List HostEvent),
    Memory.wf s.ibuf = true → b.length ≤ 16384 → s.pending = loadEvents b ++ rest →
    ∃ u : State, Sys2Proof.core.run (loadEvents b).length s = .next u
      ∧ u.pending = rest ∧ u.ilen.toNat = b.length ∧ Memory.readBytes u.ibuf 0 u.ilen.toNat = b

/-! ## Every command -/

/-- R255: a failing command, a word that spells none among them, changes `OLEN` and `STATUS` (and clears the
temporaries, R96) and nothing else. -/
def Obligations.FailureChangesOnlyOlenAndStatus : Prop :=
  ∀ (w : Word) (i : Instr) (s u : State), statusCode u.status ≠ 0 →
    (exec i s = .next u → ∃ f : Failure, FailsWith (opcodeOf i) f s u)
      ∧ (issueCommand w s = .next u → ∃ f : Failure, FailsWith (w.extractLsb' 0 8) f s u)

/-- A well-formed command ends with `OK` or with a failure its row of R251's second table lists; an ill-formed one ends
with `IllegalCommand`. -/
def Obligations.CommandsEndWithListedCodes : Prop :=
  ∀ (i : Instr) (s u : State), exec i s = .next u →
    (i.wellFormed = true → statusCode u.status = 0 ∨ ∃ f ∈ listedFailures i, statusCode u.status = f.code)
    ∧ (i.wellFormed = false → FailsWith (opcodeOf i) .illegalCommand s u)

/-- A command never changes `ILEN`, `ARG0`, `ARG1`, `ARG2`, `CFG` or `IBUF` (R21, R32, R49), nor the host's side of
the bus. -/
def Obligations.CommandsKeepOperands : Prop :=
  ∀ (i : Instr) (s u : State), exec i s = .next u →
    u.ilen = s.ilen ∧ u.arg0 = s.arg0 ∧ u.arg1 = s.arg1 ∧ u.arg2 = s.arg2 ∧ u.cfg = s.cfg ∧ u.ibuf = s.ibuf
      ∧ u.pending = s.pending ∧ u.resp = s.resp

/-- Every command leaves `STATUS` with `VALID`, its opcode, reserved bits 0 and a code of 0 to 8 (R34), and the
temporaries cleared (R96, R51, R52). -/
def Obligations.CommandsWriteStatus : Prop :=
  ∀ (i : Instr) (s u : State), exec i s = .next u →
    (∃ code, code ≤ 8 ∧ u.status.toNat = 2 ^ 31 + (opcodeOf i).toNat * 2 ^ 8 + code)
      ∧ statusValid u.status = true ∧ statusLastop u.status = opcodeOf i ∧ u.TempsZero

/-- A command changes no context but the one it names, and only `BI_B2I` changes `BIACC` (R20, R40, R45, R48). -/
def Obligations.CommandsTouchOnlyTheirContext : Prop :=
  ∀ (i : Instr) (s u : State), exec i s = .next u →
    (∀ j : Fin Config.numScCtx, ¬writesSc i j.val → u.sc[j] = s.sc[j])
      ∧ (∀ j : Fin Config.numRsaCtx, ¬writesRsa i j.val → u.rsa[j] = s.rsa[j])
      ∧ ((∀ le, i ≠ .biB2i le) → u.biacc = s.biacc)

/-- `IBUF` bytes at or beyond `ILEN` are never read by a command (R49): another `IBUF` that agrees below `ILEN` gives
the same end in every other field. -/
def Obligations.IbufBeyondIlenIsNotRead : Prop :=
  ∀ (i : Instr) (s : State) (m : Memory),
    (∀ a, a < s.ilen.toNat → Memory.read m a = Memory.read s.ibuf a) →
    ∃ u, exec i s = .next u ∧ exec i { s with ibuf := m } = .next { u with ibuf := m }

/-- A command writes `OBUF` below its result's length only and leaves the bytes beyond (R50); a result never exceeds
the buffer (R96). -/
def Obligations.ObufBeyondResultIsKept : Prop :=
  ∀ (i : Instr) (s u : State), Memory.wf s.obuf = true → exec i s = .next u →
    u.olen.toNat ≤ 16384 ∧ ∀ a, u.olen.toNat ≤ a → Memory.read u.obuf a = Memory.read s.obuf a

/-- The lifecycle transitions a command can make are those of R23's table. -/
def Obligations.LifecycleTransitions : Prop :=
  ∀ (i : Instr) (s u : State), exec i s = .next u →
    (∀ j : Fin Config.numScCtx,
      (u.sc[j]).life = (s.sc[j]).life
        ∨ (∃ ctx v r, i = .scInit ctx v r ∧ ctx.toNat = j.val ∧ (s.sc[j]).life ≠ .live ∧ (u.sc[j]).life = .live)
        ∨ (∃ ctx, i = .scDispose ctx ∧ ctx.toNat = j.val ∧ (s.sc[j]).life = .live ∧ (u.sc[j]).life = .disposed))
    ∧ ∀ j : Fin Config.numRsaCtx,
      (u.rsa[j]).life = (s.rsa[j]).life
        ∨ (∃ ctx k h, i = .rsaInit ctx k h ∧ ctx.toNat = j.val ∧ (s.rsa[j]).life ≠ .live ∧ (u.rsa[j]).life = .live)
        ∨ (∃ ctx, i = .rsaDispose ctx ∧ ctx.toNat = j.val ∧ (s.rsa[j]).life = .live ∧ (u.rsa[j]).life = .disposed)

/-! ## The stream-cipher unit -/

/-- R136: `SC_INIT`, its checks in order and the context it builds (R125 to R127). -/
def Obligations.ScInitRule : Prop :=
  ∀ (ctx : BitVec 4) (variant : Variant) (rounds : BitVec 16) (s : State),
    (2 ≤ ctx.toNat → FailsAs (.scInit ctx variant rounds) .illegalCommand s)
    ∧ ∀ c, s.sc[ctx.toNat]? = some c →
      (c.life = .live → FailsAs (.scInit ctx variant rounds) .illegalState s)
      ∧ (c.life ≠ .live → ¬LengthsAccepted variant s → FailsAs (.scInit ctx variant rounds) .invalidArgument s)
      ∧ (c.life ≠ .live → LengthsAccepted variant s →
          SucceedsAs (.scInit ctx variant rounds) s
            (putSc s ctx.toNat ⟨.live, variant, rounds, initWords variant s⟩) [])

/-- R137: `SC_PROCESS`, its checks in order; byte `j` of the result is byte `j` of the operand XORed with byte
`j mod 64` of the block whose counter stands `j div 64` blocks further; the counter ends `ceil(n / 64)` further. -/
def Obligations.ScProcessRule : Prop :=
  ∀ (ctx : BitVec 4) (s : State),
    (2 ≤ ctx.toNat → FailsAs (.scProcess ctx) .illegalCommand s)
    ∧ ∀ c, s.sc[ctx.toNat]? = some c →
      (c.life ≠ .live → FailsAs (.scProcess ctx) .illegalState s)
      ∧ (c.life = .live → 16384 < s.ilen.toNat → FailsAs (.scProcess ctx) .invalidArgument s)
      ∧ (c.life = .live → s.ilen.toNat ≤ 16384 → Memory.wf s.obuf = true →
          ∃ out : Bytes, out.length = s.ilen.toNat
            ∧ (∀ j, j < s.ilen.toNat →
                out.getD j 0#8 = Memory.read s.ibuf j
                  ^^^ (block c.variant ((advanceCounter c.variant)^[j / 64] c.state) c.rounds).getD (j % 64) 0#8)
            ∧ SucceedsAs (.scProcess ctx) s
                (putSc s ctx.toNat
                  { c with state := (advanceCounter c.variant)^[(s.ilen.toNat + 63) / 64] c.state }) out)

/-- R138: `SC_SEEK`, its checks and the counter words it writes. -/
def Obligations.ScSeekRule : Prop :=
  ∀ (ctx : BitVec 4) (s : State),
    (2 ≤ ctx.toNat → FailsAs (.scSeek ctx) .illegalCommand s)
    ∧ ∀ c, s.sc[ctx.toNat]? = some c →
      (c.life ≠ .live → FailsAs (.scSeek ctx) .illegalState s)
      ∧ (c.life = .live → c.variant = .salsa20 →
          SucceedsAs (.scSeek ctx) s
            (putSc s ctx.toNat { c with state := (c.state.set 8 s.arg0).set 9 s.arg1 }) [])
      ∧ (c.life = .live → c.variant = .chacha20 →
          SucceedsAs (.scSeek ctx) s
            (putSc s ctx.toNat { c with state := c.state.set 12 s.arg0 }) [])

/-- R139: `SC_QUERY`, its checks and its 16 bytes. -/
def Obligations.ScQueryRule : Prop :=
  ∀ (ctx : BitVec 4) (s : State),
    (2 ≤ ctx.toNat → FailsAs (.scQuery ctx) .illegalCommand s)
    ∧ ∀ c, s.sc[ctx.toNat]? = some c →
      (c.life ≠ .live → FailsAs (.scQuery ctx) .illegalState s)
      ∧ (c.life = .live → Memory.wf s.obuf = true → c.variant = .salsa20 →
          SucceedsAs (.scQuery ctx) s s
            (bytes32 0#32 ++ bytes32 (c.rounds.zeroExtend 32) ++ bytes32 c.state[8] ++ bytes32 c.state[9]))
      ∧ (c.life = .live → Memory.wf s.obuf = true → c.variant = .chacha20 →
          SucceedsAs (.scQuery ctx) s s
            (bytes32 1#32 ++ bytes32 (c.rounds.zeroExtend 32) ++ bytes32 c.state[12] ++ bytes32 0#32))

/-- R140: `SC_DISPOSE` zeroes a LIVE context and marks it DISPOSED in one step, and succeeds without a change on any
other slot. -/
def Obligations.ScDisposeRule : Prop :=
  ∀ (ctx : BitVec 4) (s : State),
    (2 ≤ ctx.toNat → FailsAs (.scDispose ctx) .illegalCommand s)
    ∧ ∀ c, s.sc[ctx.toNat]? = some c →
      (c.life = .live →
        SucceedsAs (.scDispose ctx) s
          (putSc s ctx.toNat ⟨.disposed, .salsa20, 0#16, Vector.replicate 16 0#32⟩) [])
      ∧ (c.life ≠ .live → SucceedsAs (.scDispose ctx) s s [])

/-- The Salsa20 and ChaCha20 quarter-rounds on four distinct indices (R128, R130): the words at `a`, `b`, `c`, `d`, each
from the values the earlier statements wrote, and the twelve others unchanged. -/
def Obligations.QuarterRoundRule : Prop :=
  ∀ (x : Words16) (a b c d : Fin 16), [a, b, c, d].Nodup →
    (∃ wa wb wc wd : Word,
      wb = x[b] ^^^ rot (x[a] + x[d]) 7 ∧ wc = x[c] ^^^ rot (wb + x[a]) 9
        ∧ wd = x[d] ^^^ rot (wc + wb) 13 ∧ wa = x[a] ^^^ rot (wd + wc) 18
        ∧ (salsaQuarter x a b c d)[a] = wa ∧ (salsaQuarter x a b c d)[b] = wb
        ∧ (salsaQuarter x a b c d)[c] = wc ∧ (salsaQuarter x a b c d)[d] = wd)
    ∧ (∃ a1 b1 c1 d1 a2 b2 c2 d2 : Word,
      a1 = x[a] + x[b] ∧ d1 = rot (x[d] ^^^ a1) 16 ∧ c1 = x[c] + d1 ∧ b1 = rot (x[b] ^^^ c1) 12
        ∧ a2 = a1 + b1 ∧ d2 = rot (d1 ^^^ a2) 8 ∧ c2 = c1 + d2 ∧ b2 = rot (b1 ^^^ c2) 7
        ∧ (chachaQuarter x a b c d)[a] = a2 ∧ (chachaQuarter x a b c d)[b] = b2
        ∧ (chachaQuarter x a b c d)[c] = c2 ∧ (chachaQuarter x a b c d)[d] = d2)
    ∧ ∀ k : Fin 16, k ∉ [a, b, c, d] →
        (salsaQuarter x a b c d)[k] = x[k] ∧ (chachaQuarter x a b c d)[k] = x[k]

/-- The block function (R132): a double round is the eight quarter-rounds of R129 or R131 in their order; byte `j` of
word `i` of the block, after `rounds div 2` of them; an odd round count is that count less one; 0 or 1 rounds double
every state word. What a quarter-round does is `QuarterRoundRule`'s. -/
def Obligations.BlockFunction : Prop :=
  ∀ (v : Variant) (st : Words16) (rounds : BitVec 16) (i : Fin 16) (j : Nat), j < 4 →
    doubleRound v st = eightQuarters v st
      ∧ (block v st rounds).getD (4 * i.val + j) 0#8
        = (((eightQuarters v)^[rounds.toNat / 2] st)[i] + st[i]).extractLsb' (8 * j) 8
      ∧ (rounds.toNat % 2 = 1 → block v st rounds = block v st (rounds - 1))
      ∧ (rounds.toNat ≤ 1 →
          (block v st rounds).getD (4 * i.val + j) 0#8 = (BitVec.ofNat 32 (2 * (st[i]).toNat)).extractLsb' (8 * j) 8)

/-- R133: the Salsa20 counter pair is a 64-bit counter that goes up by one a block, wrapping, and no other word
changes. -/
def Obligations.SalsaCounterCounts64Bits : Prop :=
  ∀ (n : Nat) (st : Words16),
    counter64 ((advanceCounter .salsa20)^[n] st) = (counter64 st + n) % 2 ^ 64
      ∧ ∀ i : Fin 16, i ≠ 8 → i ≠ 9 → ((advanceCounter .salsa20)^[n] st)[i] = st[i]

/-- R134: the ChaCha20 counter is one 32-bit word that wraps, and no other word changes, word 13 among them. -/
def Obligations.ChachaCounterCounts32Bits : Prop :=
  ∀ (n : Nat) (st : Words16),
    (((advanceCounter .chacha20)^[n] st)[12]).toNat = ((st[12]).toNat + n) % 2 ^ 32
      ∧ ∀ i : Fin 16, i ≠ 12 → ((advanceCounter .chacha20)^[n] st)[i] = st[i]

/-- The order of quarter-rounds on disjoint words does not matter (the remark of R129). -/
def Obligations.DisjointQuarterRoundsCommute : Prop :=
  ∀ (x : Words16) (a b c d a' b' c' d' : Fin 16), [a, b, c, d, a', b', c', d'].Nodup →
    salsaQuarter (salsaQuarter x a b c d) a' b' c' d' = salsaQuarter (salsaQuarter x a' b' c' d') a b c d
      ∧ chachaQuarter (chachaQuarter x a b c d) a' b' c' d'
          = chachaQuarter (chachaQuarter x a' b' c' d') a b c d

/-- R141: a transform, the result moved to `IBUF`, the counter restored by `SC_SEEK`, and a second transform give the
original data. -/
def Obligations.TransformIsAnInvolution : Prop :=
  ∀ (ctx : BitVec 4) (s t : State) (c : ScCtx) (m : Memory),
    s.sc[ctx.toNat]? = some c → c.life = .live → s.ilen.toNat ≤ 16384 → Memory.wf s.obuf = true →
    exec (.scProcess ctx) s = .next t →
    (∀ j, j < s.ilen.toNat → Memory.read m j = Memory.read t.obuf j) →
    ∃ t' u : State,
      exec (.scSeek ctx) { t with ibuf := m, arg0 := counterLo c, arg1 := counterHi c } = .next t'
      ∧ exec (.scProcess ctx) t' = .next u
      ∧ u.olen = s.ilen
      ∧ ∀ j, j < s.ilen.toNat → Memory.read u.obuf j = Memory.read s.ibuf j

/-- R142: a message cut at a multiple of 64 bytes and transformed in two commands gives the bytes, and leaves the
context, of one command. -/
def Obligations.SplittingAtBlockBoundaries : Prop :=
  ∀ (ctx : BitVec 4) (s u t1 : State) (c : ScCtx) (n1 n2 : Nat) (m : Memory),
    s.sc[ctx.toNat]? = some c → c.life = .live → Memory.wf s.obuf = true →
    n1 % 64 = 0 → n1 + n2 ≤ 16384 → s.ilen = BitVec.ofNat 32 (n1 + n2) →
    exec (.scProcess ctx) s = .next u →
    exec (.scProcess ctx) { s with ilen := BitVec.ofNat 32 n1 } = .next t1 →
    (∀ j, j < n2 → Memory.read m j = Memory.read s.ibuf (n1 + j)) →
    ∃ t2 : State, exec (.scProcess ctx) { t1 with ilen := BitVec.ofNat 32 n2, ibuf := m } = .next t2
      ∧ t2.sc = u.sc
      ∧ (∀ j, j < n1 → Memory.read t1.obuf j = Memory.read u.obuf j)
      ∧ ∀ j, j < n2 → Memory.read t2.obuf j = Memory.read u.obuf (n1 + j)

/-! ## The RSA unit -/

/-- The records of a descriptor are what the parser reads from it, and a parsed descriptor is exactly its records
(30_encoding.md R100, R101; 41_rsa_engine.md R165; the record list is the model's form of R165's arrays, log 19). -/
def Obligations.DescriptorParsesToItsRecords : Prop :=
  (∀ rs : List KeyRecord, rs ≠ [] → (∀ r ∈ rs, r.value.length < 65536) → parseTop (descriptor rs) = some rs)
    ∧ ∀ (buf : Bytes) (rs : List KeyRecord), parseTop buf = some rs → rs ≠ [] ∧ descriptor rs = buf

/-- R169: the checks of `RSA_INIT` in order, and what it fails with. -/
def Obligations.RsaInitFailures : Prop :=
  ∀ (ctx : BitVec 4) (keySizeBits : BitVec 16) (hashSel : BitVec 4) (s : State),
    (2 ≤ ctx.toNat → FailsAs (.rsaInit ctx keySizeBits hashSel) .illegalCommand s)
    ∧ ∀ c, s.rsa[ctx.toNat]? = some c →
      (c.life = .live → FailsAs (.rsaInit ctx keySizeBits hashSel) .illegalState s)
      ∧ (c.life ≠ .live →
          (keySizeBits.toNat < 384 ∨ 16384 < keySizeBits.toNat ∨ keySizeBits.toNat % 8 ≠ 0) →
          FailsAs (.rsaInit ctx keySizeBits hashSel) .invalidArgument s)
      ∧ (c.life ≠ .live → 384 ≤ keySizeBits.toNat → keySizeBits.toNat ≤ 16384 → keySizeBits.toNat % 8 = 0 →
          (16384 < s.ilen.toNat
            ∨ ¬∃ rs : List KeyRecord, rs ≠ [] ∧ (∀ r ∈ rs, r.value.length < 65536)
                ∧ Memory.readBytes s.ibuf 0 s.ilen.toNat = descriptor rs) →
          FailsAs (.rsaInit ctx keySizeBits hashSel) .malformedKeyMaterial s)

/-- R169 with R164, R166, R167, R168: the context `RSA_INIT` builds from a descriptor of records, each group by
itself. -/
def Obligations.RsaInitResult : Prop :=
  ∀ (ctx : BitVec 4) (keySizeBits : BitVec 16) (hashSel : BitVec 4) (s : State) (c : RsaCtx)
    (rs : List KeyRecord),
    s.rsa[ctx.toNat]? = some c → c.life ≠ .live →
    384 ≤ keySizeBits.toNat → keySizeBits.toNat ≤ 16384 → keySizeBits.toNat % 8 = 0 →
    s.ilen.toNat ≤ 16384 → rs ≠ [] → (∀ r ∈ rs, r.value.length < 65536) →
    Memory.readBytes s.ibuf 0 s.ilen.toNat = descriptor rs →
    ∃ k : RsaCtx,
      SucceedsAs (.rsaInit ctx keySizeBits hashSel) s (putRsa s ctx.toNat k) []
      ∧ k.life = .live ∧ k.keySizeBits = keySizeBits
      ∧ ((hashSel, k.hashId, k.hashLen) ∈ [(0#4, 0#3, 20#8), (1#4, 1#3, 32#8), (2#4, 2#3, 48#8), (3#4, 3#3, 64#8)]
          ∨ (4 ≤ hashSel.toNat ∧ k.hashId = 7#3 ∧ k.hashLen = 0#8))
      ∧ ((∃ vn ve, usable rs 1 vn ∧ usable rs 2 ve ∧ bytesToInteger vn (s.cfg.getLsbD 1) ≠ 0
            ∧ k.hasPublicInfo = true ∧ k.n = bytesToInteger vn (s.cfg.getLsbD 1)
            ∧ k.e = bytesToInteger ve (s.cfg.getLsbD 1))
          ∨ ((¬∃ vn ve, usable rs 1 vn ∧ usable rs 2 ve ∧ bytesToInteger vn (s.cfg.getLsbD 1) ≠ 0)
            ∧ k.hasPublicInfo = false ∧ k.n = 0 ∧ k.e = 0))
      ∧ ((∃ vd, usable rs 3 vd ∧ k.hasPrivateInfo = true ∧ k.d = bytesToInteger vd (s.cfg.getLsbD 1))
          ∨ ((¬∃ vd, usable rs 3 vd) ∧ k.hasPrivateInfo = false ∧ k.d = 0))
      ∧ ((∃ vp vq v6 v7 v8, usable rs 4 vp ∧ usable rs 5 vq ∧ usable rs 6 v6 ∧ usable rs 7 v7 ∧ usable rs 8 v8
            ∧ bytesToInteger vp (s.cfg.getLsbD 1) ≠ 0 ∧ bytesToInteger vq (s.cfg.getLsbD 1) ≠ 0
            ∧ k.hasCrtInfo = true ∧ k.p = bytesToInteger vp (s.cfg.getLsbD 1)
            ∧ k.q = bytesToInteger vq (s.cfg.getLsbD 1) ∧ k.dp = bytesToInteger v6 (s.cfg.getLsbD 1)
            ∧ k.dq = bytesToInteger v7 (s.cfg.getLsbD 1) ∧ k.inverseQ = bytesToInteger v8 (s.cfg.getLsbD 1))
          ∨ ((¬∃ vp vq v6 v7 v8, usable rs 4 vp ∧ usable rs 5 vq ∧ usable rs 6 v6 ∧ usable rs 7 v7 ∧ usable rs 8 v8
              ∧ bytesToInteger vp (s.cfg.getLsbD 1) ≠ 0 ∧ bytesToInteger vq (s.cfg.getLsbD 1) ≠ 0)
            ∧ k.hasCrtInfo = false ∧ k.p = 0 ∧ k.q = 0 ∧ k.dp = 0 ∧ k.dq = 0 ∧ k.inverseQ = 0))

/-- The six transforms' failures in their priority (R170, R171, R174; 60_exceptions.md R254). -/
def Obligations.RsaTransformFailures : Prop :=
  ∀ (ctx : BitVec 4) (usePrivate : Bool) (dir : Direction) (i : Instr) (s : State),
    (i ∈ directForms ctx usePrivate dir ∨ i = crtForm ctx dir) →
    (2 ≤ ctx.toNat → FailsAs i .illegalCommand s)
    ∧ ∀ c, s.rsa[ctx.toNat]? = some c →
      (c.life ≠ .live → FailsAs i .illegalState s)
      ∧ (c.life = .live → limitOf c dir < s.ilen.toNat → FailsAs i .payloadTooLarge s)
      ∧ (c.life = .live → s.ilen.toNat = 0 → FailsAs i .emptyPayload s)
      ∧ (c.life = .live → 1 ≤ s.ilen.toNat → s.ilen.toNat ≤ limitOf c dir →
          ((i ∈ directForms ctx usePrivate dir
              ∧ (c.hasPublicInfo = false ∨ (usePrivate = true ∧ c.hasPrivateInfo = false)))
            ∨ (i = crtForm ctx dir ∧ c.hasCrtInfo = false)) →
          FailsAs i .missingKeyMaterial s)

/-- R171 with R200: `RSA_ENC`, `RSA_DEC`, `RSA_PUBENC`, `RSA_PUBDEC` give the payload to the power of the exponent
modulo `N`, as exactly `modulusByteLength` bytes, and change nothing else. `N >= 1` is the invariant's (R167). -/
def Obligations.RsaDirectResult : Prop :=
  ∀ (ctx : BitVec 4) (usePrivate : Bool) (dir : Direction) (i : Instr) (s : State) (c : RsaCtx),
    i ∈ directForms ctx usePrivate dir → s.rsa[ctx.toNat]? = some c → c.life = .live →
    1 ≤ s.ilen.toNat → s.ilen.toNat ≤ limitOf c dir →
    c.hasPublicInfo = true → (usePrivate = true → c.hasPrivateInfo = true) → 1 ≤ c.n →
    Memory.wf s.obuf = true →
    SucceedsAs i s s (resultBytes c s (payloadOf s ^ (if usePrivate then c.d else c.e) % c.n))

/-- R174, R175 with R211: `RSA_PRIVENC` and `RSA_PRIVDEC` give the CRT recombination, which is below `P * Q`, and
consult the CRT group alone. `P >= 1`, `Q >= 1` is the invariant's (R167). -/
def Obligations.RsaCrtResult : Prop :=
  ∀ (ctx : BitVec 4) (dir : Direction) (s : State) (c : RsaCtx),
    s.rsa[ctx.toNat]? = some c → c.life = .live → 1 ≤ s.ilen.toNat → s.ilen.toNat ≤ limitOf c dir →
    c.hasCrtInfo = true → 1 ≤ c.p → 1 ≤ c.q → Memory.wf s.obuf = true →
    ∃ m h : Nat,
      (h : Int) = ((((payloadOf s ^ c.dp % c.p : Nat) : Int) - ((payloadOf s ^ c.dq % c.q : Nat) : Int))
          * (c.inverseQ : Int)) % (c.p : Int)
      ∧ m = payloadOf s ^ c.dq % c.q + c.q * h ∧ m < c.p * c.q
      ∧ SucceedsAs (crtForm ctx dir) s s (resultBytes c s m)

/-- R178: `RSA_QUERY`, its checks and its 16 bytes. -/
def Obligations.RsaQueryRule : Prop :=
  ∀ (ctx : BitVec 4) (s : State),
    (2 ≤ ctx.toNat → FailsAs (.rsaQuery ctx) .illegalCommand s)
    ∧ ∀ c, s.rsa[ctx.toNat]? = some c →
      (c.life ≠ .live → FailsAs (.rsaQuery ctx) .illegalState s)
      ∧ (c.life = .live → Memory.wf s.obuf = true →
          SucceedsAs (.rsaQuery ctx) s s
            (bytes32 (c.keySizeBits.zeroExtend 32)
              ++ bytes32 (BitVec.ofNat 32 (c.keySizeBits.toNat / 8))
              ++ bytes32 (BitVec.ofNat 32 ((c.keySizeBits.toNat - 384) / 8 + 37))
              ++ [BitVec.ofNat 8 (c.hasPublicInfo.toNat + 2 * c.hasPrivateInfo.toNat + 4 * c.hasCrtInfo.toNat),
                  c.hashId.zeroExtend 8, c.hashLen, 0#8]))

/-- R179: `RSA_DISPOSE` marks a LIVE slot DISPOSED and clears nothing else, and succeeds without a change on any other
slot. -/
def Obligations.RsaDisposeRule : Prop :=
  ∀ (ctx : BitVec 4) (s : State),
    (2 ≤ ctx.toNat → FailsAs (.rsaDispose ctx) .illegalCommand s)
    ∧ ∀ c, s.rsa[ctx.toNat]? = some c →
      (c.life = .live →
        SucceedsAs (.rsaDispose ctx) s
          (putRsa s ctx.toNat { c with life := .disposed }) [])
      ∧ (c.life ≠ .live → SucceedsAs (.rsaDispose ctx) s s [])

/-- The CRT path gives the bytes of the direct private path on a valid key, whatever the payload (R181). R181's own
premises let `D` be a positive multiple of `P - 1`, where the claim fails for a payload divisible by `P`; no exponent
that has an inverse modulo `P - 1` is one unless `P = 2`, and the two premises on `D` rule it out (log 17). -/
def Obligations.CrtPathEqualsDirectPath : Prop :=
  ∀ (ctx : BitVec 4) (dir : Direction) (i : Instr) (s : State) (c : RsaCtx),
    i ∈ directForms ctx true dir → s.rsa[ctx.toNat]? = some c →
    c.hasPublicInfo = true → c.hasPrivateInfo = true → c.hasCrtInfo = true →
    c.p.Prime → c.q.Prime → c.p ≠ c.q → c.n = c.p * c.q →
    c.dp = c.d % (c.p - 1) → c.dq = c.d % (c.q - 1) → c.inverseQ * c.q % c.p = 1 →
    (c.dp = 0 → c.d = 0) → (c.dq = 0 → c.d = 0) →
    ∃ u v : State, exec (crtForm ctx dir) s = .next u ∧ exec i s = .next v ∧ u = { v with status := u.status }
      ∧ statusCode u.status = statusCode v.status

/-- R182: encrypting with one exponent and decrypting the result with the other gives the plaintext integer back, for a
modulus of two distinct primes, exponents that are inverse, and a modulus that fits the declared key size. The primes
are any: the context need not hold them, so a key loaded without its CRT group is covered. -/
def Obligations.RsaRoundTrip : Prop :=
  ∀ (ctx : BitVec 4) (usePrivate : Bool) (s t : State) (c : RsaCtx) (m : Memory) (p q : Nat),
    s.rsa[ctx.toNat]? = some c → c.life = .live → c.hasPublicInfo = true → c.hasPrivateInfo = true →
    384 ≤ c.keySizeBits.toNat → c.keySizeBits.toNat % 8 = 0 →
    p.Prime → q.Prime → p ≠ q → c.n = p * q →
    c.e * c.d % (p - 1) = 1 % (p - 1) → c.e * c.d % (q - 1) = 1 % (q - 1) →
    c.n ≤ 256 ^ (c.keySizeBits.toNat / 8) →
    1 ≤ s.ilen.toNat → s.ilen.toNat ≤ (c.keySizeBits.toNat - 384) / 8 + 37 → payloadOf s < c.n →
    Memory.wf s.obuf = true → exec (.rsaEnc ctx usePrivate) s = .next t →
    (∀ j, j < t.olen.toNat → Memory.read m j = Memory.read t.obuf j) →
    ∃ u : State, exec (.rsaDec ctx (!usePrivate)) { t with ibuf := m, ilen := t.olen } = .next u
      ∧ statusCode u.status = 0 ∧ u.olen.toNat = c.keySizeBits.toNat / 8
      ∧ bytesToInteger (Memory.readBytes u.obuf 0 u.olen.toNat) (s.cfg.getLsbD 0) = payloadOf s

/-! ## Modular arithmetic -/

/-- R200: `ModExp`, computed by the datapath of R210, is the residue of `b^e` and obeys the recursion on `e`. -/
def Obligations.ModExpMeetsContract : Prop :=
  ∀ b e n : Nat, 1 ≤ n →
    modExp b e n < n ∧ modExp b e n = b ^ e % n
      ∧ modExp b 0 n = 1 % n ∧ modExp b (e + 1) n = (modExp b e n * b) % n

/-- The Montgomery datapath (R203 to R207): the limb count is the least that holds `n`, `n'` has the property that
defines it, `REDC` divides by `R` modulo `n`, and the exponentiation meets the contract. -/
def Obligations.MontgomeryDatapath : Prop :=
  ∀ n : Nat, n % 2 = 1 →
    1 ≤ limbCount n ∧ n < 2 ^ (32 * limbCount n) ∧ (∀ k, 1 ≤ k → n < 2 ^ (32 * k) → limbCount n ≤ k)
      ∧ montRadix n = 2 ^ (32 * limbCount n)
      ∧ montNPrime n < montRadix n ∧ (n * montNPrime n + 1) % montRadix n = 0
      ∧ (∀ t, t < montRadix n * n →
          redc n (montRadix n) (montNPrime n) t < n
            ∧ redc n (montRadix n) (montNPrime n) t * montRadix n % n = t % n)
      ∧ ∀ b e, montExp b e n = b ^ e % n

/-- The Barrett datapath (R208, R209): the reduction is the remainder on its whole input range, and the exponentiation
meets the contract for every modulus. -/
def Obligations.BarrettDatapath : Prop :=
  ∀ n : Nat, 1 ≤ n →
    (∀ x, x < 2 ^ (32 * (2 * limbCount n)) → barrettReduce n x = x % n)
      ∧ ∀ b e, barrettExp b e n = b ^ e % n

/-! ## The codec unit -/

/-- R234: `BI_B2I`. -/
def Obligations.BiB2iRule : Prop :=
  ∀ (le : Bool) (s : State),
    (16384 < s.ilen.toNat → FailsAs (.biB2i le) .invalidArgument s)
    ∧ (s.ilen.toNat ≤ 16384 →
        SucceedsAs (.biB2i le) s
          { s with biacc := bytesToInteger (Memory.readBytes s.ibuf 0 s.ilen.toNat) le } [])

/-- R235: `BI_I2B`. -/
def Obligations.BiI2bRule : Prop :=
  ∀ (length : BitVec 16) (le : Bool) (s : State),
    (16384 < length.toNat → FailsAs (.biI2b length le) .invalidArgument s)
    ∧ (length.toNat ≤ 16384 → Memory.wf s.obuf = true →
        SucceedsAs (.biI2b length le) s s (integerToBytes s.biacc length.toNat le))

/-- R236: `BI_XOR`, its checks in order; the sum of the lengths does not wrap. -/
def Obligations.BiXorRule : Prop :=
  ∀ s : State,
    ((16384 < s.ilen.toNat ∨ s.arg0.toNat + s.arg1.toNat ≠ s.ilen.toNat) → FailsAs .biXor .invalidArgument s)
    ∧ (s.ilen.toNat ≤ 16384 → s.arg0.toNat + s.arg1.toNat = s.ilen.toNat → s.arg0 ≠ s.arg1 →
        FailsAs .biXor .lengthMismatch s)
    ∧ (s.ilen.toNat ≤ 16384 → s.arg0.toNat + s.arg1.toNat = s.ilen.toNat → s.arg0 = s.arg1 →
        Memory.wf s.obuf = true →
        SucceedsAs .biXor s s
          ((List.range s.arg0.toNat).map fun i =>
            Memory.read s.ibuf i ^^^ Memory.read s.ibuf (s.arg0.toNat + i)))

/-- The codec's functions are positional base-256 notation in either byte order (R230, R231), and the limb form is
base-2^32 (R233). -/
def Obligations.CodecIsPositional : Prop :=
  (∀ (b : Bytes) (le : Bool),
      bytesToInteger b le
          = ∑ i ∈ Finset.range b.length, (b.getD (if le then i else b.length - 1 - i) 0#8).toNat * 256 ^ i
        ∧ bytesToInteger b le < 256 ^ b.length)
    ∧ (∀ (v n : Nat) (le : Bool) (i : Nat), i < n →
        (integerToBytes v n le).length = n
          ∧ ((integerToBytes v n le).getD (if le then i else n - 1 - i) 0#8).toNat = v / 256 ^ i % 256)
    ∧ ∀ v k : Nat, v < 2 ^ (32 * k) →
        (limbs v k).length = k
          ∧ v = ∑ i ∈ Finset.range k, ((limbs v k).getD i 0#32).toNat * 2 ^ (32 * i)

/-- The codec laws of R237, (a) to (f). -/
def Obligations.CodecLaws : Prop :=
  (∀ (v n : Nat) (f : Bool), bytesToInteger (integerToBytes v n f) f = v % 256 ^ n)
    ∧ (∀ (b : Bytes) (f : Bool), integerToBytes (bytesToInteger b f) b.length f = b)
    ∧ (∀ v n : Nat, integerToBytes v n false = (integerToBytes v n true).reverse)
    ∧ (∀ b : Bytes, bytesToInteger b false = bytesToInteger b.reverse true)
    ∧ (∀ (b : Bytes) (m : Nat), b.length ≤ m →
        integerToBytes (bytesToInteger b false) m false = List.replicate (m - b.length) 0#8 ++ b)
    ∧ ∀ x y z : Bytes, xorBytes x y = .ok z → xorBytes z y = .ok x

/-! ## The invariant -/

/-- The invariant holds at reset. -/
def Obligations.InvariantHoldsAtReset : Prop := State.reset.Inv

/-- Every step keeps the invariant: the buffers keep their canonical form and size, `CFG`'s reserved bits read 0,
`STATUS` is legal, a stream slot that is not LIVE is all zero, an RSA slot's integers fit and its unavailable groups
are 0, `BIACC` fits, the hidden registers are zero (10_state.md R32, R34, R40, R45, R48, R51, R52). -/
def Obligations.StepKeepsInvariant : Prop :=
  ∀ s t : State, s.Inv → step s = .next t → t.Inv
end

