-- ==== Sys2Proof/Laws/Encoding.lean ====
section
/-! SUPPORT. The four fields of an assembled command word (30_encoding.md R91). -/

namespace Sys2Proof

@[simp] theorem opField_assemble (op : BitVec 8) (ctx fl : BitVec 4) (imm : BitVec 16) :
    opField (assemble op ctx fl imm) = op := by
  ext i hi
  simp only [opField, assemble, BitVec.getElem_extractLsb', BitVec.getLsbD_append, Nat.zero_add]
  simp [hi]

@[simp] theorem ctxField_assemble (op : BitVec 8) (ctx fl : BitVec 4) (imm : BitVec 16) :
    ctxField (assemble op ctx fl imm) = ctx := by
  ext i hi
  simp only [ctxField, assemble, BitVec.getElem_extractLsb', BitVec.getLsbD_append]
  have h1 : ¬(8 + i < 8) := by omega
  have h2 : 8 + i - 8 = i := by omega
  simp [h2, hi]

@[simp] theorem flField_assemble (op : BitVec 8) (ctx fl : BitVec 4) (imm : BitVec 16) :
    flField (assemble op ctx fl imm) = fl := by
  ext i hi
  simp only [flField, assemble, BitVec.getElem_extractLsb', BitVec.getLsbD_append]
  have h1 : ¬(12 + i < 8) := by omega
  have h2 : ¬(12 + i - 8 < 4) := by omega
  have h3 : 12 + i - 8 - 4 = i := by omega
  simp only [h1, h2, h3]
  simp [hi]

@[simp] theorem immField_assemble (op : BitVec 8) (ctx fl : BitVec 4) (imm : BitVec 16) :
    immField (assemble op ctx fl imm) = imm := by
  ext i hi
  simp only [immField, assemble, BitVec.getElem_extractLsb', BitVec.getLsbD_append]
  have h1 : ¬(16 + i < 8) := by omega
  have h2 : ¬(16 + i - 8 < 4) := by omega
  have h3 : ¬(16 + i - 8 - 4 < 4) := by omega
  have h4 : 16 + i - 8 - 4 - 4 = i := by omega
  simp only [h1, h2, h3, h4]
  simp [hi]

/-- A word is the assembly of its own fields. -/
theorem assemble_fields (w : Word) : assemble (opField w) (ctxField w) (flField w) (immField w) = w := by
  apply BitVec.eq_of_getLsbD_eq
  intro i hi
  simp only [assemble, BitVec.getLsbD_append, opField, ctxField, flField, immField, BitVec.getLsbD_extractLsb']
  interval_cases i <;> simp

/-- What the check of a stream command can accept. -/
theorem decodeSc_ok {w : Word} {fieldsOk : Bool} {i j : Instr} :
    decodeSc w fieldsOk i = .ok j ↔ fieldsOk = true ∧ scCtxOk (ctxField w) = true ∧ i = j := by
  cases fieldsOk <;> cases h : scCtxOk (ctxField w) <;> simp [decodeSc, h]

/-- What the check of an RSA command can accept. -/
theorem decodeRsa_ok {w : Word} {fieldsOk : Bool} {i j : Instr} :
    decodeRsa w fieldsOk i = .ok j ↔ fieldsOk = true ∧ rsaCtxOk (ctxField w) = true ∧ i = j := by
  cases fieldsOk <;> cases h : rsaCtxOk (ctxField w) <;> simp [decodeRsa, h]

/-- What the check of a codec command can accept. -/
theorem decodeBi_ok {w : Word} {fieldsOk : Bool} {i j : Instr} :
    decodeBi w fieldsOk i = .ok j ↔ fieldsOk = true ∧ ctxZero w = true ∧ i = j := by
  cases fieldsOk <;> cases h : ctxZero w <;> simp [decodeBi, h]

/-- With `fl[3:1]` zero, the flag bit is all of `fl`. -/
theorem flOfBit_flagBit {w : Word} (h : flagsHighZero w = true) : flOfBit (flagBit w) = flField w := by
  simp only [flagsHighZero, decide_eq_true_eq] at h
  simp only [flagBit]
  generalize flField w = f at *
  revert f
  decide

@[simp] theorem bitOfVariant_variantOfBit (b : Bool) : bitOfVariant (variantOfBit b) = b := by cases b <;> rfl

end Sys2Proof
end

