-- ==== Sys2Proof/Laws/Memory.lean ====
section
/-! SUPPORT. The buffers: a read after a write, the canonical form and the size bound are kept by every write. -/

namespace Sys2Proof.Machine

@[simp] theorem Memory.read_nil (a : Nat) : Memory.read [] a = 0#8 := rfl

@[simp] theorem Memory.readBytes_length (m : Memory) (a n : Nat) : (Memory.readBytes m a n).length = n := by
  induction n generalizing a with
  | zero => rfl
  | succ n ih => simp [Memory.readBytes, ih]

theorem Memory.readBytes_getD (m : Memory) (a n i : Nat) (h : i < n) :
    (Memory.readBytes m a n).getD i 0#8 = Memory.read m (a + i) := by
  induction n generalizing a i with
  | zero => omega
  | succ n ih =>
    cases i with
    | zero => rfl
    | succ i =>
      have := ih (a + 1) i (by omega)
      simp only [Memory.readBytes, List.getD_cons_succ, this]
      congr 1
      omega

/-- Two buffers that agree on `[a, a + n)` give the same bytes there. -/
theorem Memory.readBytes_congr (m m' : Memory) (a n : Nat)
    (h : ∀ i, a ≤ i → i < a + n → Memory.read m i = Memory.read m' i) :
    Memory.readBytes m a n = Memory.readBytes m' a n := by
  induction n generalizing a with
  | zero => rfl
  | succ n ih =>
    simp only [Memory.readBytes]
    rw [h a (by omega) (by omega), ih (a + 1) fun i h1 h2 => h i (by omega) (by omega)]

theorem Memory.wfFrom_mono {lo lo' : Nat} {m : Memory} (h : lo' ≤ lo) (hw : Memory.wfFrom lo m = true) :
    Memory.wfFrom lo' m = true := by
  cases m with
  | nil => rfl
  | cons c m =>
    simp only [Memory.wfFrom, Bool.and_eq_true, decide_eq_true_eq] at hw ⊢
    exact ⟨⟨by omega, hw.1.2⟩, hw.2⟩

/-- Below its first offset a canonical buffer reads as 0. -/
theorem Memory.read_below {lo : Nat} {m : Memory} (hw : Memory.wfFrom lo m = true) {a : Nat} (ha : a < lo) :
    Memory.read m a = 0#8 := by
  induction m generalizing lo with
  | nil => rfl
  | cons c m ih =>
    simp only [Memory.wfFrom, Bool.and_eq_true, decide_eq_true_eq] at hw
    have hk : c.1 ≠ a := by omega
    simp only [Memory.read, hk, if_false]
    exact ih hw.2 (by omega)

/-- A write keeps the canonical form. -/
theorem Memory.wfFrom_write {lo : Nat} {m : Memory} (hw : Memory.wfFrom lo m = true) {a : Nat} (ha : lo ≤ a)
    (v : Byte) : Memory.wfFrom lo (Memory.write m a v) = true := by
  induction m generalizing lo with
  | nil =>
    by_cases hv : v = 0#8
    · simp [Memory.write, hv, Memory.wfFrom]
    · simp [Memory.write, hv, Memory.wfFrom, ha]
  | cons c m ih =>
    obtain ⟨k, b⟩ := c
    have hw' := hw
    simp only [Memory.wfFrom, Bool.and_eq_true, decide_eq_true_eq] at hw'
    obtain ⟨⟨h1, h2⟩, h3⟩ := hw'
    simp only [Memory.write]
    split
    · next hlt =>
      split
      · exact hw
      · next hv =>
        simp only [Memory.wfFrom, Bool.and_eq_true, decide_eq_true_eq]
        exact ⟨⟨ha, hv⟩, ⟨by omega, h2⟩, h3⟩
    · next hge =>
      split
      · split
        · exact Memory.wfFrom_mono (by omega) h3
        · next hv =>
          simp only [Memory.wfFrom, Bool.and_eq_true, decide_eq_true_eq]
          exact ⟨⟨h1, hv⟩, h3⟩
      · next hne =>
        simp only [Memory.wfFrom, Bool.and_eq_true, decide_eq_true_eq]
        exact ⟨⟨h1, h2⟩, ih h3 (by omega)⟩

theorem Memory.wf_write {m : Memory} (hw : Memory.wf m = true) (a : Nat) (v : Byte) :
    Memory.wf (Memory.write m a v) = true :=
  Memory.wfFrom_write hw (Nat.zero_le a) v

/-- A read after a write, on a canonical buffer. -/
theorem Memory.read_writeFrom {lo : Nat} {m : Memory} (hw : Memory.wfFrom lo m = true) (a : Nat) (v : Byte)
    (i : Nat) : Memory.read (Memory.write m a v) i = if i = a then v else Memory.read m i := by
  induction m generalizing lo with
  | nil =>
    by_cases hv : v = 0#8 <;> by_cases hi : i = a
    · simp [Memory.write, hv]
    · simp [Memory.write, hv]
    · simp [Memory.write, hv, Memory.read, hi]
    · simp [Memory.write, hv, Memory.read, hi, Ne.symm hi]
  | cons c m ih =>
    obtain ⟨k, b⟩ := c
    have hw' := hw
    simp only [Memory.wfFrom, Bool.and_eq_true, decide_eq_true_eq] at hw'
    obtain ⟨⟨h1, h2⟩, h3⟩ := hw'
    simp only [Memory.write]
    split
    · next hlt =>
      have hz : Memory.read ((k, b) :: m) a = 0#8 := by
        have hk : k ≠ a := by omega
        simp only [Memory.read, hk, if_false]
        exact Memory.read_below h3 (by omega)
      split
      · next hv =>
        split
        · next hi => rw [hi, hz, hv]
        · rfl
      · by_cases hi : i = a
        · simp [Memory.read, hi]
        · simp [Memory.read, hi, Ne.symm hi]
    · next hge =>
      split
      · next hk =>
        subst hk
        split
        · next hv =>
          by_cases hi : i = a
          · subst hi
            simpa [hv] using Memory.read_below h3 (Nat.lt_succ_self i)
          · simp [Memory.read, hi, Ne.symm hi]
        · by_cases hi : i = a
          · simp [Memory.read, hi]
          · simp [Memory.read, hi, Ne.symm hi]
      · next hne =>
        have := ih h3
        by_cases hi : i = k
        · subst hi
          simp [Memory.read, Ne.symm hne]
        · simp [Memory.read, Ne.symm hi, this]

theorem Memory.read_write {m : Memory} (hw : Memory.wf m = true) (a : Nat) (v : Byte) (i : Nat) :
    Memory.read (Memory.write m a v) i = if i = a then v else Memory.read m i :=
  Memory.read_writeFrom hw a v i

theorem Memory.wf_writeBytes {m : Memory} (hw : Memory.wf m = true) (a : Nat) (bs : Bytes) :
    Memory.wf (Memory.writeBytes m a bs) = true := by
  induction bs generalizing a with
  | nil => exact hw
  | cons b bs ih => exact Memory.wf_write (ih (a + 1)) a b

/-- A read after a write of a byte sequence, on a canonical buffer. -/
theorem Memory.read_writeBytes {m : Memory} (hw : Memory.wf m = true) (a : Nat) (bs : Bytes) (i : Nat) :
    Memory.read (Memory.writeBytes m a bs) i
      = if a ≤ i ∧ i < a + bs.length then bs.getD (i - a) 0#8 else Memory.read m i := by
  induction bs generalizing a with
  | nil =>
    have : ¬(a ≤ i ∧ i < a + ([] : Bytes).length) := by simp only [List.length_nil]; omega
    rw [if_neg this]
    rfl
  | cons b bs ih =>
    rw [Memory.writeBytes, Memory.read_write (Memory.wf_writeBytes hw (a + 1) bs), ih (a + 1)]
    simp only [List.length_cons]
    by_cases h1 : i = a
    · subst h1
      simp
    · by_cases h2 : a + 1 ≤ i ∧ i < a + 1 + bs.length
      · have h3 : a ≤ i ∧ i < a + (bs.length + 1) := by omega
        have h4 : i - a = (i - (a + 1)) + 1 := by omega
        rw [if_neg h1, if_pos h2, if_pos h3, h4, List.getD_cons_succ]
      · have h3 : ¬(a ≤ i ∧ i < a + (bs.length + 1)) := by omega
        rw [if_neg h1, if_neg h2, if_neg h3]

theorem Memory.below_write {m : Memory} {size : Nat} (hb : Memory.below m size = true) {a : Nat} (ha : a < size)
    (v : Byte) : Memory.below (Memory.write m a v) size = true := by
  induction m with
  | nil => by_cases hv : v = 0#8 <;> simp [Memory.write, hv, Memory.below, ha]
  | cons c m ih =>
    obtain ⟨k, b⟩ := c
    simp only [Memory.below, List.all_cons, Bool.and_eq_true, decide_eq_true_eq] at hb ih
    have := ih hb.2
    simp only [Memory.write]
    split
    · split
      · simp [Memory.below, List.all_cons, hb.1, hb.2]
      · simp [Memory.below, List.all_cons, hb.1, hb.2, ha]
    · split
      · split
        · exact hb.2
        · simp [Memory.below, List.all_cons, hb.1, hb.2]
      · simp only [Memory.below, List.all_cons, Bool.and_eq_true, decide_eq_true_eq]
        exact ⟨hb.1, this⟩

theorem Memory.below_writeBytes {m : Memory} {size : Nat} (hb : Memory.below m size = true) (a : Nat) (bs : Bytes)
    (h : a + bs.length ≤ size) : Memory.below (Memory.writeBytes m a bs) size = true := by
  induction bs generalizing a with
  | nil => exact hb
  | cons b bs ih =>
    simp only [List.length_cons] at h
    exact Memory.below_write (ih (a + 1) (by omega)) (by omega) b

end Sys2Proof.Machine
end

