-- ==== Sys2Proof/Laws/State.lean ====
section
/-! SUPPORT. The small lemmas of the state record's updates: what each named update leaves in each field. -/

namespace Sys2Proof.Machine

@[simp] theorem State.setSc_ilen (s : State) (c : Nat) (v : ScCtx) : (s.setSc c v).ilen = s.ilen := rfl
@[simp] theorem State.setSc_olen (s : State) (c : Nat) (v : ScCtx) : (s.setSc c v).olen = s.olen := rfl
@[simp] theorem State.setSc_arg0 (s : State) (c : Nat) (v : ScCtx) : (s.setSc c v).arg0 = s.arg0 := rfl
@[simp] theorem State.setSc_arg1 (s : State) (c : Nat) (v : ScCtx) : (s.setSc c v).arg1 = s.arg1 := rfl
@[simp] theorem State.setSc_arg2 (s : State) (c : Nat) (v : ScCtx) : (s.setSc c v).arg2 = s.arg2 := rfl
@[simp] theorem State.setSc_cfg (s : State) (c : Nat) (v : ScCtx) : (s.setSc c v).cfg = s.cfg := rfl
@[simp] theorem State.setSc_status (s : State) (c : Nat) (v : ScCtx) : (s.setSc c v).status = s.status := rfl
@[simp] theorem State.setSc_sc (s : State) (c : Nat) (v : ScCtx) : (s.setSc c v).sc = s.sc.setIfInBounds c v := rfl
@[simp] theorem State.setSc_rsa (s : State) (c : Nat) (v : ScCtx) : (s.setSc c v).rsa = s.rsa := rfl
@[simp] theorem State.setSc_biacc (s : State) (c : Nat) (v : ScCtx) : (s.setSc c v).biacc = s.biacc := rfl
@[simp] theorem State.setSc_ibuf (s : State) (c : Nat) (v : ScCtx) : (s.setSc c v).ibuf = s.ibuf := rfl
@[simp] theorem State.setSc_obuf (s : State) (c : Nat) (v : ScCtx) : (s.setSc c v).obuf = s.obuf := rfl
@[simp] theorem State.setSc_x (s : State) (c : Nat) (v : ScCtx) : (s.setSc c v).x = s.x := rfl
@[simp] theorem State.setSc_ks (s : State) (c : Nat) (v : ScCtx) : (s.setSc c v).ks = s.ks := rfl
@[simp] theorem State.setSc_temps (s : State) (c : Nat) (v : ScCtx) : (s.setSc c v).temps = s.temps := rfl
@[simp] theorem State.setSc_pending (s : State) (c : Nat) (v : ScCtx) : (s.setSc c v).pending = s.pending := rfl
@[simp] theorem State.setSc_resp (s : State) (c : Nat) (v : ScCtx) : (s.setSc c v).resp = s.resp := rfl

@[simp] theorem State.setRsa_ilen (s : State) (c : Nat) (v : RsaCtx) : (s.setRsa c v).ilen = s.ilen := rfl
@[simp] theorem State.setRsa_olen (s : State) (c : Nat) (v : RsaCtx) : (s.setRsa c v).olen = s.olen := rfl
@[simp] theorem State.setRsa_arg0 (s : State) (c : Nat) (v : RsaCtx) : (s.setRsa c v).arg0 = s.arg0 := rfl
@[simp] theorem State.setRsa_arg1 (s : State) (c : Nat) (v : RsaCtx) : (s.setRsa c v).arg1 = s.arg1 := rfl
@[simp] theorem State.setRsa_arg2 (s : State) (c : Nat) (v : RsaCtx) : (s.setRsa c v).arg2 = s.arg2 := rfl
@[simp] theorem State.setRsa_cfg (s : State) (c : Nat) (v : RsaCtx) : (s.setRsa c v).cfg = s.cfg := rfl
@[simp] theorem State.setRsa_status (s : State) (c : Nat) (v : RsaCtx) : (s.setRsa c v).status = s.status := rfl
@[simp] theorem State.setRsa_sc (s : State) (c : Nat) (v : RsaCtx) : (s.setRsa c v).sc = s.sc := rfl
@[simp] theorem State.setRsa_rsa (s : State) (c : Nat) (v : RsaCtx) : (s.setRsa c v).rsa = s.rsa.setIfInBounds c v := rfl
@[simp] theorem State.setRsa_biacc (s : State) (c : Nat) (v : RsaCtx) : (s.setRsa c v).biacc = s.biacc := rfl
@[simp] theorem State.setRsa_ibuf (s : State) (c : Nat) (v : RsaCtx) : (s.setRsa c v).ibuf = s.ibuf := rfl
@[simp] theorem State.setRsa_obuf (s : State) (c : Nat) (v : RsaCtx) : (s.setRsa c v).obuf = s.obuf := rfl
@[simp] theorem State.setRsa_x (s : State) (c : Nat) (v : RsaCtx) : (s.setRsa c v).x = s.x := rfl
@[simp] theorem State.setRsa_ks (s : State) (c : Nat) (v : RsaCtx) : (s.setRsa c v).ks = s.ks := rfl
@[simp] theorem State.setRsa_temps (s : State) (c : Nat) (v : RsaCtx) : (s.setRsa c v).temps = s.temps := rfl
@[simp] theorem State.setRsa_pending (s : State) (c : Nat) (v : RsaCtx) : (s.setRsa c v).pending = s.pending := rfl
@[simp] theorem State.setRsa_resp (s : State) (c : Nat) (v : RsaCtx) : (s.setRsa c v).resp = s.resp := rfl

@[simp] theorem clearTemporaries_ilen (s : State) : (clearTemporaries s).ilen = s.ilen := rfl
@[simp] theorem clearTemporaries_olen (s : State) : (clearTemporaries s).olen = s.olen := rfl
@[simp] theorem clearTemporaries_arg0 (s : State) : (clearTemporaries s).arg0 = s.arg0 := rfl
@[simp] theorem clearTemporaries_arg1 (s : State) : (clearTemporaries s).arg1 = s.arg1 := rfl
@[simp] theorem clearTemporaries_arg2 (s : State) : (clearTemporaries s).arg2 = s.arg2 := rfl
@[simp] theorem clearTemporaries_cfg (s : State) : (clearTemporaries s).cfg = s.cfg := rfl
@[simp] theorem clearTemporaries_status (s : State) : (clearTemporaries s).status = s.status := rfl
@[simp] theorem clearTemporaries_sc (s : State) : (clearTemporaries s).sc = s.sc := rfl
@[simp] theorem clearTemporaries_rsa (s : State) : (clearTemporaries s).rsa = s.rsa := rfl
@[simp] theorem clearTemporaries_biacc (s : State) : (clearTemporaries s).biacc = s.biacc := rfl
@[simp] theorem clearTemporaries_ibuf (s : State) : (clearTemporaries s).ibuf = s.ibuf := rfl
@[simp] theorem clearTemporaries_obuf (s : State) : (clearTemporaries s).obuf = s.obuf := rfl
@[simp] theorem clearTemporaries_x (s : State) : (clearTemporaries s).x = Vector.replicate 16 0#32 := rfl
@[simp] theorem clearTemporaries_ks (s : State) : (clearTemporaries s).ks = Vector.replicate 64 0#8 := rfl
@[simp] theorem clearTemporaries_temps (s : State) : (clearTemporaries s).temps = Temps.zero := rfl
@[simp] theorem clearTemporaries_pending (s : State) : (clearTemporaries s).pending = s.pending := rfl
@[simp] theorem clearTemporaries_resp (s : State) : (clearTemporaries s).resp = s.resp := rfl

@[simp] theorem takeFailure_ilen (op : BitVec 8) (f : Failure) (s : State) : (takeFailure op f s).ilen = s.ilen := rfl
@[simp] theorem takeFailure_olen (op : BitVec 8) (f : Failure) (s : State) : (takeFailure op f s).olen = 0#32 := rfl
@[simp] theorem takeFailure_arg0 (op : BitVec 8) (f : Failure) (s : State) : (takeFailure op f s).arg0 = s.arg0 := rfl
@[simp] theorem takeFailure_arg1 (op : BitVec 8) (f : Failure) (s : State) : (takeFailure op f s).arg1 = s.arg1 := rfl
@[simp] theorem takeFailure_arg2 (op : BitVec 8) (f : Failure) (s : State) : (takeFailure op f s).arg2 = s.arg2 := rfl
@[simp] theorem takeFailure_cfg (op : BitVec 8) (f : Failure) (s : State) : (takeFailure op f s).cfg = s.cfg := rfl
@[simp] theorem takeFailure_status (op : BitVec 8) (f : Failure) (s : State) : (takeFailure op f s).status = statusWord op f.code := rfl
@[simp] theorem takeFailure_sc (op : BitVec 8) (f : Failure) (s : State) : (takeFailure op f s).sc = s.sc := rfl
@[simp] theorem takeFailure_rsa (op : BitVec 8) (f : Failure) (s : State) : (takeFailure op f s).rsa = s.rsa := rfl
@[simp] theorem takeFailure_biacc (op : BitVec 8) (f : Failure) (s : State) : (takeFailure op f s).biacc = s.biacc := rfl
@[simp] theorem takeFailure_ibuf (op : BitVec 8) (f : Failure) (s : State) : (takeFailure op f s).ibuf = s.ibuf := rfl
@[simp] theorem takeFailure_obuf (op : BitVec 8) (f : Failure) (s : State) : (takeFailure op f s).obuf = s.obuf := rfl
@[simp] theorem takeFailure_x (op : BitVec 8) (f : Failure) (s : State) : (takeFailure op f s).x = Vector.replicate 16 0#32 := rfl
@[simp] theorem takeFailure_ks (op : BitVec 8) (f : Failure) (s : State) : (takeFailure op f s).ks = Vector.replicate 64 0#8 := rfl
@[simp] theorem takeFailure_temps (op : BitVec 8) (f : Failure) (s : State) : (takeFailure op f s).temps = Temps.zero := rfl
@[simp] theorem takeFailure_pending (op : BitVec 8) (f : Failure) (s : State) : (takeFailure op f s).pending = s.pending := rfl
@[simp] theorem takeFailure_resp (op : BitVec 8) (f : Failure) (s : State) : (takeFailure op f s).resp = s.resp := rfl

@[simp] theorem finish_ilen (op : BitVec 8) (s : State) (out : Bytes) : (finish op s out).ilen = s.ilen := rfl
@[simp] theorem finish_olen (op : BitVec 8) (s : State) (out : Bytes) : (finish op s out).olen = BitVec.ofNat 32 out.length := rfl
@[simp] theorem finish_arg0 (op : BitVec 8) (s : State) (out : Bytes) : (finish op s out).arg0 = s.arg0 := rfl
@[simp] theorem finish_arg1 (op : BitVec 8) (s : State) (out : Bytes) : (finish op s out).arg1 = s.arg1 := rfl
@[simp] theorem finish_arg2 (op : BitVec 8) (s : State) (out : Bytes) : (finish op s out).arg2 = s.arg2 := rfl
@[simp] theorem finish_cfg (op : BitVec 8) (s : State) (out : Bytes) : (finish op s out).cfg = s.cfg := rfl
@[simp] theorem finish_status (op : BitVec 8) (s : State) (out : Bytes) : (finish op s out).status = statusWord op 0 := rfl
@[simp] theorem finish_sc (op : BitVec 8) (s : State) (out : Bytes) : (finish op s out).sc = s.sc := rfl
@[simp] theorem finish_rsa (op : BitVec 8) (s : State) (out : Bytes) : (finish op s out).rsa = s.rsa := rfl
@[simp] theorem finish_biacc (op : BitVec 8) (s : State) (out : Bytes) : (finish op s out).biacc = s.biacc := rfl
@[simp] theorem finish_ibuf (op : BitVec 8) (s : State) (out : Bytes) : (finish op s out).ibuf = s.ibuf := rfl
@[simp] theorem finish_obuf (op : BitVec 8) (s : State) (out : Bytes) : (finish op s out).obuf = Memory.writeBytes s.obuf 0 out := rfl
@[simp] theorem finish_x (op : BitVec 8) (s : State) (out : Bytes) : (finish op s out).x = Vector.replicate 16 0#32 := rfl
@[simp] theorem finish_ks (op : BitVec 8) (s : State) (out : Bytes) : (finish op s out).ks = Vector.replicate 64 0#8 := rfl
@[simp] theorem finish_temps (op : BitVec 8) (s : State) (out : Bytes) : (finish op s out).temps = Temps.zero := rfl
@[simp] theorem finish_pending (op : BitVec 8) (s : State) (out : Bytes) : (finish op s out).pending = s.pending := rfl
@[simp] theorem finish_resp (op : BitVec 8) (s : State) (out : Bytes) : (finish op s out).resp = s.resp := rfl

end Sys2Proof.Machine
end

