-- ==== Sys2Proof/Laws/Ops.lean ====
section
/-! SUPPORT. What the shared operations can do, said once: the two ends of a command, the lifecycle checks, the
payload check, and the length of every result. -/

namespace Sys2Proof.Machine

/-- A failing command's end is the one R255 describes. -/
theorem failsWith_takeFailure (op : BitVec 8) (f : Failure) (s : State) : FailsWith op f s (takeFailure op f s) := rfl

/-- A succeeding command's end is the one R96 describes, on a canonical `OBUF`. -/
theorem succeedsWith_finish (op : BitVec 8) {t : State} (hw : Memory.wf t.obuf = true) (out : Bytes) :
    SucceedsWith op t out (finish op t out) := by
  refine ⟨rfl, fun a => ?_⟩
  simp only [finish_obuf]
  rw [Memory.read_writeBytes hw 0 out a]
  simp

/-- A result-less command leaves `OBUF` alone; no premise is needed. -/
theorem succeedsWith_finish_nil (op : BitVec 8) (t : State) : SucceedsWith op t [] (finish op t []) :=
  ⟨rfl, fun a => by simp [Memory.writeBytes]⟩

@[simp] theorem complete_fail (op : BitVec 8) (s : State) (f : Failure) :
    complete op s (.fail f) = takeFailure op f s := rfl

@[simp] theorem complete_succeed (op : BitVec 8) (s t : State) (out : Bytes) :
    complete op s (.succeed t out) = finish op t out := rfl

/-- Every failure's code is 1 to 8 (60_exceptions.md R250). -/
theorem Failure.code_range (f : Failure) : 1 ≤ f.code ∧ f.code ≤ 8 := by cases f <;> decide

/-- `withLiveSc` on a slot that exists and is LIVE is the command's body. -/
theorem withLiveSc_live {ctx : BitVec 4} {s : State} {c : ScCtx} (h : s.sc[ctx.toNat]? = some c)
    (hl : c.life = .live) (body : ScCtx → RunResult) : withLiveSc ctx s body = body c := by
  simp [withLiveSc, h, hl]

/-- What `withLiveSc` can do: refuse the slot, refuse its state, or run the body. -/
theorem withLiveSc_cases (ctx : BitVec 4) (s : State) (body : ScCtx → RunResult) :
    (s.sc[ctx.toNat]? = none ∧ withLiveSc ctx s body = .fail .illegalCommand)
      ∨ (∃ c, s.sc[ctx.toNat]? = some c ∧ c.life ≠ .live ∧ withLiveSc ctx s body = .fail .illegalState)
      ∨ (∃ c, s.sc[ctx.toNat]? = some c ∧ c.life = .live ∧ withLiveSc ctx s body = body c) := by
  cases h : s.sc[ctx.toNat]? with
  | none => exact .inl ⟨rfl, by simp [withLiveSc, h]⟩
  | some c =>
    by_cases hl : c.life = .live
    · exact .inr (.inr ⟨c, rfl, hl, by simp [withLiveSc, h, hl]⟩)
    · exact .inr (.inl ⟨c, rfl, hl, by simp [withLiveSc, h, hl]⟩)

/-- `withLiveRsa` on a slot that exists and is LIVE is the command's body. -/
theorem withLiveRsa_live {ctx : BitVec 4} {s : State} {c : RsaCtx} (h : s.rsa[ctx.toNat]? = some c)
    (hl : c.life = .live) (body : RsaCtx → RunResult) : withLiveRsa ctx s body = body c := by
  simp [withLiveRsa, h, hl]

/-- What `withLiveRsa` can do: refuse the slot, refuse its state, or run the body. -/
theorem withLiveRsa_cases (ctx : BitVec 4) (s : State) (body : RsaCtx → RunResult) :
    (s.rsa[ctx.toNat]? = none ∧ withLiveRsa ctx s body = .fail .illegalCommand)
      ∨ (∃ c, s.rsa[ctx.toNat]? = some c ∧ c.life ≠ .live ∧ withLiveRsa ctx s body = .fail .illegalState)
      ∨ (∃ c, s.rsa[ctx.toNat]? = some c ∧ c.life = .live ∧ withLiveRsa ctx s body = body c) := by
  cases h : s.rsa[ctx.toNat]? with
  | none => exact .inl ⟨rfl, by simp [withLiveRsa, h]⟩
  | some c =>
    by_cases hl : c.life = .live
    · exact .inr (.inr ⟨c, rfl, hl, by simp [withLiveRsa, h, hl]⟩)
    · exact .inr (.inl ⟨c, rfl, hl, by simp [withLiveRsa, h, hl]⟩)

/-- What `withPayload` can do (41_rsa_engine.md R170). -/
theorem withPayload_cases (c : RsaCtx) (dir : Direction) (s : State) (body : RunResult) :
    (payloadLimit c dir < s.ilen.toNat ∧ withPayload c dir s body = .fail .payloadTooLarge)
      ∨ (s.ilen.toNat ≤ payloadLimit c dir ∧ s.ilen.toNat = 0 ∧ withPayload c dir s body = .fail .emptyPayload)
      ∨ (s.ilen.toNat ≤ payloadLimit c dir ∧ s.ilen.toNat ≠ 0 ∧ withPayload c dir s body = body) := by
  by_cases h1 : payloadLimit c dir < s.ilen.toNat
  · exact .inl ⟨h1, by simp [withPayload, h1]⟩
  · by_cases h2 : s.ilen.toNat = 0
    · exact .inr (.inl ⟨by omega, h2, by simp [withPayload, h2]⟩)
    · exact .inr (.inr ⟨by omega, h2, by simp [withPayload, h1, h2]⟩)

@[simp] theorem bytes32_length (w : Word) : (bytes32 w).length = 4 := rfl

@[simp] theorem natToLe_length (v n : Nat) : (natToLe v n).length = n := by
  induction n generalizing v with
  | zero => rfl
  | succ n ih => simp [natToLe, ih]

@[simp] theorem integerToBytes_length (v n : Nat) (le : Bool) : (integerToBytes v n le).length = n := by
  cases le <;> simp [integerToBytes]

@[simp] theorem block_length (v : Variant) (st : Words16) (rounds : BitVec 16) : (block v st rounds).length = 64 := by
  simp [block, List.length_flatMap]

@[simp] theorem operand_length (s : State) : s.operand.length = s.ilen.toNat := by simp [State.operand]

@[simp] theorem scQueryBytes_length (c : ScCtx) : (scQueryBytes c).length = 16 := rfl

@[simp] theorem rsaQueryBytes_length (c : RsaCtx) : (rsaQueryBytes c).length = 16 := rfl

/-- The chunk loop gives as many bytes as it was given, when the chunks cover the data. -/
theorem processChunks_length (v : Variant) (rounds : BitVec 16) (k : Nat) (st : Words16) (data : Bytes)
    (h : data.length ≤ 64 * k) : (processChunks v rounds k st data).2.length = data.length := by
  induction k generalizing st data with
  | zero =>
    have : data.length = 0 := by omega
    simp [processChunks, this]
  | succ k ih =>
    simp only [processChunks, List.length_append, List.length_zipWith, List.length_take, block_length]
    rw [ih _ (data.drop 64) (by simp only [List.length_drop]; omega)]
    simp only [List.length_drop]
    omega

/-- The chunk loop's state is the counter advanced once a chunk. -/
theorem processChunks_state (v : Variant) (rounds : BitVec 16) (k : Nat) (st : Words16) (data : Bytes) :
    (processChunks v rounds k st data).1 = (advanceCounter v)^[k] st := by
  induction k generalizing st data with
  | zero => rfl
  | succ k ih => simp only [processChunks, ih, Function.iterate_succ_apply]

end Sys2Proof.Machine
end

