-- ==== Sys2Proof/Laws/Exec.lean ====
section
/-! SUPPORT. What a command can do, said once over all commands: it ends by `complete`, and a success changes at most
one stream context, one RSA context or the accumulator before the result is written. -/

namespace Sys2Proof.Machine

/-- What a succeeding command's own effect can be, before the end of R96. -/
def OwnEffect (s t : State) : Prop :=
  t = s ∨ (∃ j c, t = s.setSc j c) ∨ (∃ j c, t = s.setRsa j c) ∨ ∃ v, t = { s with biacc := v }

/-- A run that fails, or succeeds with one of the effects above and a result that fits `OBUF`. -/
def RunOk (s : State) : RunResult → Prop
  | .fail _ => True
  | .succeed t out => OwnEffect s t ∧ out.length ≤ Config.obufBytes

theorem runOk_withLiveSc (ctx : BitVec 4) (s : State) (body : ScCtx → RunResult) (h : ∀ c, RunOk s (body c)) :
    RunOk s (withLiveSc ctx s body) := by
  rcases withLiveSc_cases ctx s body with ⟨-, e⟩ | ⟨c, -, -, e⟩ | ⟨c, -, -, e⟩ <;> rw [e]
  · trivial
  · trivial
  · exact h c

theorem runOk_withLiveRsa (ctx : BitVec 4) (s : State) (body : RsaCtx → RunResult) (h : ∀ c, RunOk s (body c)) :
    RunOk s (withLiveRsa ctx s body) := by
  rcases withLiveRsa_cases ctx s body with ⟨-, e⟩ | ⟨c, -, -, e⟩ | ⟨c, -, -, e⟩ <;> rw [e]
  · trivial
  · trivial
  · exact h c

theorem runOk_withPayload (c : RsaCtx) (dir : Direction) (s : State) (body : RunResult) (h : RunOk s body) :
    RunOk s (withPayload c dir s body) := by
  rcases withPayload_cases c dir s body with ⟨-, e⟩ | ⟨-, -, e⟩ | ⟨-, -, e⟩ <;> rw [e]
  · trivial
  · trivial
  · exact h

/-- A transform's result fits `OBUF`: `modulusByteLength` is at most 8191 for any 16-bit key size. -/
theorem runOk_transformResult (c : RsaCtx) (s : State) (m : Nat) : RunOk s (transformResult c s m) := by
  refine ⟨.inl rfl, ?_⟩
  have := c.keySizeBits.isLt
  simp only [integerToBytes_length, modulusByteLength, Config.obufBytes]
  omega

theorem runOk_rsaDirect (ctx : BitVec 4) (usePrivate : Bool) (dir : Direction) (s : State) :
    RunOk s (rsaDirect ctx usePrivate dir s) := by
  refine runOk_withLiveRsa _ _ _ fun c => runOk_withPayload _ _ _ _ ?_
  split <;> split <;> first | exact runOk_transformResult _ _ _ | trivial

theorem runOk_rsaCrt (ctx : BitVec 4) (dir : Direction) (s : State) : RunOk s (rsaCrt ctx dir s) := by
  refine runOk_withLiveRsa _ _ _ fun c => runOk_withPayload _ _ _ _ ?_
  split
  · exact runOk_transformResult _ _ _
  · trivial

/-- The chunks of `chunkCount` cover the operand. -/
theorem chunkCount_covers (n : Nat) : n ≤ 64 * chunkCount n := by
  unfold chunkCount
  omega

theorem runOk_runScProcess (ctx : BitVec 4) (s : State) : RunOk s (runScProcess ctx s) := by
  refine runOk_withLiveSc _ _ _ fun c => ?_
  split
  · next h =>
    refine ⟨.inr (.inl ⟨_, _, rfl⟩), ?_⟩
    rw [processChunks_length _ _ _ _ _ (by rw [operand_length]; exact chunkCount_covers _), operand_length]
    simpa [State.ilenFits] using h
  · trivial

theorem runOk_runBiXor (s : State) : RunOk s (runBiXor s) := by
  unfold runBiXor
  split
  · next h =>
    simp only [State.ilenFits, State.splitFits, Bool.and_eq_true, decide_eq_true_eq, Config.ibufBytes] at h
    unfold xorBytes
    split
    · next heq =>
      split at heq
      · next hl =>
        cases heq
        refine ⟨.inl rfl, ?_⟩
        simp only [List.length_zipWith, State.firstPart, State.secondPart, Memory.readBytes_length, Config.obufBytes]
        omega
      · cases heq
    · trivial
  · trivial

/-- Every command ends by `complete` on a run that is one of the above: no command stops the machine. -/
theorem exec_cases (i : Instr) (s : State) :
    ∃ r, exec i s = .next (complete (opcodeOf i) s r) ∧ RunOk s r := by
  cases i with
  | scInit ctx variant rounds =>
    refine ⟨_, rfl, ?_⟩
    unfold runScInit
    split
    · trivial
    · split
      · trivial
      · split
        · exact ⟨.inr (.inl ⟨_, _, rfl⟩), Nat.zero_le _⟩
        · trivial
  | scProcess ctx => exact ⟨_, rfl, runOk_runScProcess ctx s⟩
  | scSeek ctx =>
    exact ⟨_, rfl, runOk_withLiveSc _ _ _ fun c => ⟨.inr (.inl ⟨_, _, rfl⟩), Nat.zero_le _⟩⟩
  | scDispose ctx =>
    refine ⟨_, rfl, ?_⟩
    unfold runScDispose
    split
    · trivial
    · split
      · exact ⟨.inr (.inl ⟨_, _, rfl⟩), Nat.zero_le _⟩
      · exact ⟨.inl rfl, Nat.zero_le _⟩
  | scQuery ctx =>
    exact ⟨_, rfl, runOk_withLiveSc _ _ _ fun c => ⟨.inl rfl, by rw [scQueryBytes_length]; decide⟩⟩
  | rsaInit ctx keySizeBits hashSel =>
    refine ⟨_, rfl, ?_⟩
    unfold runRsaInit
    split
    · trivial
    · split
      · trivial
      · split
        · split
          · split
            · trivial
            · exact ⟨.inr (.inr (.inl ⟨_, _, rfl⟩)), Nat.zero_le _⟩
          · trivial
        · trivial
  | rsaEnc ctx p => exact ⟨_, rfl, runOk_rsaDirect _ _ _ _⟩
  | rsaDec ctx p => exact ⟨_, rfl, runOk_rsaDirect _ _ _ _⟩
  | rsaPrivenc ctx => exact ⟨_, rfl, runOk_rsaCrt _ _ _⟩
  | rsaPrivdec ctx => exact ⟨_, rfl, runOk_rsaCrt _ _ _⟩
  | rsaPubenc ctx => exact ⟨_, rfl, runOk_rsaDirect _ _ _ _⟩
  | rsaPubdec ctx => exact ⟨_, rfl, runOk_rsaDirect _ _ _ _⟩
  | rsaQuery ctx =>
    exact ⟨_, rfl, runOk_withLiveRsa _ _ _ fun c => ⟨.inl rfl, by rw [rsaQueryBytes_length]; decide⟩⟩
  | rsaDispose ctx =>
    refine ⟨_, rfl, ?_⟩
    unfold runRsaDispose
    split
    · trivial
    · split
      · exact ⟨.inr (.inr (.inl ⟨_, _, rfl⟩)), Nat.zero_le _⟩
      · exact ⟨.inl rfl, Nat.zero_le _⟩
  | biB2i le =>
    refine ⟨_, rfl, ?_⟩
    split
    · exact ⟨.inr (.inr (.inr ⟨_, rfl⟩)), Nat.zero_le _⟩
    · trivial
  | biI2b length le =>
    refine ⟨_, rfl, ?_⟩
    split
    · next h => exact ⟨.inl rfl, by rw [integerToBytes_length]; exact h⟩
    · trivial
  | biXor => exact ⟨_, rfl, runOk_runBiXor s⟩

end Sys2Proof.Machine
end

