-- ==== Sys2Proof/Laws/PerInstr.lean ====
section
/-! SUPPORT. The per-instruction family EncodeOpcode: an instruction's command word carries its opcode in `op`
(30_encoding.md R91, R93), whatever its operands. -/

namespace Sys2Proof.Laws.EncodeOpcode

/-- The `op` field of the instruction's word is the instruction's opcode. -/
def Statement (i : Instr) : Prop := opField (encode i) = opcodeOf i

theorem scInit (ctx : BitVec 4) (variant : Variant) (rounds : BitVec 16) :
    Statement (.scInit ctx variant rounds) := opField_assemble ..
theorem scProcess (ctx : BitVec 4) : Statement (.scProcess ctx) := opField_assemble ..
theorem scSeek (ctx : BitVec 4) : Statement (.scSeek ctx) := opField_assemble ..
theorem scDispose (ctx : BitVec 4) : Statement (.scDispose ctx) := opField_assemble ..
theorem scQuery (ctx : BitVec 4) : Statement (.scQuery ctx) := opField_assemble ..
theorem rsaInit (ctx : BitVec 4) (keySizeBits : BitVec 16) (hashSel : BitVec 4) :
    Statement (.rsaInit ctx keySizeBits hashSel) := opField_assemble ..
theorem rsaEnc (ctx : BitVec 4) (usePrivate : Bool) : Statement (.rsaEnc ctx usePrivate) := opField_assemble ..
theorem rsaDec (ctx : BitVec 4) (usePrivate : Bool) : Statement (.rsaDec ctx usePrivate) := opField_assemble ..
theorem rsaPrivenc (ctx : BitVec 4) : Statement (.rsaPrivenc ctx) := opField_assemble ..
theorem rsaPrivdec (ctx : BitVec 4) : Statement (.rsaPrivdec ctx) := opField_assemble ..
theorem rsaPubenc (ctx : BitVec 4) : Statement (.rsaPubenc ctx) := opField_assemble ..
theorem rsaPubdec (ctx : BitVec 4) : Statement (.rsaPubdec ctx) := opField_assemble ..
theorem rsaQuery (ctx : BitVec 4) : Statement (.rsaQuery ctx) := opField_assemble ..
theorem rsaDispose (ctx : BitVec 4) : Statement (.rsaDispose ctx) := opField_assemble ..
theorem biB2i (littleEndian : Bool) : Statement (.biB2i littleEndian) := opField_assemble ..
theorem biI2b (length : BitVec 16) (littleEndian : Bool) :
    Statement (.biI2b length littleEndian) := opField_assemble ..
theorem biXor : Statement .biXor := opField_assemble ..

end Sys2Proof.Laws.EncodeOpcode
end

