-- ==== Sys2Proof/Laws/Step.lean ====
section
/-! SUPPORT. The step by kind of host event, and the bus window as plain arithmetic. -/

namespace Sys2Proof.Machine

/-- Which accesses are legal (20_memory.md R61, R66, R67), as arithmetic. -/
theorem legalAccess_iff (width : Nat) (off : BitVec 16) :
    legalAccess width off = true
      ↔ width = 32 ∧ off.toNat % 4 = 0 ∧ (off.toNat < 0x2C ∨ (0x4000 ≤ off.toNat ∧ off.toNat < 0xC000)) := by
  simp only [legalAccess, mapped, Config.regsEnd, Config.ibufBase, Config.ibufBytes, Config.obufBase,
    Config.obufBytes, Bool.and_eq_true, Bool.or_eq_true, decide_eq_true_eq]
  omega

theorem step_nil {s : State} (h : s.pending = []) : step s = .next s := by simp [step, h]

theorem step_cons {s : State} {ev : HostEvent} {rest : List HostEvent} (h : s.pending = ev :: rest) :
    step s = hostEvent ev { s with pending := rest } := by simp [step, h]

theorem step_read {s : State} {width : Nat} {off : BitVec 16} {rest : List HostEvent}
    (h : s.pending = .read width off :: rest) :
    step s = .next { s with pending := rest, resp := busRead { s with pending := rest } width off } := by
  rw [step_cons h]
  rfl

theorem step_write {s : State} {width : Nat} {off : BitVec 16} {v : Word} {rest : List HostEvent}
    (h : s.pending = .write width off v :: rest) : step s = busWrite width off v { s with pending := rest } := by
  rw [step_cons h]
  rfl

theorem step_reset {s : State} {rest : List HostEvent} (h : s.pending = .reset :: rest) :
    step s = .next { State.reset with pending := rest } := by
  rw [step_cons h]
  rfl

/-- A legal write to `CMD` issues its word. -/
theorem busWrite_cmd (w : Word) (s : State) :
    busWrite 32 0x008#16 w s = issueCommand w { s with resp := .done } := by
  have h : legalAccess 32 0x008#16 = true := by decide
  simp [busWrite, h, Config.offCmd]

/-- A legal write elsewhere stores. -/
theorem busWrite_store {width : Nat} {off : BitVec 16} (hl : legalAccess width off = true) (hc : off.toNat ≠ 8)
    (v : Word) (s : State) : busWrite width off v s = .next { writeWord s off.toNat v with resp := .done } := by
  simp [busWrite, hl, Config.offCmd, hc]

/-- An access CORE does not implement changes nothing. -/
theorem busWrite_error {width : Nat} {off : BitVec 16} (hl : legalAccess width off = false) (v : Word) (s : State) :
    busWrite width off v s = .next { s with resp := .busError } := by
  simp [busWrite, hl]

/-- The two slots of a context vector as a list. -/
theorem toList_two {α : Type} (v : Vector α 2) : v.toList = [v[0], v[1]] := by
  apply List.ext_getElem
  · simp
  · intro i h1 h2
    simp only [List.length_cons, List.length_nil] at h2
    match i, h2 with
    | 0, _ => simp
    | 1, _ => simp

end Sys2Proof.Machine
end

