-- ==== Sys2Proof/Laws/StreamCipher.lean ====
section
/-! SUPPORT. The working vector's words after an update, and the rotation as arithmetic (00_scope.md R10). -/

namespace Sys2Proof.Machine

/-- Word `k` of a vector after word `i` is written. -/
theorem words_getElem_set (x : Words16) (i k : Fin 16) (v : Word) : (x.set i v)[k] = if i = k then v else x[k] := by
  change (x.set i.val v)[k.val] = _
  rw [Vector.getElem_set]
  simp [Fin.ext_iff]

/-- `rotl32` as R10 computes it. -/
theorem rotl32_toNat (v : Word) {n : Nat} (h : n < 32) :
    (rotl32 v n).toNat = v.toNat * 2 ^ n % 2 ^ 32 + v.toNat / 2 ^ (32 - n) := by
  have hv := v.isLt
  simp only [rotl32, BitVec.toNat_rotateLeft, Nat.mod_eq_of_lt h, Nat.shiftLeft_eq, Nat.shiftRight_eq_div_pow]
  have hsplit : 2 ^ n * 2 ^ (32 - n) = 2 ^ 32 := by rw [← pow_add]; congr 1; omega
  have hlow : v.toNat / 2 ^ (32 - n) < 2 ^ n := by
    rw [Nat.div_lt_iff_lt_mul (by positivity), hsplit]
    exact hv
  rw [show v.toNat * 2 ^ n % 2 ^ 32 = 2 ^ n * (v.toNat % 2 ^ (32 - n)) by
    rw [← hsplit, mul_comm, Nat.mul_mod_mul_left], ← Nat.two_pow_add_eq_or_of_lt hlow]

end Sys2Proof.Machine
end

