-- ==== Sys2Proof/Tests/Slice0.lean ====
section
/-! SUPPORT. Tests. Expected values are the spec's: 95_test_vectors.md (named V-...), the examples of the rules
themselves, or the encodings of 30_encoding.md written out by hand. The last part shows, for each statement with
hypotheses, concrete states and operands that meet them. -/

open Sys2Proof Sys2Proof.Machine Sys2Proof.Claims

namespace Sys2Proof.Tests

/-! ## Helpers -/

/-- The state a command leaves. -/
def after (i : Instr) (s : State) : State :=
  match exec i s with
  | .next u => u
  | .fault _ => s
  | .refused _ => s

/-- The state a step leaves. -/
def afterStep (s : State) : State :=
  match step s with
  | .next u => u
  | .fault _ => s
  | .refused _ => s

/-- `OBUF[0..OLEN)`. -/
def result (s : State) : Bytes := Memory.readBytes s.obuf 0 s.olen.toNat

/-- A state with the given operand loaded. -/
def load (s : State) (b : Bytes) : State :=
  { s with ibuf := Memory.writeBytes [] 0 b, ilen := BitVec.ofNat 32 b.length }

/-- Bytes from numbers. -/
def bytes (l : List Nat) : Bytes := l.map (BitVec.ofNat 8)

/-- The key `00 01 .. 1f` of the vectors. -/
def key32 : Bytes := (List.range 32).map (BitVec.ofNat 8)

/-- The reset state with `SC_INIT`'s operands loaded. -/
def initState (key nonce : Bytes) (counter : Word) : State :=
  { load State.reset (key ++ nonce) with
    arg0 := BitVec.ofNat 32 key.length, arg1 := BitVec.ofNat 32 nonce.length, arg2 := counter }

/-- A LIVE ChaCha20 context: key `00 .. 1f`, nonce `00 00 00 09 00 00 00 4a 00 00 00 00`, counter 1 (V-SC-2). -/
def liveChacha : ScCtx :=
  ⟨.live, .chacha20, 20#16,
    #v[0x61707865#32, 0x3320646e#32, 0x79622d32#32, 0x6b206574#32, 0x03020100#32, 0x07060504#32, 0x0b0a0908#32,
       0x0f0e0d0c#32, 0x13121110#32, 0x17161514#32, 0x1b1a1918#32, 0x1f1e1d1c#32, 0x00000001#32, 0x09000000#32,
       0x4a000000#32, 0x00000000#32]⟩

/-- A LIVE Salsa20 context: key `00 .. 1f`, nonce `0^8`, counter `FFFFFFFF` (V-SC-6). -/
def liveSalsa : ScCtx :=
  ⟨.live, .salsa20, 20#16,
    #v[0x61707865#32, 0x03020100#32, 0x07060504#32, 0x0b0a0908#32, 0x0f0e0d0c#32, 0x3320646e#32, 0x00000000#32,
       0x00000000#32, 0xffffffff#32, 0x00000000#32, 0x79622d32#32, 0x13121110#32, 0x17161514#32, 0x1b1a1918#32,
       0x1f1e1d1c#32, 0x6b206574#32]⟩

/-- Stream slot 0 ChaCha20, slot 1 Salsa20, both LIVE. -/
def streamState : State := { State.reset with sc := #v[liveChacha, liveSalsa] }

/-- The toy key (95_test_vectors.md B6) at the smallest key size. -/
def toyKey : RsaCtx := ⟨.live, 3233, 17, 2753, 61, 53, 53, 49, 38, true, true, true, 384#16, 0#3, 20#8⟩

/-- RSA slot 0 LIVE with the toy key, slot 1 DISPOSED with it. -/
def rsaState : State := { State.reset with rsa := #v[toyKey, { toyKey with life := .disposed }] }

/-- The toy descriptor's records but `N` (B6). -/
def toyTail : List KeyRecord :=
  [⟨2#8, bytes [0x11]⟩, ⟨3#8, bytes [0x0a, 0xc1]⟩, ⟨4#8, bytes [0x3d]⟩, ⟨5#8, bytes [0x35]⟩, ⟨6#8, bytes [0x35]⟩,
   ⟨7#8, bytes [0x31]⟩, ⟨8#8, bytes [0x26]⟩]

/-- The toy descriptor's records. -/
def toyRecords : List KeyRecord := ⟨1#8, bytes [0x0c, 0xa1]⟩ :: toyTail

/-- 48 bytes, zero but for the last ones. -/
def last48 (l : List Nat) : Bytes := List.replicate (48 - l.length) 0#8 ++ bytes l

/-- The reset state with the given host events pending. -/
def withEvents (l : List HostEvent) : State := { State.reset with pending := l }

/-! ## Well-formedness: each check refuses an ill-formed term -/

theorem test_scCtx_out_of_range : (Instr.scInit 2 .salsa20 20).wellFormed = false ∧ scCtxOk 2 = false := by decide
theorem test_scCtx_last_in_range : (Instr.scQuery 1).wellFormed = true := by decide
theorem test_rsaCtx_out_of_range : (Instr.rsaEnc 2 true).wellFormed = false ∧ rsaCtxOk 15 = false := by decide
theorem test_rsaCtx_last_in_range : (Instr.rsaDispose 1).wellFormed = true := by decide

/-! ## Decoding: words written out from R91 and R93 (op 7:0, ctx 11:8, fl 15:12, imm 31:16) -/

theorem test_decode_scInit : decode 0b0000000000010100_0001_0000_00010000#32 = .ok (.scInit 0 .chacha20 20) := by decide
theorem test_decode_scProcess : decode 0b0000000000000000_0000_0001_00010001#32 = .ok (.scProcess 1) := by decide
theorem test_decode_scSeek : decode 0b0000000000000000_0000_0000_00010010#32 = .ok (.scSeek 0) := by decide
theorem test_decode_scDispose : decode 0b0000000000000000_0000_0001_00010011#32 = .ok (.scDispose 1) := by decide
theorem test_decode_scQuery : decode 0b0000000000000000_0000_0000_00010100#32 = .ok (.scQuery 0) := by decide
theorem test_decode_rsaInit : decode 0b0000100000000000_0001_0001_00100000#32 = .ok (.rsaInit 1 2048 1) := by decide
theorem test_decode_rsaEnc : decode 0b0000000000000000_0001_0000_00100001#32 = .ok (.rsaEnc 0 true) := by decide
theorem test_decode_rsaDec : decode 0b0000000000000000_0000_0001_00100010#32 = .ok (.rsaDec 1 false) := by decide
theorem test_decode_rsaPrivenc : decode 0b0000000000000000_0000_0000_00100011#32 = .ok (.rsaPrivenc 0) := by decide
theorem test_decode_rsaPrivdec : decode 0b0000000000000000_0000_0001_00100100#32 = .ok (.rsaPrivdec 1) := by decide
theorem test_decode_rsaPubenc : decode 0b0000000000000000_0000_0000_00100101#32 = .ok (.rsaPubenc 0) := by decide
theorem test_decode_rsaPubdec : decode 0b0000000000000000_0000_0001_00100110#32 = .ok (.rsaPubdec 1) := by decide
theorem test_decode_rsaQuery : decode 0b0000000000000000_0000_0000_00100111#32 = .ok (.rsaQuery 0) := by decide
theorem test_decode_rsaDispose : decode 0b0000000000000000_0000_0001_00101000#32 = .ok (.rsaDispose 1) := by decide
theorem test_decode_biB2i : decode 0b0000000000000000_0001_0000_00110000#32 = .ok (.biB2i true) := by decide
theorem test_decode_biI2b : decode 0b0000000000000100_0001_0000_00110001#32 = .ok (.biI2b 4 true) := by decide
theorem test_decode_biXor : decode 0b0000000000000000_0000_0000_00110010#32 = .ok .biXor := by decide

/-- The illegal words of B1: reserved flag, slot out of range, reserved immediate, `ctx` on a codec command. -/
theorem test_decode_refusals :
    decode 0x00142010#32 = .error (.reservedField 0x10) ∧ decode 0x00000211#32 = .error (.ctxOutOfRange 0x11 2)
      ∧ decode 0x00010021#32 = .error (.reservedField 0x21) ∧ decode 0x00000221#32 = .error (.ctxOutOfRange 0x21 2)
      ∧ decode 0x00000132#32 = .error (.reservedField 0x32) ∧ decode 0xFFFFFFFF#32 = .error (.unknownOp 0xFF) := by
  decide

/-- Each row of the opcode map matches no other row's words. -/
theorem test_opcodeMap_disjoint :
    opcodeMap.Pairwise fun r r' => r.pattern &&& r.mask &&& r'.mask ≠ r'.pattern &&& r.mask &&& r'.mask := by decide

theorem test_decodeTableWord :
    decodeTableWord 32 0x00141010 = some (.scInit 0 .chacha20 20) ∧ decodeTableWord 8 0x32 = some .biXor
      ∧ decodeTableWord 32 0x15 = none := by decide

/-- A placed word is run by the very next step: `STATUS` of B1. -/
theorem test_withFetchWord : (afterStep (State.reset.withFetchWord 32 0x113)).status = 0x80001300#32 := by decide

/-! ## The cipher's functions -/

/-- V-SC-11, `CQR`. -/
theorem test_chachaQuarter :
    let x : Words16 := ((((Vector.replicate 16 0#32).set 0 0x11111111#32).set 1 0x01020304#32).set 2
      0x9b8d6f43#32).set 3 0x01234567#32
    let y := chachaQuarter x 0 1 2 3
    [y[0], y[1], y[2], y[3]] = [0xea2a92f4#32, 0xcb1cf8ce#32, 0x4581472e#32, 0x5881c4bb#32] := by decide

/-- V-SC-11, `SQR`. -/
theorem test_salsaQuarter :
    let y := salsaQuarter ((Vector.replicate 16 0#32).set 0 1#32) 0 1 2 3
    [y[0], y[1], y[2], y[3]] = [0x08008145#32, 0x00000080#32, 0x00010200#32, 0x20500000#32] := by decide

/-- R123: the constant words are the ASCII texts "expand 32-byte k" and "expand 16-byte k", least byte first. -/
theorem test_constants :
    (constantWords 32).toList = [0, 4, 8, 12].map (le32 (bytes ("expand 32-byte k".toList.map Char.toNat)))
      ∧ (constantWords 16).toList = [0, 4, 8, 12].map (le32 (bytes ("expand 16-byte k".toList.map Char.toNat))) := by
  decide

/-- V-SC-4b: the Salsa20 block of the all-zero key, its first 16 bytes. -/
theorem test_salsa_block :
    ((block .salsa20 (salsaState (List.replicate 32 0#8) (List.replicate 8 0#8) 0) 20).take 16)
      = bytes [0x9a, 0x97, 0xf6, 0x5b, 0x9b, 0x4c, 0x72, 0x1b, 0x96, 0x0a, 0x67, 0x21, 0x45, 0xfc, 0xa8, 0xd4] := by
  decide +kernel

/-! ## The stream commands -/

/-- V-SC-2. -/
theorem test_scInit_builds_state :
    (after (.scInit 0 .chacha20 20) (initState key32 (bytes [0, 0, 0, 9, 0, 0, 0, 0x4a, 0, 0, 0, 0]) 1)).sc[0]
      = liveChacha := by decide +kernel

/-- V-SC-9: a 10-byte ChaCha20 nonce. -/
theorem test_scInit_rejects_nonce :
    (after (.scInit 0 .chacha20 20) (initState key32 (bytes (List.replicate 10 0)) 0)).status = 0x80001001#32 := by
  decide +kernel

/-- V-SC-2: the first 16 keystream bytes. -/
theorem test_scProcess_bytes :
    (result (after (.scProcess 0) (load streamState (List.replicate 64 0#8)))).take 16
      = bytes [0x10, 0xf1, 0xe7, 0xe4, 0xd1, 0x3b, 0x59, 0x15, 0x50, 0x0f, 0xdd, 0x1f, 0xa3, 0x20, 0x71, 0xc4] := by
  decide +kernel

/-- V-SC-6: 65 bytes from counter `FFFFFFFF`: the last byte out and the carry into the high word. -/
theorem test_scProcess_carry :
    let u := after (.scProcess 1) (load streamState (List.replicate 65 0#8))
    Memory.read u.obuf 64 = 0x8b#8 ∧ (u.sc[1]).state[8] = 1#32 ∧ (u.sc[1]).state[9] = 1#32 := by decide +kernel

/-- R138: both counter words on Salsa20. -/
theorem test_scSeek_salsa :
    let u := after (.scSeek 1) { streamState with arg0 := 5#32, arg1 := 7#32 }
    (u.sc[1]).state[8] = 5#32 ∧ (u.sc[1]).state[9] = 7#32 := by decide

/-- R138: on ChaCha20 `ARG1` is not read. -/
theorem test_scSeek_chacha :
    let u := after (.scSeek 0) { streamState with arg0 := 5#32, arg1 := 7#32 }
    (u.sc[0]).state[12] = 5#32 ∧ (u.sc[0]).state[13] = 0x09000000#32 := by decide

/-- V-SC-10. -/
theorem test_scDispose_zeroes :
    let u := after (.scDispose 0) streamState
    u.sc[0] = ⟨.disposed, .salsa20, 0, Vector.replicate 16 0⟩ ∧ u.status = 0x80001300#32 := by decide

/-- B1: a FREE slot. -/
theorem test_scDispose_free : (after (.scDispose 1) State.reset).status = 0x80001300#32 := by decide

/-- V-SC-6: the form of the answer, here before the first block. -/
theorem test_scQuery :
    result (after (.scQuery 1) streamState)
      = bytes [0, 0, 0, 0, 0x14, 0, 0, 0, 0xff, 0xff, 0xff, 0xff, 0, 0, 0, 0] := by decide +kernel

/-- B1: a FREE slot. -/
theorem test_scQuery_free : (after (.scQuery 0) State.reset).status = 0x80001402#32 := by decide

/-! ## The RSA commands -/

/-- V-RSA-1: the toy descriptor. -/
theorem test_rsaInit_toy :
    (after (.rsaInit 0 384 0) (load State.reset (descriptor toyRecords))).rsa[0] = toyKey := by decide +kernel

/-- V-RSA-3: without the `N` record the public group is absent and the other two stay. -/
theorem test_rsaInit_without_n :
    let k := (after (.rsaInit 0 384 0) (load State.reset (descriptor toyTail))).rsa[0]
    (k.hasPublicInfo, k.hasPrivateInfo, k.hasCrtInfo, k.e) = (false, true, true, 0) := by decide +kernel

/-- V-RSA-1. -/
theorem test_rsaEnc : result (after (.rsaEnc 0 false) (load rsaState (bytes [0x41]))) = last48 [0x0a, 0xe6] := by
  decide +kernel

/-- V-RSA-2. -/
theorem test_rsaEnc_too_large :
    (after (.rsaEnc 0 false) (load rsaState (List.replicate 38 1#8))).status = 0x80002105#32 := by decide +kernel

/-- V-RSA-1. -/
theorem test_rsaDec : result (after (.rsaDec 0 true) (load rsaState (last48 [0x0a, 0xe6]))) = last48 [0x41] := by
  decide +kernel

/-- V-RSA-2: 38 bytes are allowed in the decrypt direction. -/
theorem test_rsaDec_longer :
    (after (.rsaDec 0 false) (load rsaState (List.replicate 38 1#8))).status = 0x80002200#32 := by decide +kernel

/-- V-RSA-1. -/
theorem test_rsaPrivenc : result (after (.rsaPrivenc 0) (load rsaState (bytes [0x41]))) = last48 [0x02, 0x4c] := by
  decide +kernel

/-- V-RSA-4: without the CRT group. -/
theorem test_rsaPrivenc_missing :
    (after (.rsaPrivenc 0)
      { load rsaState (bytes [0x41]) with rsa := #v[{ toyKey with hasCrtInfo := false }, toyKey] }).status
      = 0x80002304#32 := by decide +kernel

/-- V-RSA-1. -/
theorem test_rsaPrivdec : result (after (.rsaPrivdec 0) (load rsaState (last48 [0x0a, 0xe6]))) = last48 [0x41] := by
  decide +kernel

/-- V-RSA-1. -/
theorem test_rsaPubenc : result (after (.rsaPubenc 0) (load rsaState (bytes [0x41]))) = last48 [0x0a, 0xe6] := by
  decide +kernel

/-- V-RSA-2. -/
theorem test_rsaPubenc_empty : (after (.rsaPubenc 0) rsaState).status = 0x80002506#32 := by decide +kernel

/-- V-RSA-1. -/
theorem test_rsaPubdec : result (after (.rsaPubdec 0) (load rsaState (bytes [0x02, 0x4c]))) = last48 [0x41] := by
  decide +kernel

/-- V-RSA-1. -/
theorem test_rsaQuery :
    result (after (.rsaQuery 0) rsaState)
      = bytes [0x80, 1, 0, 0, 0x30, 0, 0, 0, 0x25, 0, 0, 0, 7, 0, 0x14, 0] := by decide +kernel

/-- R179: the key stays, the slot is DISPOSED. -/
theorem test_rsaDispose_keeps_key :
    (after (.rsaDispose 0) rsaState).rsa[0] = { toyKey with life := .disposed } := by decide

/-- B1: a FREE slot. -/
theorem test_rsaDispose_free : (after (.rsaDispose 1) State.reset).status = 0x80002800#32 := by decide

/-- 95_test_vectors.md B5: the Montgomery constants of 3233 and the CRT recombination. -/
theorem test_montgomery_toy : montNPrime 3233 = 0x669F289F ∧ crtCombine 2790 61 53 53 49 38 = 65 := by decide +kernel

/-- The corner of 41_rsa_engine.md R181 that log 17 names: `D` a positive multiple of `P - 1`. By hand: the CRT path
gives 4, the direct path `3^2 mod 15 = 9`. -/
theorem test_crt_corner : crtCombine 3 3 5 0 2 2 = 4 ∧ modExp 3 2 15 = 9 := by decide +kernel

/-! ## The codec commands -/

/-- The example of R234. -/
theorem test_biB2i : (after (.biB2i false) (load State.reset (bytes [0x0a, 0xe6]))).biacc = 2790 := by decide +kernel

/-- V-BI-3. -/
theorem test_biB2i_empty : (after (.biB2i false) { State.reset with biacc := 9 }).biacc = 0 := by decide +kernel

/-- V-BI-1: truncated, big-endian. -/
theorem test_biI2b_truncates :
    result (after (.biI2b 3 false) { State.reset with biacc := 0x0102030405 }) = bytes [3, 4, 5] := by decide +kernel

/-- B1. -/
theorem test_biI2b_too_long : (after (.biI2b 16385 true) State.reset).status = 0x80003101#32 := by decide +kernel

/-- V-BI-4. -/
theorem test_biXor :
    result (after .biXor
      { load State.reset (bytes [0xff, 0, 0xaa, 0x55, 0x0f, 0xf0, 0xa5, 0xa5]) with arg0 := 4#32, arg1 := 4#32 })
      = bytes [0xf0, 0xf0, 0x0f, 0xf0] := by decide +kernel

/-- V-BI-4: the sum of the lengths does not wrap. -/
theorem test_biXor_no_wrap :
    (after .biXor { State.reset with arg0 := 0xFFFFFFFF#32, arg1 := 1#32 }).status = 0x80003201#32 := by
  decide +kernel

/-! ## Witnesses: for each statement with hypotheses, states and operands that meet them -/

theorem witness_DecodeOfEncode :
    (Instr.rsaInit 1 0xFFFF 15).wellFormed = true ∧ (Instr.biXor).wellFormed = true := by decide

theorem witness_EncodeOfDecode :
    decode 0xFFFFF120#32 = .ok (.rsaInit 1 0xFFFF 15) ∧ decode 0x00000010#32 = .ok (.scInit 0 .salsa20 0) := by decide

theorem witness_DecoderFollowsOpcodeMap : decode 0xFFFF1031#32 = .ok (.biI2b 0xFFFF true) := by decide

theorem witness_StepRunsDecodedCommand :
    (withEvents [.write 32 0x008 0x113, .reset]).pending = .write 32 0x008 0x113 :: [.reset]
      ∧ decode 0x113#32 = .ok (.scDispose 1) := by decide

theorem witness_UndecodableWordIsIllegalCommand :
    (withEvents [.write 32 0x008 0x211]).pending = .write 32 0x008 0x211 :: []
      ∧ decode 0x211#32 = .error (.ctxOutOfRange 0x11 2) := by decide

/-- The ends of the four ranges. -/
theorem witness_UnknownOpcodeIsIllegalCommand :
    (withEvents [.write 32 0x008 0xFFFFFFFF]).pending = .write 32 0x008 0xFFFFFFFF :: []
      ∧ (0xFFFFFFFF#32).toNat % 256 = 0xFF ∧ (0x33#32).toNat % 256 = 0x33 ∧ (0x0F#32).toNat % 256 ≤ 0x0F
      ∧ 0x15 ≤ (0x15#32).toNat % 256 ∧ (0x1F#32).toNat % 256 ≤ 0x1F ∧ 0x29 ≤ (0x29#32).toNat % 256
      ∧ (0x2F#32).toNat % 256 ≤ 0x2F := by decide

theorem witness_IdleStepKeepsState : streamState.pending = [] := rfl

theorem witness_ResetEventGivesResetState :
    ({ streamState with pending := [.reset, .read 32 0] } : State).pending = .reset :: [.read 32 0] := rfl

/-- A narrow read, a misaligned write, and the ends of the two unmapped ranges. -/
theorem witness_BusErrorChangesNothing :
    (withEvents [.read 8 0x010]).pending = .read 8 0x010 :: [] ∧ (8 : Nat) ≠ 32
      ∧ (withEvents [.write 32 0x012 1]).pending = .write 32 0x012 1 :: [] ∧ (0x012#16).toNat % 4 ≠ 0
      ∧ (0x002C#16).toNat = 0x002C ∧ (0x3FFC#16).toNat ≤ 0x3FFF ∧ 0xC000 ≤ (0xC000#16).toNat := by decide

theorem witness_RegisterReads :
    (withEvents [.read 32 0x028]).pending = .read 32 0x028 :: []
      ∧ (0x028#16, BitVec.ofNat 32 ((rsaState.rsa[0]).life.code + 4 * (rsaState.rsa[1]).life.code))
          = (0x028#16, 9#32) := by decide

/-- The last register and both ends of the `OBUF` window. -/
theorem witness_RegisterWrites :
    (withEvents [.write 32 0x028 1]).pending = .write 32 0x028 1 :: []
      ∧ (0x8000 ≤ (0x8000#16).toNat ∧ (0x8000#16).toNat % 4 = 0)
      ∧ ((0xBFFC#16).toNat ≤ 0xBFFF ∧ (0xBFFC#16).toNat % 4 = 0) := by decide

/-- Both ends of the window. -/
theorem witness_IbufWindow :
    4 * 0 < 16384 ∧ 4 * 4095 < 16384 ∧ Memory.wf [(3, 1#8), (16383, 2#8)] = true
      ∧ (withEvents [.write 32 (BitVec.ofNat 16 (0x4000 + 4 * 4095)) 7]).pending
          = .write 32 (BitVec.ofNat 16 (0x4000 + 4 * 4095)) 7 :: []
      ∧ (withEvents [.read 32 (BitVec.ofNat 16 (0x4000 + 4 * 0))]).pending
          = .read 32 (BitVec.ofNat 16 (0x4000 + 4 * 0)) :: [] := by decide

/-- Both ends of the window. -/
theorem witness_ObufWindow :
    4 * 0 < 16384 ∧ 4 * 4095 < 16384
      ∧ (withEvents [.read 32 (BitVec.ofNat 16 (0x8000 + 4 * 4095))]).pending
          = .read 32 (BitVec.ofNat 16 (0x8000 + 4 * 4095)) :: []
      ∧ (withEvents [.write 32 (BitVec.ofNat 16 (0x8000 + 4 * 0)) 7]).pending
          = .write 32 (BitVec.ofNat 16 (0x8000 + 4 * 0)) 7 :: [] := by decide

/-- Two states that look alike and differ in a key, a stream word, `BIACC`, `IBUF` and a stale `OBUF` byte. -/
theorem witness_ReadsHideSecrets :
    SameVisible { rsaState with sc := streamState.sc, olen := 2#32, obuf := [(0, 5#8)] }
      { rsaState with
        sc := #v[liveSalsa, liveChacha], rsa := #v[{ toyKey with d := 1 }, { toyKey with life := .disposed, p := 1 }],
        biacc := 7, ibuf := [(0, 1#8)], olen := 2#32, obuf := [(0, 5#8), (2, 9#8)] } := by
  refine ⟨rfl, rfl, rfl, rfl, rfl, rfl, rfl, by decide, by decide, ?_⟩
  intro a ha
  match a, ha with
  | 0, _ => rfl
  | 1, _ => rfl

theorem witness_LoadMakesOperand :
    Memory.wf streamState.ibuf = true ∧ (bytes [1, 2, 3, 4, 5]).length ≤ 16384
      ∧ ({ streamState with pending := loadEvents (bytes [1, 2, 3, 4, 5]) ++ [.reset] } : State).pending
          = loadEvents (bytes [1, 2, 3, 4, 5]) ++ [.reset] := by decide

/-- A command that fails, and its word. -/
theorem witness_FailureChangesOnlyOlenAndStatus :
    exec (.scQuery 0) State.reset = .next (after (.scQuery 0) State.reset)
      ∧ issueCommand 0x14#32 State.reset = .next (after (.scQuery 0) State.reset)
      ∧ statusCode (after (.scQuery 0) State.reset).status ≠ 0 := ⟨rfl, rfl, by decide⟩

/-- A well-formed and an ill-formed command. -/
theorem witness_CommandsEndWithListedCodes :
    exec (.scSeek 1) streamState = .next (after (.scSeek 1) streamState) ∧ (Instr.scSeek 1).wellFormed = true
      ∧ exec (.scSeek 2) streamState = .next (after (.scSeek 2) streamState)
      ∧ (Instr.scSeek 2).wellFormed = false := ⟨rfl, by decide, rfl, by decide⟩

theorem witness_CommandsKeepOperands :
    exec (.scDispose 0) streamState = .next (after (.scDispose 0) streamState) := rfl

theorem witness_CommandsWriteStatus : exec .biXor State.reset = .next (after .biXor State.reset) := rfl

theorem witness_CommandsTouchOnlyTheirContext :
    exec (.scDispose 0) streamState = .next (after (.scDispose 0) streamState)
      ∧ ¬writesSc (.scDispose 0) 1 ∧ ¬writesRsa (.scDispose 0) 0
      ∧ ∀ le, Instr.scDispose 0 ≠ .biB2i le := by
  refine ⟨rfl, by simp [writesSc], by simp [writesRsa], by decide⟩

/-- Two input buffers that differ at `ILEN`. -/
theorem witness_IbufBeyondIlenIsNotRead :
    ∀ a, a < (load State.reset (bytes [1, 2])).ilen.toNat →
      Memory.read [(0, 1#8), (1, 2#8), (2, 9#8)] a = Memory.read (load State.reset (bytes [1, 2])).ibuf a := by
  intro a ha
  match a, ha with
  | 0, _ => rfl
  | 1, _ => rfl

theorem witness_ObufBeyondResultIsKept :
    Memory.wf ({ streamState with obuf := [(20, 7#8)] } : State).obuf = true
      ∧ exec (.scQuery 0) { streamState with obuf := [(20, 7#8)] }
          = .next (after (.scQuery 0) { streamState with obuf := [(20, 7#8)] }) := ⟨by decide, rfl⟩

theorem witness_LifecycleTransitions :
    exec (.rsaDispose 0) rsaState = .next (after (.rsaDispose 0) rsaState) := rfl

/-- Each clause: a slot past the last, a LIVE slot, refused lengths, and both ends of the accepted ones. -/
theorem witness_ScInitRule :
    2 ≤ (2#4).toNat ∧ streamState.sc[(1#4).toNat]? = some liveSalsa ∧ liveSalsa.life = .live
      ∧ State.reset.sc[(1#4).toNat]? = some ScCtx.reset ∧ ScCtx.reset.life ≠ .live
      ∧ ¬LengthsAccepted .salsa20 (initState key32 (bytes [1, 2, 3, 4, 5, 6, 7]) 0)
      ∧ LengthsAccepted .salsa20 (initState key32 (bytes [1, 2, 3, 4, 5, 6, 7, 8]) 0)
      ∧ LengthsAccepted .chacha20 (initState (key32.take 16) (List.replicate 8 0#8) 0)
      ∧ LengthsAccepted .chacha20 (initState key32 (List.replicate 12 0#8) 0) := by
  unfold LengthsAccepted
  decide

/-- Each clause: a slot past the last, a FREE slot, `ILEN` past the buffer, `ILEN` of 16384 and of 0. -/
theorem witness_ScProcessRule :
    2 ≤ (2#4).toNat ∧ State.reset.sc[(0#4).toNat]? = some ScCtx.reset ∧ ScCtx.reset.life ≠ .live
      ∧ ({ streamState with ilen := 16385#32 } : State).sc[(0#4).toNat]? = some liveChacha ∧ liveChacha.life = .live
      ∧ 16384 < ({ streamState with ilen := 16385#32 } : State).ilen.toNat
      ∧ ({ streamState with ilen := 16384#32 } : State).ilen.toNat ≤ 16384 ∧ streamState.ilen.toNat ≤ 16384
      ∧ Memory.wf streamState.obuf = true := by decide

theorem witness_ScSeekRule :
    2 ≤ (15#4).toNat ∧ State.reset.sc[(0#4).toNat]? = some ScCtx.reset ∧ ScCtx.reset.life ≠ .live
      ∧ streamState.sc[(1#4).toNat]? = some liveSalsa ∧ liveSalsa.life = .live ∧ liveSalsa.variant = .salsa20
      ∧ streamState.sc[(0#4).toNat]? = some liveChacha ∧ liveChacha.life = .live
      ∧ liveChacha.variant = .chacha20 := by decide

theorem witness_ScQueryRule :
    2 ≤ (2#4).toNat ∧ State.reset.sc[(1#4).toNat]? = some ScCtx.reset ∧ ScCtx.reset.life ≠ .live
      ∧ Memory.wf streamState.obuf = true
      ∧ streamState.sc[(1#4).toNat]? = some liveSalsa ∧ liveSalsa.life = .live ∧ liveSalsa.variant = .salsa20
      ∧ streamState.sc[(0#4).toNat]? = some liveChacha ∧ liveChacha.life = .live
      ∧ liveChacha.variant = .chacha20 := by decide

theorem witness_ScDisposeRule :
    2 ≤ (2#4).toNat ∧ streamState.sc[(1#4).toNat]? = some liveSalsa ∧ liveSalsa.life = .live
      ∧ State.reset.sc[(0#4).toNat]? = some ScCtx.reset ∧ ScCtx.reset.life ≠ .live := by decide

theorem witness_QuarterRoundRule :
    ([15, 12, 13, 14] : List (Fin 16)).Nodup ∧ (0 : Fin 16) ∉ ([15, 12, 13, 14] : List (Fin 16)) := by decide

/-- The last byte of a word; an odd round count; 0 and 1 rounds. -/
theorem witness_BlockFunction :
    3 < 4 ∧ (21#16).toNat % 2 = 1 ∧ (1#16).toNat ≤ 1 ∧ (0#16).toNat ≤ 1 := by decide

theorem witness_SalsaCounterCounts64Bits : (7 : Fin 16) ≠ 8 ∧ (7 : Fin 16) ≠ 9 := by decide

theorem witness_ChachaCounterCounts32Bits : (13 : Fin 16) ≠ 12 := by decide

theorem witness_DisjointQuarterRoundsCommute : ([0, 4, 8, 12, 5, 9, 13, 1] : List (Fin 16)).Nodup := by decide

/-- Two bytes through the ChaCha20 context, the result moved to `IBUF`. -/
theorem witness_TransformIsAnInvolution :
    let s := load streamState (bytes [1, 2])
    let t := after (.scProcess 0) s
    s.sc[(0#4).toNat]? = some liveChacha ∧ liveChacha.life = .live ∧ s.ilen.toNat ≤ 16384
      ∧ Memory.wf s.obuf = true ∧ exec (.scProcess 0) s = .next t
      ∧ ∀ j, j < s.ilen.toNat → Memory.read t.obuf j = Memory.read t.obuf j :=
  ⟨by decide, rfl, by decide, by decide, rfl, fun _ _ => rfl⟩

/-- 66 bytes cut after 64. -/
theorem witness_SplittingAtBlockBoundaries :
    let s := load streamState (List.replicate 66 1#8)
    s.sc[(1#4).toNat]? = some liveSalsa ∧ liveSalsa.life = .live ∧ Memory.wf s.obuf = true
      ∧ 64 % 64 = 0 ∧ 64 + 2 ≤ 16384 ∧ s.ilen = BitVec.ofNat 32 (64 + 2)
      ∧ exec (.scProcess 1) s = .next (after (.scProcess 1) s)
      ∧ exec (.scProcess 1) { s with ilen := BitVec.ofNat 32 64 }
          = .next (after (.scProcess 1) { s with ilen := BitVec.ofNat 32 64 })
      ∧ ∀ j, j < 2 → Memory.read [(0, 1#8), (1, 1#8)] j = Memory.read s.ibuf (64 + j) :=
  ⟨by decide, rfl, by decide, by decide, by decide, by decide, rfl, rfl, by decide +kernel⟩

theorem witness_DescriptorParsesToItsRecords :
    toyRecords ≠ [] ∧ (∀ r ∈ toyRecords, r.value.length < 65536)
      ∧ parseTop (descriptor toyRecords) = some toyRecords := by decide +kernel

/-- Each clause: a slot past the last, a LIVE slot, key sizes at the edges, an empty descriptor. -/
theorem witness_RsaInitFailures :
    2 ≤ (2#4).toNat ∧ rsaState.rsa[(0#4).toNat]? = some toyKey ∧ toyKey.life = .live
      ∧ State.reset.rsa[(1#4).toNat]? = some RsaCtx.reset ∧ RsaCtx.reset.life ≠ .live
      ∧ (376#16).toNat < 384 ∧ 16384 < (16392#16).toNat ∧ (385#16).toNat % 8 ≠ 0
      ∧ (384 ≤ (384#16).toNat ∧ (16384#16).toNat ≤ 16384 ∧ (384#16).toNat % 8 = 0)
      ∧ 16384 < ({ State.reset with ilen := 16385#32 } : State).ilen.toNat
      ∧ ¬∃ rs : List KeyRecord, rs ≠ [] ∧ (∀ r ∈ rs, r.value.length < 65536)
          ∧ Memory.readBytes State.reset.ibuf 0 State.reset.ilen.toNat = descriptor rs := by
  refine ⟨by decide, by decide, rfl, by decide, by decide, by decide, by decide, by decide, by decide, by decide, ?_⟩
  rintro ⟨rs, h, -, e⟩
  cases rs with
  | nil => exact h rfl
  | cons r rs => cases e

theorem witness_RsaInitResult :
    let s := load State.reset (descriptor toyRecords)
    s.rsa[(0#4).toNat]? = some RsaCtx.reset ∧ RsaCtx.reset.life ≠ .live
      ∧ 384 ≤ (384#16).toNat ∧ (384#16).toNat ≤ 16384 ∧ (384#16).toNat % 8 = 0
      ∧ s.ilen.toNat ≤ 16384 ∧ toyRecords ≠ [] ∧ (∀ r ∈ toyRecords, r.value.length < 65536)
      ∧ Memory.readBytes s.ibuf 0 s.ilen.toNat = descriptor toyRecords := by decide +kernel

/-- Each clause: a slot past the last, a DISPOSED slot, 38 bytes, no bytes, 37 bytes with a group missing. -/
theorem witness_RsaTransformFailures :
    Instr.rsaPubenc 0 ∈ directForms 0 false .enc ∧ Instr.rsaPrivdec 0 = crtForm 0 .dec ∧ 2 ≤ (2#4).toNat
      ∧ rsaState.rsa[(1#4).toNat]? = some { toyKey with life := .disposed }
      ∧ ({ toyKey with life := .disposed } : RsaCtx).life ≠ .live
      ∧ rsaState.rsa[(0#4).toNat]? = some toyKey ∧ toyKey.life = .live
      ∧ limitOf toyKey .enc < ({ rsaState with ilen := 38#32 } : State).ilen.toNat
      ∧ rsaState.ilen.toNat = 0
      ∧ 1 ≤ ({ rsaState with ilen := 37#32 } : State).ilen.toNat
      ∧ ({ rsaState with ilen := 37#32 } : State).ilen.toNat ≤ limitOf toyKey .enc
      ∧ ({ rsaState with rsa := #v[RsaCtx.mk .live 0 0 0 0 0 0 0 0 false false false 384 0 20, toyKey] } :
          State).rsa[(0#4).toNat]? = some (RsaCtx.mk .live 0 0 0 0 0 0 0 0 false false false 384 0 20) := by decide

/-- The longest payload of each direction. -/
theorem witness_RsaDirectResult :
    Instr.rsaEnc 0 true ∈ directForms 0 true .enc ∧ Instr.rsaPubdec 0 ∈ directForms 0 false .dec
      ∧ rsaState.rsa[(0#4).toNat]? = some toyKey ∧ toyKey.life = .live
      ∧ 1 ≤ ({ rsaState with ilen := 37#32 } : State).ilen.toNat
      ∧ ({ rsaState with ilen := 37#32 } : State).ilen.toNat ≤ limitOf toyKey .enc
      ∧ ({ rsaState with ilen := 48#32 } : State).ilen.toNat ≤ limitOf toyKey .dec
      ∧ toyKey.hasPublicInfo = true ∧ (true = true → toyKey.hasPrivateInfo = true) ∧ 1 ≤ toyKey.n
      ∧ Memory.wf rsaState.obuf = true := by decide

theorem witness_RsaCrtResult :
    rsaState.rsa[(0#4).toNat]? = some toyKey ∧ toyKey.life = .live
      ∧ 1 ≤ ({ rsaState with ilen := 1#32 } : State).ilen.toNat
      ∧ ({ rsaState with ilen := 48#32 } : State).ilen.toNat ≤ limitOf toyKey .dec
      ∧ toyKey.hasCrtInfo = true ∧ 1 ≤ toyKey.p ∧ 1 ≤ toyKey.q ∧ Memory.wf rsaState.obuf = true := by decide

theorem witness_RsaQueryRule :
    2 ≤ (2#4).toNat ∧ State.reset.rsa[(0#4).toNat]? = some RsaCtx.reset ∧ RsaCtx.reset.life ≠ .live
      ∧ rsaState.rsa[(0#4).toNat]? = some toyKey ∧ toyKey.life = .live ∧ Memory.wf rsaState.obuf = true := by decide

theorem witness_RsaDisposeRule :
    2 ≤ (2#4).toNat ∧ rsaState.rsa[(0#4).toNat]? = some toyKey ∧ toyKey.life = .live
      ∧ rsaState.rsa[(1#4).toNat]? = some { toyKey with life := .disposed }
      ∧ ({ toyKey with life := .disposed } : RsaCtx).life ≠ .live := by decide

/-- The toy key. -/
theorem witness_CrtPathEqualsDirectPath :
    Instr.rsaDec 0 true ∈ directForms 0 true .dec ∧ rsaState.rsa[(0#4).toNat]? = some toyKey
      ∧ toyKey.hasPublicInfo = true ∧ toyKey.hasPrivateInfo = true ∧ toyKey.hasCrtInfo = true
      ∧ toyKey.p.Prime ∧ toyKey.q.Prime ∧ toyKey.p ≠ toyKey.q ∧ toyKey.n = toyKey.p * toyKey.q
      ∧ toyKey.dp = toyKey.d % (toyKey.p - 1) ∧ toyKey.dq = toyKey.d % (toyKey.q - 1)
      ∧ toyKey.inverseQ * toyKey.q % toyKey.p = 1
      ∧ (toyKey.dp = 0 → toyKey.d = 0) ∧ (toyKey.dq = 0 → toyKey.d = 0) := by
  refine ⟨by decide, by decide, rfl, rfl, rfl, ?_, ?_, by decide, by decide, by decide, by decide, by decide,
    by decide, by decide⟩
  · show Nat.Prime 61; norm_num
  · show Nat.Prime 53; norm_num

/-- The toy key loaded without its CRT group (V-RSA-3's form), as the invariant has it, and the payload 65. -/
theorem witness_RsaRoundTrip :
    let c : RsaCtx := ⟨.live, 3233, 17, 2753, 0, 0, 0, 0, 0, true, true, false, 384#16, 0#3, 20#8⟩
    let s := load { State.reset with rsa := #v[c, RsaCtx.reset] } (bytes [0x41])
    let t := after (.rsaEnc 0 false) s
    c.Ok ∧ s.rsa[(0#4).toNat]? = some c ∧ c.life = .live ∧ c.hasPublicInfo = true
      ∧ c.hasPrivateInfo = true ∧ 384 ≤ c.keySizeBits.toNat ∧ c.keySizeBits.toNat % 8 = 0
      ∧ (61).Prime ∧ (53).Prime ∧ 61 ≠ 53 ∧ c.n = 61 * 53
      ∧ c.e * c.d % (61 - 1) = 1 % (61 - 1) ∧ c.e * c.d % (53 - 1) = 1 % (53 - 1)
      ∧ c.n ≤ 256 ^ (c.keySizeBits.toNat / 8)
      ∧ 1 ≤ s.ilen.toNat ∧ s.ilen.toNat ≤ (c.keySizeBits.toNat - 384) / 8 + 37 ∧ payloadOf s < c.n
      ∧ Memory.wf s.obuf = true ∧ exec (.rsaEnc 0 false) s = .next t
      ∧ ∀ j, j < t.olen.toNat → Memory.read t.obuf j = Memory.read t.obuf j := by
  refine ⟨⟨fun h => absurd h (by decide), fun _ => by decide +kernel⟩, by decide, rfl, rfl, rfl, by decide, by decide,
    ?_, ?_, by decide, by decide, by decide, by decide, by decide +kernel, by decide, by decide, by decide +kernel,
    by decide, rfl, fun _ _ => rfl⟩
  · norm_num
  · norm_num

theorem witness_ModExpMeetsContract : 1 ≤ 1 := by decide

/-- The least odd modulus and the largest input of `REDC` for it. -/
theorem witness_MontgomeryDatapath :
    1 % 2 = 1 ∧ 1 ≤ 1 ∧ 1 < 2 ^ (32 * 1) ∧ montRadix 1 * 1 - 1 < montRadix 1 * 1 := by decide +kernel

/-- The least modulus and the largest input of the reduction for it. -/
theorem witness_BarrettDatapath : 1 ≤ 1 ∧ 2 ^ 64 - 1 < 2 ^ (32 * (2 * limbCount 1)) := by decide +kernel

theorem witness_BiB2iRule :
    16384 < ({ State.reset with ilen := 16385#32 } : State).ilen.toNat
      ∧ ({ State.reset with ilen := 16384#32 } : State).ilen.toNat ≤ 16384 := by decide

theorem witness_BiI2bRule :
    16384 < (16385#16).toNat ∧ (16384#16).toNat ≤ 16384 ∧ Memory.wf State.reset.obuf = true := by decide

/-- Each clause: the sum off by one, unequal lengths, equal lengths. -/
theorem witness_BiXorRule :
    let a : State := { State.reset with ilen := 7#32, arg0 := 4#32, arg1 := 4#32 }
    let b : State := { State.reset with ilen := 7#32, arg0 := 4#32, arg1 := 3#32 }
    let c : State := { State.reset with ilen := 16384#32, arg0 := 8192#32, arg1 := 8192#32 }
    a.arg0.toNat + a.arg1.toNat ≠ a.ilen.toNat
      ∧ 16384 < ({ State.reset with ilen := 16385#32 } : State).ilen.toNat
      ∧ (b.ilen.toNat ≤ 16384 ∧ b.arg0.toNat + b.arg1.toNat = b.ilen.toNat ∧ b.arg0 ≠ b.arg1)
      ∧ (c.ilen.toNat ≤ 16384 ∧ c.arg0.toNat + c.arg1.toNat = c.ilen.toNat ∧ c.arg0 = c.arg1
          ∧ Memory.wf c.obuf = true) := by decide

theorem witness_CodecIsPositional : 0 < 1 ∧ 2 ^ 32 - 1 < 2 ^ (32 * 1) ∧ 0 < 2 ^ (32 * 0) := by decide

theorem witness_CodecLaws :
    (bytes [1, 2]).length ≤ 2 ∧ (bytes [1, 2]).length ≤ 5
      ∧ xorBytes (bytes [0xff, 0]) (bytes [0x0f, 0xf0]) = .ok (bytes [0xf0, 0xf0]) := by decide

/-- The invariant of a state with LIVE contexts, and a step from it. -/
theorem witness_StepKeepsInvariant :
    let s : State := { streamState with rsa := rsaState.rsa, pending := [.write 32 0x008 0x112] }
    s.Inv ∧ step s = .next (afterStep s) := by
  refine ⟨⟨by decide, by decide, by decide, by decide, by decide, ?_, ?_, by decide +kernel, by decide⟩, rfl⟩
  · intro i
    fin_cases i <;> decide
  · intro i
    fin_cases i <;> exact ⟨fun h => absurd h (by decide), fun _ => by decide +kernel⟩

end Sys2Proof.Tests
end

section
/-! Proofs for 00_scope.md: the quarter-rounds word by word (O33) and what a bus read depends on (O18). -/

namespace Sys2Proof.Machine

open Sys2Proof.Claims

/-! ### The quarter-rounds -/

/-- The model's rotation is the one R10 writes out. -/
theorem rot_eq_rotl32 (v : Word) {n : Nat} (h : n < 32) : rot v n = rotl32 v n := by
  rw [rot, ← rotl32_toNat v h, BitVec.ofNat_toNat, BitVec.setWidth_eq]

/-- The Salsa20 quarter-round writes `b`, `c`, `d`, `a` in that order, each from the words written before it (R128). -/
theorem salsaQuarter_words (x : Words16) {a b c d : Fin 16} (h : [a, b, c, d].Nodup) :
    (salsaQuarter x a b c d)[b] = x[b] ^^^ rotl32 (x[a] + x[d]) 7
      ∧ (salsaQuarter x a b c d)[c] = x[c] ^^^ rotl32 ((salsaQuarter x a b c d)[b] + x[a]) 9
      ∧ (salsaQuarter x a b c d)[d]
          = x[d] ^^^ rotl32 ((salsaQuarter x a b c d)[c] + (salsaQuarter x a b c d)[b]) 13
      ∧ (salsaQuarter x a b c d)[a]
          = x[a] ^^^ rotl32 ((salsaQuarter x a b c d)[d] + (salsaQuarter x a b c d)[c]) 18 := by
  simp only [List.nodup_cons, List.mem_cons, List.not_mem_nil, not_or, or_false] at h
  obtain ⟨⟨hab, hac, had⟩, ⟨hbc, hbd⟩, hcd, -⟩ := h
  simp only [salsaQuarter, words_getElem_set, ↓reduceIte, hab, hac, had, hbc, hbd, hcd, Ne.symm hab,
    Ne.symm hac, Ne.symm had, Ne.symm hbc, Ne.symm hbd, Ne.symm hcd, and_self]

/-- The Salsa20 quarter-round writes no word but its four (R128). -/
theorem salsaQuarter_frame (x : Words16) {a b c d k : Fin 16} (h : k ∉ [a, b, c, d]) :
    (salsaQuarter x a b c d)[k] = x[k] := by
  simp only [List.mem_cons, List.not_mem_nil, not_or, or_false, eq_comm (a := k)] at h
  obtain ⟨ha, hb, hc, hd⟩ := h
  simp only [salsaQuarter, words_getElem_set, ↓reduceIte, ha, hb, hc, hd]

/-- Four statements of R130: one half of the ChaCha20 quarter-round, with its two rotation amounts. -/
def chachaHalf (x : Words16) (a b c d : Fin 16) (m n : Nat) : Words16 :=
  let x := x.set a (x[a] + x[b])
  let x := x.set d (rotl32 (x[d] ^^^ x[a]) m)
  let x := x.set c (x[c] + x[d])
  x.set b (rotl32 (x[b] ^^^ x[c]) n)

/-- The ChaCha20 quarter-round is two halves that differ in the rotation amounts alone. -/
theorem chachaQuarter_eq_halves (x : Words16) (a b c d : Fin 16) :
    chachaQuarter x a b c d = chachaHalf (chachaHalf x a b c d 16 12) a b c d 8 7 := rfl

/-- A half writes `a`, `d`, `c`, `b` in that order, each from the words written before it (R130). -/
theorem chachaHalf_words (x : Words16) {a b c d : Fin 16} (h : [a, b, c, d].Nodup) (m n : Nat) :
    (chachaHalf x a b c d m n)[a] = x[a] + x[b]
      ∧ (chachaHalf x a b c d m n)[d] = rotl32 (x[d] ^^^ (chachaHalf x a b c d m n)[a]) m
      ∧ (chachaHalf x a b c d m n)[c] = x[c] + (chachaHalf x a b c d m n)[d]
      ∧ (chachaHalf x a b c d m n)[b] = rotl32 (x[b] ^^^ (chachaHalf x a b c d m n)[c]) n := by
  simp only [List.nodup_cons, List.mem_cons, List.not_mem_nil, not_or, or_false] at h
  obtain ⟨⟨hab, hac, had⟩, ⟨hbc, hbd⟩, hcd, -⟩ := h
  simp only [chachaHalf, words_getElem_set, ↓reduceIte, hab, hac, had, hbc, hbd, hcd, Ne.symm hab,
    Ne.symm hac, Ne.symm had, Ne.symm hbc, Ne.symm hbd, Ne.symm hcd, and_self]

/-- A half writes no word but its four. -/
theorem chachaHalf_frame (x : Words16) {a b c d k : Fin 16} (h : k ∉ [a, b, c, d]) (m n : Nat) :
    (chachaHalf x a b c d m n)[k] = x[k] := by
  simp only [List.mem_cons, List.not_mem_nil, not_or, or_false, eq_comm (a := k)] at h
  obtain ⟨ha, hb, hc, hd⟩ := h
  simp only [chachaHalf, words_getElem_set, ↓reduceIte, ha, hb, hc, hd]

/-- The ChaCha20 quarter-round writes no word but its four (R130). -/
theorem chachaQuarter_frame (x : Words16) {a b c d k : Fin 16} (h : k ∉ [a, b, c, d]) :
    (chachaQuarter x a b c d)[k] = x[k] := by
  rw [chachaQuarter_eq_halves, chachaHalf_frame _ h, chachaHalf_frame _ h]

/-- Settles O33: the Salsa20 words are the result's own; the ChaCha20 words are those of the two halves in turn. -/
theorem quarterRoundRule : Obligations.QuarterRoundRule := by
  intro x a b c d h
  simp (disch := decide) only [rot_eq_rotl32]
  refine ⟨?salsa, ?chacha, fun k hk => ⟨salsaQuarter_frame x hk, chachaQuarter_frame x hk⟩⟩
  case salsa =>
    obtain ⟨hb, hc, hd, ha⟩ := salsaQuarter_words x h
    exact ⟨_, _, _, _, hb, hc, hd, ha, rfl, rfl, rfl, rfl⟩
  case chacha =>
    obtain ⟨ha1, hd1, hc1, hb1⟩ := chachaHalf_words x h 16 12
    obtain ⟨ha2, hd2, hc2, hb2⟩ := chachaHalf_words (chachaHalf x a b c d 16 12) h 8 7
    rw [chachaQuarter_eq_halves]
    exact ⟨_, _, _, _, _, _, _, _, ha1, hd1, hc1, hb1, ha2, hd2, hc2, hb2, rfl, rfl, rfl, rfl⟩

/-! ### What a bus read depends on -/

/-- Two context vectors that agree slot by slot list the same lifecycle flags. -/
theorem lives_congr {α : Type} (life : α → Life) {v w : Vector α 2} (h : ∀ i : Fin 2, life v[i] = life w[i]) :
    v.toList.map life = w.toList.map life := by
  have h0 : life v[0] = life w[0] := h 0
  have h1 : life v[1] = life w[1] := h 1
  simp only [toList_two, List.map_cons, List.map_nil, h0, h1]

/-- The register block shows nothing but the visible state (R30, R38, R39). -/
theorem readRegister_congr {s t : State} (h : SameVisible s t) (off : Nat) :
    readRegister s off = readRegister t off := by
  obtain ⟨hcfg, hstatus, hilen, holen, harg0, harg1, harg2, hsc, hrsa, -⟩ := h
  have hscstat : s.scstat = t.scstat := by rw [State.scstat, State.scstat, lives_congr ScCtx.life hsc]
  have hrsastat : s.rsastat = t.rsastat := by rw [State.rsastat, State.rsastat, lives_congr RsaCtx.life hrsa]
  simp only [readRegister, hcfg, hstatus, hilen, holen, harg0, harg1, harg2, hscstat, hrsastat]

/-- A byte of the `OBUF` window is a byte below `OLEN`, or 0 (R65). -/
theorem obufVisible_congr {s t : State} (h : SameVisible s t) (i : Nat) : obufVisible s i = obufVisible t i := by
  obtain ⟨-, -, -, holen, -, -, -, -, -, hobuf⟩ := h
  unfold obufVisible
  rw [← holen]
  split
  · next hi => exact hobuf i hi
  · rfl

/-- A legal read returns a register, the `IBUF` window's 0, or visible bytes of `OBUF` (R63 to R65). -/
theorem readWord_congr {s t : State} (h : SameVisible s t) (off : Nat) : readWord s off = readWord t off := by
  simp only [readWord, readObuf, readRegister_congr h, obufVisible_congr h]

/-- Settles O18: an access is legal whatever the state, and the word read depends on the visible part alone. -/
theorem readsHideSecrets : Obligations.ReadsHideSecrets := by
  intro s t width off h
  rw [busRead, busRead, readWord_congr h]

end Sys2Proof.Machine
end

section
/-! Proofs for 10_state.md: what every command writes and keeps (O22, O23, O26), the contexts it may change (O24, O27),
the invariant (O58, O59), what it reads of `IBUF` (O25), and the registers (O11, O14, O15). -/

namespace Sys2Proof.Machine

/-! ### The status word -/

theorem statusWord_toNat (op : BitVec 8) {code : Nat} (h : code ≤ 8) :
    (statusWord op code).toNat = 2 ^ 31 + op.toNat * 2 ^ 8 + code := by
  have := op.isLt
  simp only [statusWord, BitVec.toNat_ofNat]
  omega

/-- The fields of a status word that a command wrote (R34): `lastop` is its opcode and `VALID` is set. -/
theorem statusFields_of_toNat {v : Word} {op : BitVec 8} {code : Nat} (h : code ≤ 8)
    (hv : v.toNat = 2 ^ 31 + op.toNat * 2 ^ 8 + code) : statusValid v = true ∧ statusLastop v = op := by
  have := op.isLt
  constructor
  · simp only [statusValid, ← BitVec.testBit_toNat, Nat.testBit_eq_decide_div_mod_eq, decide_eq_true_eq, hv]
    omega
  · apply BitVec.eq_of_toNat_eq
    simp only [statusLastop, BitVec.extractLsb'_toNat, Nat.shiftRight_eq_div_pow, hv]
    omega

/-- What a command writes to `STATUS` is a legal value of it (R34). -/
theorem statusLegal_of_toNat {v : Word} {op : BitVec 8} {code : Nat} (h : code ≤ 8)
    (hv : v.toNat = 2 ^ 31 + op.toNat * 2 ^ 8 + code) : statusLegal v := by
  have hop := op.isLt
  obtain ⟨hvalid, -⟩ := statusFields_of_toNat h hv
  refine ⟨?code, ?low, ?high, fun hv0 => by simp [hvalid] at hv0⟩
  case code =>
    simp only [statusCode, BitVec.extractLsb'_toNat, Nat.shiftRight_eq_div_pow, hv]
    omega
  case low =>
    apply BitVec.eq_of_toNat_eq
    simp only [BitVec.extractLsb'_toNat, Nat.shiftRight_eq_div_pow, hv, BitVec.toNat_ofNat]
    omega
  case high =>
    apply BitVec.eq_of_toNat_eq
    simp only [BitVec.extractLsb'_toNat, Nat.shiftRight_eq_div_pow, hv, BitVec.toNat_ofNat]
    omega

/-! ### What every command does -/

/-- A command's own effect is on the contexts and the accumulator alone. -/
theorem OwnEffect.frame {s t : State} (h : OwnEffect s t) :
    t.ilen = s.ilen ∧ t.arg0 = s.arg0 ∧ t.arg1 = s.arg1 ∧ t.arg2 = s.arg2 ∧ t.cfg = s.cfg ∧ t.ibuf = s.ibuf
      ∧ t.obuf = s.obuf ∧ t.pending = s.pending ∧ t.resp = s.resp := by
  rcases h with rfl | ⟨j, c, rfl⟩ | ⟨j, c, rfl⟩ | ⟨v, rfl⟩ <;> simp

/-- `exec_cases` for a command whose end is known. -/
theorem eq_complete_of_exec {i : Instr} {s u : State} (h : exec i s = .next u) :
    ∃ r, u = complete (opcodeOf i) s r ∧ RunOk s r := by
  obtain ⟨r, he, hr⟩ := exec_cases i s
  rw [he] at h
  cases h
  exact ⟨r, rfl, hr⟩

/-- Settles O22: neither end of a command writes the operands, and no command's own effect does. -/
theorem commandsKeepOperands : Obligations.CommandsKeepOperands := by
  intro i s u h
  obtain ⟨r, rfl, hr⟩ := eq_complete_of_exec h
  cases r with
  | fail f => simp
  | succeed t out =>
    obtain ⟨heffect, -⟩ := hr
    obtain ⟨hilen, harg0, harg1, harg2, hcfg, hibuf, -, hpending, hresp⟩ := heffect.frame
    exact ⟨hilen, harg0, harg1, harg2, hcfg, hibuf, hpending, hresp⟩

/-- Every command writes the code of its end to `STATUS` (R96). -/
theorem complete_status (op : BitVec 8) (s : State) (r : RunResult) :
    ∃ code, code ≤ 8 ∧ (complete op s r).status = statusWord op code := by
  cases r with
  | fail f => exact ⟨f.code, f.code_range.2, rfl⟩
  | succeed t out => exact ⟨0, by decide, rfl⟩

/-- Every command clears the temporaries (R96). -/
theorem complete_tempsZero (op : BitVec 8) (s : State) (r : RunResult) : (complete op s r).TempsZero := by
  cases r <;> exact ⟨rfl, rfl, rfl⟩

/-- Settles O23: the code is that of the command's end, and `complete` clears the temporaries. -/
theorem commandsWriteStatus : Obligations.CommandsWriteStatus := by
  intro i s u h
  obtain ⟨r, rfl, -⟩ := eq_complete_of_exec h
  obtain ⟨code, hcode, hstatus⟩ := complete_status (opcodeOf i) s r
  have hv := hstatus ▸ statusWord_toNat (opcodeOf i) hcode
  obtain ⟨hvalid, hlastop⟩ := statusFields_of_toNat hcode hv
  exact ⟨⟨code, hcode, hv⟩, hvalid, hlastop, complete_tempsZero _ _ _⟩

/-- A command writes a result that fits `OBUF` from offset 0, and its length to `OLEN` (R96); the result of a failing
command is empty. -/
theorem exec_writesResult {i : Instr} {s u : State} (h : exec i s = .next u) :
    ∃ out : Bytes, out.length ≤ Config.obufBytes ∧ u.olen.toNat = out.length
      ∧ u.obuf = Memory.writeBytes s.obuf 0 out := by
  obtain ⟨r, rfl, hr⟩ := eq_complete_of_exec h
  cases r with
  | fail f => exact ⟨[], Nat.zero_le _, rfl, rfl⟩
  | succeed t out =>
    obtain ⟨heffect, hlen⟩ := hr
    obtain ⟨-, -, -, -, -, -, hobuf, -⟩ := heffect.frame
    refine ⟨out, hlen, ?_, by simp [hobuf]⟩
    have : out.length < 2 ^ 32 := by simp only [Config.obufBytes] at hlen; omega
    simpa using this

/-- Settles O26: the result ends at `OLEN`. -/
theorem obufBeyondResultIsKept : Obligations.ObufBeyondResultIsKept := by
  intro i s u hw h
  obtain ⟨out, hlen, holen, hobuf⟩ := exec_writesResult h
  refine ⟨holen ▸ hlen, fun a ha => ?_⟩
  rw [hobuf, Memory.read_writeBytes hw, if_neg (by omega)]

/-! ### Which context a command changes, and how -/

/-- The run of each command, before `complete` ends it. -/
def runOf (s : State) : Instr → RunResult
  | .scInit ctx variant rounds => runScInit ctx variant rounds s
  | .scProcess ctx => runScProcess ctx s
  | .scSeek ctx => runScSeek ctx s
  | .scDispose ctx => runScDispose ctx s
  | .scQuery ctx => runScQuery ctx s
  | .rsaInit ctx keySizeBits hashSel => runRsaInit ctx keySizeBits hashSel s
  | .rsaEnc ctx usePrivate => rsaDirect ctx usePrivate .enc s
  | .rsaDec ctx usePrivate => rsaDirect ctx usePrivate .dec s
  | .rsaPrivenc ctx => rsaCrt ctx .enc s
  | .rsaPrivdec ctx => rsaCrt ctx .dec s
  | .rsaPubenc ctx => rsaDirect ctx false .enc s
  | .rsaPubdec ctx => rsaDirect ctx false .dec s
  | .rsaQuery ctx => withLiveRsa ctx s fun c => .succeed s (rsaQueryBytes c)
  | .rsaDispose ctx => runRsaDispose ctx s
  | .biB2i littleEndian =>
    if s.ilenFits then .succeed { s with biacc := bytesToInteger s.operand littleEndian } []
    else .fail .invalidArgument
  | .biI2b length littleEndian =>
    if length.toNat ≤ Config.obufBytes then .succeed s (integerToBytes s.biacc length.toNat littleEndian)
    else .fail .invalidArgument
  | .biXor => runBiXor s

/-- `exec` is `runOf`, ended by `complete`. -/
theorem exec_eq_complete_runOf (i : Instr) (s : State) :
    exec i s = .next (complete (opcodeOf i) s (runOf s i)) := by
  cases i <;> rfl

/-- What each command that succeeds does to the contexts and the accumulator: nothing, or the change its rule names,
on a slot in the lifecycle its rule asks for (R40, R45, R48). -/
inductive Effect (s : State) : Instr → State → Prop
  | keep (i : Instr) : Effect s i s
  | scInit {ctx : BitVec 4} {c : ScCtx} (variant : Variant) (rounds : BitVec 16) :
    s.sc[ctx.toNat]? = some c → c.life ≠ .live →
    Effect s (.scInit ctx variant rounds) (s.setSc ctx.toNat (scInitCtx variant rounds s))
  | scProcess {ctx : BitVec 4} {c : ScCtx} (words : Words16) :
    s.sc[ctx.toNat]? = some c → c.life = .live →
    Effect s (.scProcess ctx) (s.setSc ctx.toNat { c with state := words })
  | scSeek {ctx : BitVec 4} {c : ScCtx} (words : Words16) :
    s.sc[ctx.toNat]? = some c → c.life = .live →
    Effect s (.scSeek ctx) (s.setSc ctx.toNat { c with state := words })
  | scDispose {ctx : BitVec 4} {c : ScCtx} :
    s.sc[ctx.toNat]? = some c → c.life = .live →
    Effect s (.scDispose ctx) (s.setSc ctx.toNat disposedSc)
  | rsaInit {ctx : BitVec 4} {c : RsaCtx} {keySizeBits : BitVec 16} (hashSel : BitVec 4) (rs : List KeyRecord) :
    s.rsa[ctx.toNat]? = some c → c.life ≠ .live → keySizeOk keySizeBits = true →
    Effect s (.rsaInit ctx keySizeBits hashSel)
      (s.setRsa ctx.toNat (rsaInitCtx rs s.keyLe keySizeBits hashSel))
  | rsaDispose {ctx : BitVec 4} {c : RsaCtx} :
    s.rsa[ctx.toNat]? = some c → c.life = .live →
    Effect s (.rsaDispose ctx) (s.setRsa ctx.toNat { c with life := .disposed })
  | biB2i (littleEndian : Bool) :
    s.ilen.toNat ≤ Config.ibufBytes →
    Effect s (.biB2i littleEndian) { s with biacc := bytesToInteger s.operand littleEndian }

/-- A run that fails, or succeeds with command `i`'s effect. -/
def RunEffect (s : State) (i : Instr) : RunResult → Prop
  | .fail _ => True
  | .succeed t _ => Effect s i t

/-- What holds of every failure and of the body on a LIVE slot holds of `withLiveSc`. -/
theorem withLiveSc_induction {P : RunResult → Prop} {ctx : BitVec 4} {s : State} {body : ScCtx → RunResult}
    (fail : ∀ f, P (.fail f)) (live : ∀ c, s.sc[ctx.toNat]? = some c → c.life = .live → P (body c)) :
    P (withLiveSc ctx s body) := by
  rcases withLiveSc_cases ctx s body with ⟨-, e⟩ | ⟨c, -, -, e⟩ | ⟨c, hc, hl, e⟩ <;> rw [e]
  · exact fail _
  · exact fail _
  · exact live c hc hl

/-- What holds of every failure and of the body holds of `withLiveRsa`. -/
theorem withLiveRsa_induction {P : RunResult → Prop} {ctx : BitVec 4} {s : State} {body : RsaCtx → RunResult}
    (fail : ∀ f, P (.fail f)) (live : ∀ c, P (body c)) : P (withLiveRsa ctx s body) := by
  rcases withLiveRsa_cases ctx s body with ⟨-, e⟩ | ⟨c, -, -, e⟩ | ⟨c, -, -, e⟩ <;> rw [e]
  · exact fail _
  · exact fail _
  · exact live c

/-- What holds of every failure and of the body holds of `withPayload`. -/
theorem withPayload_induction {P : RunResult → Prop} {c : RsaCtx} {dir : Direction} {s : State} {body : RunResult}
    (fail : ∀ f, P (.fail f)) (ok : P body) : P (withPayload c dir s body) := by
  rcases withPayload_cases c dir s body with ⟨-, e⟩ | ⟨-, -, e⟩ | ⟨-, -, e⟩ <;> rw [e]
  · exact fail _
  · exact fail _
  · exact ok

/-- A direct transform changes no context. -/
theorem runEffect_rsaDirect (i : Instr) (ctx : BitVec 4) (usePrivate : Bool) (dir : Direction) (s : State) :
    RunEffect s i (rsaDirect ctx usePrivate dir s) := by
  refine withLiveRsa_induction (fun _ => trivial) fun c => withPayload_induction (fun _ => trivial) ?_
  cases usePrivate
  · cases c.hasPublicInfo
    · trivial
    · exact .keep i
  · cases c.hasPrivateInfo && c.hasPublicInfo
    · trivial
    · exact .keep i

/-- A CRT transform changes no context. -/
theorem runEffect_rsaCrt (i : Instr) (ctx : BitVec 4) (dir : Direction) (s : State) :
    RunEffect s i (rsaCrt ctx dir s) := by
  refine withLiveRsa_induction (fun _ => trivial) fun c => withPayload_induction (fun _ => trivial) ?_
  cases c.hasCrtInfo
  · trivial
  · exact .keep i

theorem runEffect_runScInit (ctx : BitVec 4) (variant : Variant) (rounds : BitVec 16) (s : State) :
    RunEffect s (.scInit ctx variant rounds) (runScInit ctx variant rounds s) := by
  unfold runScInit
  split
  · trivial
  · next c hc =>
    split
    · trivial
    · next hl =>
      split
      · exact .scInit variant rounds hc hl
      · trivial

theorem runEffect_runScProcess (ctx : BitVec 4) (s : State) : RunEffect s (.scProcess ctx) (runScProcess ctx s) := by
  refine withLiveSc_induction (fun _ => trivial) fun c hc hl => ?_
  split
  · exact .scProcess _ hc hl
  · trivial

theorem runEffect_runScDispose (ctx : BitVec 4) (s : State) : RunEffect s (.scDispose ctx) (runScDispose ctx s) := by
  unfold runScDispose
  split
  · trivial
  · next c hc =>
    split
    · next hl => exact .scDispose hc hl
    · exact .keep _

theorem runEffect_runRsaInit (ctx : BitVec 4) (keySizeBits : BitVec 16) (hashSel : BitVec 4) (s : State) :
    RunEffect s (.rsaInit ctx keySizeBits hashSel) (runRsaInit ctx keySizeBits hashSel s) := by
  unfold runRsaInit
  split
  · trivial
  · next c hc =>
    split
    · trivial
    · next hl =>
      split
      · next hk =>
        split
        · split
          · trivial
          · next rs _ => exact .rsaInit hashSel rs hc hl hk
        · trivial
      · trivial

theorem runEffect_runRsaDispose (ctx : BitVec 4) (s : State) :
    RunEffect s (.rsaDispose ctx) (runRsaDispose ctx s) := by
  unfold runRsaDispose
  split
  · trivial
  · next c hc =>
    split
    · next hl => exact .rsaDispose hc hl
    · exact .keep _

theorem runEffect_runBiXor (s : State) : RunEffect s .biXor (runBiXor s) := by
  unfold runBiXor
  split
  · split
    · exact .keep _
    · trivial
  · trivial

/-- Every command has the effect its rule names, or fails. -/
theorem runEffect_runOf (i : Instr) (s : State) : RunEffect s i (runOf s i) := by
  cases i with
  | scInit ctx variant rounds => exact runEffect_runScInit ctx variant rounds s
  | scProcess ctx => exact runEffect_runScProcess ctx s
  | scSeek ctx => exact withLiveSc_induction (fun _ => trivial) fun c hc hl => .scSeek _ hc hl
  | scDispose ctx => exact runEffect_runScDispose ctx s
  | scQuery ctx => exact withLiveSc_induction (fun _ => trivial) fun _ _ _ => .keep _
  | rsaInit ctx keySizeBits hashSel => exact runEffect_runRsaInit ctx keySizeBits hashSel s
  | rsaEnc ctx usePrivate => exact runEffect_rsaDirect ..
  | rsaDec ctx usePrivate => exact runEffect_rsaDirect ..
  | rsaPrivenc ctx => exact runEffect_rsaCrt ..
  | rsaPrivdec ctx => exact runEffect_rsaCrt ..
  | rsaPubenc ctx => exact runEffect_rsaDirect ..
  | rsaPubdec ctx => exact runEffect_rsaDirect ..
  | rsaQuery ctx => exact withLiveRsa_induction (fun _ => trivial) fun _ => .keep _
  | rsaDispose ctx => exact runEffect_runRsaDispose ctx s
  | biB2i littleEndian =>
    simp only [runOf]
    split
    · next h => exact .biB2i littleEndian (by simpa [State.ilenFits] using h)
    · trivial
  | biI2b length littleEndian =>
    simp only [runOf]
    split
    · exact .keep _
    · trivial
  | biXor => exact runEffect_runBiXor s

/-- The contexts and the accumulator after a command are those of its effect; the end writes none of them (R96). -/
theorem exec_effect {i : Instr} {s u : State} (h : exec i s = .next u) :
    ∃ t, Effect s i t ∧ u.sc = t.sc ∧ u.rsa = t.rsa ∧ u.biacc = t.biacc := by
  have hr := runEffect_runOf i s
  rw [exec_eq_complete_runOf] at h
  cases h
  cases hrun : runOf s i with
  | fail f => exact ⟨s, .keep i, rfl, rfl, rfl⟩
  | succeed t out => exact ⟨t, by simpa [hrun, RunEffect] using hr, rfl, rfl, rfl⟩

/-- A slot after slot `k`, which held `c`, is written: the written one, or unchanged. -/
theorem slot_setIfInBounds {α : Type} {n k : Nat} {v : Vector α n} {c : α} (hc : v[k]? = some c) (x : α)
    (j : Fin n) :
    (k = j.val ∧ v[j] = c ∧ (v.setIfInBounds k x)[j] = x) ∨ (v.setIfInBounds k x)[j] = v[j] := by
  by_cases hkj : k = j.val
  · subst hkj
    exact .inl ⟨rfl, by simpa using hc, Vector.getElem_setIfInBounds_self ..⟩
  · exact .inr (Vector.getElem_setIfInBounds_ne j.isLt hkj)

/-- Settles O24: an effect writes at most the slot its command names. -/
theorem commandsTouchOnlyTheirContext : Obligations.CommandsTouchOnlyTheirContext := by
  intro i s u h
  obtain ⟨t, heffect, hsc, hrsa, hbiacc⟩ := exec_effect h
  rw [hsc, hrsa, hbiacc]
  refine ⟨fun j hj => ?sc, fun j hj => ?rsa, fun hne => ?biacc⟩
  case sc =>
    cases heffect with
    | scInit | scProcess | scSeek | scDispose => exact Vector.getElem_setIfInBounds_ne j.isLt hj
    | _ => rfl
  case rsa =>
    cases heffect with
    | rsaInit | rsaDispose => exact Vector.getElem_setIfInBounds_ne j.isLt hj
    | _ => rfl
  case biacc =>
    cases heffect with
    | biB2i le => exact absurd rfl (hne le)
    | _ => rfl

/-- Settles O27: only the effects of `SC_INIT`, `RSA_INIT` and the disposals write a lifecycle flag, `SC_PROCESS` and
`SC_SEEK` write a LIVE context back as LIVE. -/
theorem lifecycleTransitions : Obligations.LifecycleTransitions := by
  intro i s u h
  obtain ⟨t, heffect, hsc, hrsa, -⟩ := exec_effect h
  rw [hsc, hrsa]
  refine ⟨fun j => ?sc, fun j => ?rsa⟩
  case sc =>
    cases heffect with
    | scInit variant rounds hc hl =>
      rcases slot_setIfInBounds hc (scInitCtx variant rounds s) j with ⟨hj, rfl, hx⟩ | hx
      · exact .inr (.inl ⟨_, _, _, rfl, hj, hl, congrArg ScCtx.life hx⟩)
      · exact .inl (congrArg ScCtx.life hx)
    | @scProcess ctx c words hc | @scSeek ctx c words hc =>
      rcases slot_setIfInBounds hc { c with state := words } j with ⟨-, rfl, hx⟩ | hx
      · exact .inl (congrArg ScCtx.life hx :)
      · exact .inl (congrArg ScCtx.life hx)
    | scDispose hc hl =>
      rcases slot_setIfInBounds hc disposedSc j with ⟨hj, rfl, hx⟩ | hx
      · exact .inr (.inr ⟨_, rfl, hj, hl, congrArg ScCtx.life hx⟩)
      · exact .inl (congrArg ScCtx.life hx)
    | _ => exact .inl rfl
  case rsa =>
    cases heffect with
    | @rsaInit ctx c keySizeBits hashSel rs hc hl =>
      rcases slot_setIfInBounds hc (rsaInitCtx rs s.keyLe keySizeBits hashSel) j with ⟨hj, rfl, hx⟩ | hx
      · exact .inr (.inl ⟨_, _, _, rfl, hj, hl, congrArg RsaCtx.life hx⟩)
      · exact .inl (congrArg RsaCtx.life hx)
    | @rsaDispose ctx c hc hl =>
      rcases slot_setIfInBounds hc { c with life := .disposed } j with ⟨hj, rfl, hx⟩ | hx
      · exact .inr (.inr ⟨_, rfl, hj, hl, congrArg RsaCtx.life hx⟩)
      · exact .inl (congrArg RsaCtx.life hx)
    | _ => exact .inl rfl

/-! ### The invariant -/

theorem leToNat_lt (b : Bytes) : leToNat b < 2 ^ (8 * b.length) := by
  induction b with
  | nil => simp [leToNat]
  | cons x b ih =>
    have hx := x.isLt
    rw [leToNat, List.length_cons, Nat.mul_succ, pow_add]
    omega

/-- The value of at most `n` bytes fits `8 n` bits (R230). -/
theorem bytesToInteger_lt {b : Bytes} {n : Nat} (h : b.length ≤ n) (littleEndian : Bool) :
    bytesToInteger b littleEndian < 2 ^ (8 * n) := by
  have hpow : 2 ^ (8 * b.length) ≤ 2 ^ (8 * n) := Nat.pow_le_pow_right (by decide) (by omega)
  cases littleEndian
  · have := leToNat_lt b.reverse
    rw [List.length_reverse] at this
    exact this.trans_le hpow
  · exact (leToNat_lt b).trans_le hpow

/-- A usable field has at most `FIELD_MAX_BYTES` bytes (R166), so its value fits. -/
theorem fieldVal_lt (rs : List KeyRecord) (keyLe : Bool) (t : Nat) :
    fieldVal rs keyLe t < 2 ^ (8 * Config.fieldMaxBytes) := by
  unfold fieldVal
  split
  · next h =>
    simp only [fieldOk, Bool.and_eq_true, decide_eq_true_eq] at h
    obtain ⟨-, hlen⟩ := h
    exact bytesToInteger_lt hlen keyLe
  · positivity

theorem groupVal_of_false {avail : Bool} (h : avail = false) (rs : List KeyRecord) (keyLe : Bool) (t : Nat) :
    groupVal avail rs keyLe t = 0 := by simp [groupVal, h]

theorem groupVal_of_true {avail : Bool} (h : avail = true) (rs : List KeyRecord) (keyLe : Bool) (t : Nat) :
    groupVal avail rs keyLe t = fieldVal rs keyLe t := by simp [groupVal, h]

theorem groupVal_lt (avail : Bool) (rs : List KeyRecord) (keyLe : Bool) (t : Nat) :
    groupVal avail rs keyLe t < 2 ^ (8 * Config.fieldMaxBytes) := by
  cases avail
  · exact Nat.two_pow_pos _
  · exact fieldVal_lt rs keyLe t

theorem rsaInitCtx_bounded (rs : List KeyRecord) (keyLe : Bool) (keySizeBits : BitVec 16) (hashSel : BitVec 4) :
    (rsaInitCtx rs keyLe keySizeBits hashSel).Bounded :=
  ⟨groupVal_lt .., groupVal_lt .., groupVal_lt .., groupVal_lt .., groupVal_lt .., groupVal_lt .., groupVal_lt ..,
    groupVal_lt ..⟩

theorem fieldVal_ne_zero_of_publicOk {rs : List KeyRecord} {keyLe : Bool} (h : publicOk rs keyLe = true) :
    fieldVal rs keyLe 1 ≠ 0 := by
  simp only [publicOk, Bool.and_eq_true, decide_eq_true_eq] at h
  obtain ⟨-, hn⟩ := h
  exact hn

theorem fieldVal_ne_zero_of_crtOk {rs : List KeyRecord} {keyLe : Bool} (h : crtOk rs keyLe = true) :
    fieldVal rs keyLe 4 ≠ 0 ∧ fieldVal rs keyLe 5 ≠ 0 := by
  simp only [crtOk, Bool.and_eq_true, decide_eq_true_eq] at h
  obtain ⟨⟨-, hp⟩, hq⟩ := h
  exact ⟨hp, hq⟩

/-- The fields of an unavailable group are 0 and those R167 asks for are not (R167, R168). -/
theorem rsaInitCtx_groupsOk (rs : List KeyRecord) (keyLe : Bool) (keySizeBits : BitVec 16) (hashSel : BitVec 4) :
    (rsaInitCtx rs keyLe keySizeBits hashSel).GroupsOk := by
  refine ⟨fun h => ⟨?_, ?_⟩, fun h => ?n, fun h => ?_, fun h => ⟨?_, ?_, ?_, ?_, ?_⟩, fun h => ?primes⟩
  case n =>
    have hn : groupVal (publicOk rs keyLe) rs keyLe 1 = fieldVal rs keyLe 1 := groupVal_of_true h ..
    exact hn.trans_ne (fieldVal_ne_zero_of_publicOk h)
  case primes =>
    have hval (t : Nat) : groupVal (crtOk rs keyLe) rs keyLe t = fieldVal rs keyLe t := groupVal_of_true h ..
    obtain ⟨hp, hq⟩ := fieldVal_ne_zero_of_crtOk h
    exact ⟨(hval 4).trans_ne hp, (hval 5).trans_ne hq⟩
  all_goals exact groupVal_of_false h ..

/-- `hashId` and `hashLen` of any selector are one of R164's pairs. -/
theorem hashOf_mem (hashSel : BitVec 4) :
    (hashIdOf hashSel, hashLenOf hashSel) ∈ [(0#3, 20#8), (1#3, 32#8), (2#3, 48#8), (3#3, 64#8), (7#3, 0#8)] := by
  revert hashSel
  decide

/-- The context `RSA_INIT` builds meets the invariant (R169). -/
theorem rsaInitCtx_ok {keySizeBits : BitVec 16} (hk : keySizeOk keySizeBits = true) (rs : List KeyRecord)
    (keyLe : Bool) (hashSel : BitVec 4) : (rsaInitCtx rs keyLe keySizeBits hashSel).Ok :=
  ⟨fun h => Life.noConfusion h,
    fun _ => ⟨rsaInitCtx_bounded .., hk, rsaInitCtx_groupsOk .., hashOf_mem hashSel⟩⟩

/-- Disposal keeps all of a LIVE context but its flag (R179), so it keeps the invariant. -/
theorem RsaCtx.Ok.disposed {c : RsaCtx} (h : c.Ok) (hl : c.life = .live) : ({ c with life := .disposed } : RsaCtx).Ok :=
  ⟨fun h => Life.noConfusion h, fun _ => h.2 (by simp [hl])⟩

/-- A property of every slot outlives a write to one of them, when the value written has it by what the slot held. -/
theorem forall_slot_setIfInBounds {α : Type} {n k : Nat} {v : Vector α n} {c x : α} {P : α → Prop}
    (hc : v[k]? = some c) (hx : P c → P x) (h : ∀ j : Fin n, P v[j]) (j : Fin n) : P (v.setIfInBounds k x)[j] := by
  rcases slot_setIfInBounds hc x j with ⟨-, hj, e⟩ | e <;> rw [e]
  · exact hx (hj ▸ h j)
  · exact h j

/-- A LIVE stream context may hold any words (R40). -/
theorem ScCtx.ok_of_live {c : ScCtx} (hl : c.life = .live) : c.Ok := fun h => absurd hl h

/-- A command's effect keeps the stream contexts' invariant (R40). -/
theorem Effect.scOk {i : Instr} {s t : State} (h : Effect s i t) (hs : ∀ j : Fin Config.numScCtx, (s.sc[j]).Ok) :
    ∀ j : Fin Config.numScCtx, (t.sc[j]).Ok := by
  cases h with
  | scInit variant rounds hc => exact forall_slot_setIfInBounds hc (fun _ => ScCtx.ok_of_live rfl) hs
  | scProcess words hc hl | scSeek words hc hl =>
    exact forall_slot_setIfInBounds hc (fun _ => ScCtx.ok_of_live hl) hs
  | scDispose hc => exact forall_slot_setIfInBounds hc (fun _ _ => ⟨rfl, rfl, rfl⟩) hs
  | _ => exact hs

/-- A command's effect keeps the RSA contexts' invariant (R45). -/
theorem Effect.rsaOk {i : Instr} {s t : State} (h : Effect s i t) (hs : ∀ j : Fin Config.numRsaCtx, (s.rsa[j]).Ok) :
    ∀ j : Fin Config.numRsaCtx, (t.rsa[j]).Ok := by
  cases h with
  | rsaInit hashSel rs hc _ hk => exact forall_slot_setIfInBounds hc (fun _ => rsaInitCtx_ok hk rs s.keyLe hashSel) hs
  | rsaDispose hc hl => exact forall_slot_setIfInBounds hc (fun hok => hok.disposed hl) hs
  | _ => exact hs

/-- A command's effect keeps `BIACC` within its field (R48): `BI_B2I` reads at most `IBUF_BYTES` bytes. -/
theorem Effect.biacc_lt {i : Instr} {s t : State} (h : Effect s i t) (hs : s.biacc < 2 ^ (8 * Config.ibufBytes)) :
    t.biacc < 2 ^ (8 * Config.ibufBytes) := by
  cases h with
  | biB2i le hlen => exact bytesToInteger_lt (by rwa [operand_length]) le
  | _ => exact hs

/-- Every command keeps the invariant. -/
theorem exec_keepsInv {i : Instr} {s u : State} (hs : s.Inv) (h : exec i s = .next u) : u.Inv := by
  obtain ⟨hibuf, ⟨hwf, hbelow⟩, hcfg, -, -, hsc, hrsa, hbiacc, -⟩ := hs
  obtain ⟨-, -, -, -, hcfg', hibuf', -, -⟩ := commandsKeepOperands i s u h
  obtain ⟨⟨code, hcode, hstatus⟩, -, -, htemps⟩ := commandsWriteStatus i s u h
  obtain ⟨out, hlen, holen, hobuf⟩ := exec_writesResult h
  obtain ⟨t, heffect, hsc', hrsa', hbiacc'⟩ := exec_effect h
  have hobufOk : bufferOk u.obuf Config.obufBytes :=
    hobuf ▸ ⟨Memory.wf_writeBytes hwf 0 out, Memory.below_writeBytes hbelow 0 out (by omega)⟩
  exact ⟨hibuf' ▸ hibuf, hobufOk, hcfg' ▸ hcfg, statusLegal_of_toNat hcode hstatus, holen ▸ hlen,
    hsc' ▸ heffect.scOk hsc, hrsa' ▸ heffect.rsaOk hrsa, hbiacc' ▸ heffect.biacc_lt hbiacc, htemps⟩

/-- A failing command's end keeps the invariant (R255). -/
theorem takeFailure_keepsInv {s : State} (hs : s.Inv) (op : BitVec 8) (f : Failure) : (takeFailure op f s).Inv := by
  obtain ⟨hibuf, hobuf, hcfg, -, -, hsc, hrsa, hbiacc, -⟩ := hs
  have hstatus := statusWord_toNat op f.code_range.2
  exact ⟨hibuf, hobuf, hcfg, statusLegal_of_toNat f.code_range.2 hstatus, Nat.zero_le _, hsc, hrsa, hbiacc,
    rfl, rfl, rfl⟩

/-- A write of any word to `CMD` keeps the invariant. -/
theorem issueCommand_keepsInv {w : Word} {s u : State} (hs : s.Inv) (h : issueCommand w s = .next u) : u.Inv := by
  unfold issueCommand at h
  split at h
  · exact exec_keepsInv hs h
  · cases h
    exact takeFailure_keepsInv hs _ _

/-- `CFG` keeps the low three bits of what is written (R32). -/
theorem cfgStored_toNat (v : Word) : (cfgStored v).toNat = v.toNat % 8 := by
  rw [cfgStored, BitVec.toNat_and]
  exact Nat.and_two_pow_sub_one_eq_mod v.toNat 3

/-- A legal store keeps the invariant: `CFG` stays below 8, and an aligned word of the `IBUF` window stays in the
buffer (R32, R64). -/
theorem writeWord_keepsInv {s : State} (hs : s.Inv) {off : Nat} (halign : off % 4 = 0) (v : Word) :
    (writeWord s off v).Inv := by
  have ⟨⟨hwf, hbelow⟩, hobuf, hcfg, hrest⟩ := hs
  unfold writeWord
  split_ifs with hoffCfg hoffIlen hoffArg0 hoffArg1 hoffArg2 hwindow
  · have hstored : (cfgStored v).toNat < 8 := by rw [cfgStored_toNat]; omega
    exact ⟨⟨hwf, hbelow⟩, hobuf, hstored, hrest⟩
  · exact hs
  · exact hs
  · exact hs
  · exact hs
  · have hfit : off - Config.ibufBase + (bytes32 v).length ≤ Config.ibufBytes := by
      simp only [Config.ibufBase, Config.obufBase, Config.ibufBytes, bytes32_length] at hwindow ⊢
      omega
    exact ⟨⟨Memory.wf_writeBytes hwf _ _, Memory.below_writeBytes hbelow _ _ hfit⟩, hobuf, hcfg, hrest⟩
  · exact hs

/-- A bus write keeps the invariant: it issues a command, stores, or is not legal. -/
theorem busWrite_keepsInv {s u : State} (hs : s.Inv) {width : Nat} {off : BitVec 16} {v : Word}
    (h : busWrite width off v s = .next u) : u.Inv := by
  unfold busWrite at h
  split at h
  · next hl =>
    obtain ⟨-, halign, -⟩ := (legalAccess_iff width off).1 hl
    split at h
    · exact issueCommand_keepsInv (s := { s with resp := .done }) hs h
    · cases h
      exact writeWord_keepsInv hs halign v
  · cases h
    exact hs

/-- Every stream slot at reset (R53). -/
theorem State.reset_sc (j : Fin Config.numScCtx) : State.reset.sc[j] = ScCtx.reset :=
  Vector.getElem_replicate j.isLt

/-- Every RSA slot at reset (R53). -/
theorem State.reset_rsa (j : Fin Config.numRsaCtx) : State.reset.rsa[j] = RsaCtx.reset :=
  Vector.getElem_replicate j.isLt

/-- Settles O58: the reset state is all zero and its slots are FREE. -/
theorem invariantHoldsAtReset : Obligations.InvariantHoldsAtReset := by
  refine ⟨by decide, by decide, by decide, by decide, by decide, fun j => ?_, fun j => ?_, Nat.two_pow_pos _,
    rfl, rfl, rfl⟩
  · exact State.reset_sc j ▸ fun _ => ⟨rfl, rfl, rfl⟩
  · exact State.reset_rsa j ▸ ⟨fun _ => rfl, fun h => absurd rfl h⟩

/-- Settles O59: a step is idle, a read, a bus write or a reset, and each keeps the invariant. -/
theorem stepKeepsInvariant : Obligations.StepKeepsInvariant := by
  intro s t hs h
  cases hp : s.pending with
  | nil =>
    rw [step_nil hp] at h
    cases h
    exact hs
  | cons ev rest =>
    cases ev with
    | read width off =>
      rw [step_read hp] at h
      cases h
      exact hs
    | write width off v =>
      rw [step_write hp] at h
      exact busWrite_keepsInv (s := { s with pending := rest }) hs h
    | reset =>
      rw [step_reset hp] at h
      cases h
      exact invariantHoldsAtReset

/-! ### What a command reads of `IBUF` -/

/-- A run with another `IBUF` in its end state. -/
def RunResult.withIbuf (m : Memory) : RunResult → RunResult
  | .fail f => .fail f
  | .succeed t out => .succeed { t with ibuf := m } out

theorem complete_withIbuf (op : BitVec 8) (s : State) (r : RunResult) (m : Memory) :
    complete op { s with ibuf := m } (r.withIbuf m) = { complete op s r with ibuf := m } := by
  cases r <;> rfl

theorem withLiveSc_withIbuf {ctx : BitVec 4} {s : State} {m : Memory} {body body' : ScCtx → RunResult}
    (h : ∀ c, body' c = (body c).withIbuf m) :
    withLiveSc ctx { s with ibuf := m } body' = (withLiveSc ctx s body).withIbuf m := by
  simp only [withLiveSc]
  split
  · rfl
  · split
    · exact h _
    · rfl

theorem withLiveRsa_withIbuf {ctx : BitVec 4} {s : State} {m : Memory} {body body' : RsaCtx → RunResult}
    (h : ∀ c, body' c = (body c).withIbuf m) :
    withLiveRsa ctx { s with ibuf := m } body' = (withLiveRsa ctx s body).withIbuf m := by
  simp only [withLiveRsa]
  split
  · rfl
  · split
    · exact h _
    · rfl

theorem withPayload_withIbuf {c : RsaCtx} {dir : Direction} {s : State} {m : Memory} {body body' : RunResult}
    (h : body' = body.withIbuf m) :
    withPayload c dir { s with ibuf := m } body' = (withPayload c dir s body).withIbuf m := by
  simp only [withPayload]
  split
  · rfl
  · split
    · rfl
    · exact h

/-- `m` holds the bytes of `IBUF` below `ILEN`. -/
def AgreesBelowIlen (m : Memory) (s : State) : Prop :=
  ∀ a, a < s.ilen.toNat → Memory.read m a = Memory.read s.ibuf a

section

variable {s : State} {m : Memory}

/-- The operand lies below `ILEN` (R92). -/
theorem AgreesBelowIlen.operand (h : AgreesBelowIlen m s) : ({ s with ibuf := m } : State).operand = s.operand :=
  Memory.readBytes_congr _ _ _ _ fun i _ hi => h i (by simpa using hi)

/-- When the split fits `ILEN`, the first part lies below it (R92). -/
theorem AgreesBelowIlen.firstPart (h : AgreesBelowIlen m s) (hsplit : s.splitFits = true) :
    ({ s with ibuf := m } : State).firstPart = s.firstPart := by
  simp only [State.splitFits, decide_eq_true_eq] at hsplit
  exact Memory.readBytes_congr _ _ _ _ fun i _ hi => h i (by dsimp only at hi; omega)

/-- When the split fits `ILEN`, the second part lies below it (R92). -/
theorem AgreesBelowIlen.secondPart (h : AgreesBelowIlen m s) (hsplit : s.splitFits = true) :
    ({ s with ibuf := m } : State).secondPart = s.secondPart := by
  simp only [State.splitFits, decide_eq_true_eq] at hsplit
  exact Memory.readBytes_congr _ _ _ _ fun i _ hi => h i (by dsimp only at hi; omega)

theorem runScInit_withIbuf (h : AgreesBelowIlen m s) (ctx : BitVec 4) (variant : Variant) (rounds : BitVec 16) :
    runScInit ctx variant rounds { s with ibuf := m } = (runScInit ctx variant rounds s).withIbuf m := by
  have hctx (hlen : scInitLengthsOk variant s = true) :
      scInitCtx variant rounds { s with ibuf := m } = scInitCtx variant rounds s := by
    simp only [scInitLengthsOk, Bool.and_eq_true] at hlen
    simp only [scInitCtx, h.firstPart hlen.2, h.secondPart hlen.2]
    rfl
  have hok : scInitLengthsOk variant { s with ibuf := m } = scInitLengthsOk variant s := rfl
  simp only [runScInit, hok]
  split
  · rfl
  · split
    · rfl
    · split
      · next hlen => simp only [hctx hlen]; rfl
      · rfl

theorem runScProcess_withIbuf (h : AgreesBelowIlen m s) (ctx : BitVec 4) :
    runScProcess ctx { s with ibuf := m } = (runScProcess ctx s).withIbuf m := by
  refine withLiveSc_withIbuf fun c => ?_
  have hfits : ({ s with ibuf := m } : State).ilenFits = s.ilenFits := rfl
  simp only [h.operand, hfits]
  split <;> rfl

theorem runScDispose_withIbuf (ctx : BitVec 4) :
    runScDispose ctx { s with ibuf := m } = (runScDispose ctx s).withIbuf m := by
  simp only [runScDispose]
  split
  · rfl
  · split <;> rfl

theorem runRsaInit_withIbuf (h : AgreesBelowIlen m s) (ctx : BitVec 4) (keySizeBits : BitVec 16)
    (hashSel : BitVec 4) :
    runRsaInit ctx keySizeBits hashSel { s with ibuf := m }
      = (runRsaInit ctx keySizeBits hashSel s).withIbuf m := by
  have hfits : ({ s with ibuf := m } : State).ilenFits = s.ilenFits := rfl
  simp only [runRsaInit, h.operand, hfits]
  split
  · rfl
  · split
    · rfl
    · split
      · split
        · split <;> rfl
        · rfl
      · rfl

/-- A transform's payload is the operand (R171, R174). -/
theorem AgreesBelowIlen.payloadInteger (h : AgreesBelowIlen m s) :
    payloadInteger { s with ibuf := m } = payloadInteger s := by
  rw [Machine.payloadInteger, h.operand]
  rfl

theorem rsaDirect_withIbuf (h : AgreesBelowIlen m s) (ctx : BitVec 4) (usePrivate : Bool) (dir : Direction) :
    rsaDirect ctx usePrivate dir { s with ibuf := m } = (rsaDirect ctx usePrivate dir s).withIbuf m := by
  refine withLiveRsa_withIbuf fun c => withPayload_withIbuf ?_
  simp only [h.payloadInteger]
  split <;> split <;> rfl

theorem rsaCrt_withIbuf (h : AgreesBelowIlen m s) (ctx : BitVec 4) (dir : Direction) :
    rsaCrt ctx dir { s with ibuf := m } = (rsaCrt ctx dir s).withIbuf m := by
  refine withLiveRsa_withIbuf fun c => withPayload_withIbuf ?_
  simp only [h.payloadInteger]
  split <;> rfl

theorem runRsaDispose_withIbuf (ctx : BitVec 4) :
    runRsaDispose ctx { s with ibuf := m } = (runRsaDispose ctx s).withIbuf m := by
  simp only [runRsaDispose]
  split
  · rfl
  · split <;> rfl

theorem runBiXor_withIbuf (h : AgreesBelowIlen m s) :
    runBiXor { s with ibuf := m } = (runBiXor s).withIbuf m := by
  have hfits : ({ s with ibuf := m } : State).ilenFits = s.ilenFits := rfl
  have hsplit : ({ s with ibuf := m } : State).splitFits = s.splitFits := rfl
  simp only [runBiXor, hfits, hsplit]
  split
  · next hlen =>
    simp only [Bool.and_eq_true] at hlen
    rw [h.firstPart hlen.2, h.secondPart hlen.2]
    split <;> rfl
  · rfl

/-- With another `IBUF` that agrees below `ILEN` a command runs as before. -/
theorem runOf_withIbuf (h : AgreesBelowIlen m s) (i : Instr) :
    runOf { s with ibuf := m } i = (runOf s i).withIbuf m := by
  cases i with
  | scInit ctx variant rounds => exact runScInit_withIbuf h ..
  | scProcess ctx => exact runScProcess_withIbuf h ctx
  | scSeek ctx => exact withLiveSc_withIbuf fun _ => rfl
  | scDispose ctx => exact runScDispose_withIbuf ctx
  | scQuery ctx => exact withLiveSc_withIbuf fun _ => rfl
  | rsaInit ctx keySizeBits hashSel => exact runRsaInit_withIbuf h ..
  | rsaEnc ctx usePrivate => exact rsaDirect_withIbuf h ..
  | rsaDec ctx usePrivate => exact rsaDirect_withIbuf h ..
  | rsaPrivenc ctx => exact rsaCrt_withIbuf h ..
  | rsaPrivdec ctx => exact rsaCrt_withIbuf h ..
  | rsaPubenc ctx => exact rsaDirect_withIbuf h ..
  | rsaPubdec ctx => exact rsaDirect_withIbuf h ..
  | rsaQuery ctx => exact withLiveRsa_withIbuf fun _ => rfl
  | rsaDispose ctx => exact runRsaDispose_withIbuf ctx
  | biB2i littleEndian =>
    have hfits : ({ s with ibuf := m } : State).ilenFits = s.ilenFits := rfl
    simp only [runOf, h.operand, hfits]
    split <;> rfl
  | biI2b length littleEndian =>
    simp only [runOf]
    split <;> rfl
  | biXor => exact runBiXor_withIbuf h

end

/-- Settles O25: the run is the same but for the `IBUF` it carries, and so is its end. -/
theorem ibufBeyondIlenIsNotRead : Obligations.IbufBeyondIlenIsNotRead := by
  intro i s m h
  refine ⟨_, exec_eq_complete_runOf i s, ?_⟩
  rw [exec_eq_complete_runOf, runOf_withIbuf h, complete_withIbuf]

/-! ### The registers -/

/-- A legal read of the register block returns the register (R30). -/
theorem step_readRegister {s : State} {rest : List HostEvent} {off : BitVec 16} (halign : off.toNat % 4 = 0)
    (hregs : off.toNat < Config.regsEnd) (h : s.pending = .read 32 off :: rest) :
    step s = .next { s with pending := rest, resp := .data (readRegister s off.toNat) } := by
  have hlegal : legalAccess 32 off = true := (legalAccess_iff 32 off).2 ⟨rfl, halign, .inl hregs⟩
  rw [step_read h, busRead, if_pos hlegal, readWord, if_pos hregs]
  rfl

/-- Two lifecycle flags packed (R38, R39). -/
theorem packLives_map_two {α : Type} (life : α → Life) (v : Vector α 2) :
    packLives (v.toList.map life) = (life v[0]).code + 4 * (life v[1]).code := by
  simp [toList_two, packLives]

/-- Settles O14: a read answers and changes nothing, and what it answers is the register at its offset. -/
theorem registerReads : Obligations.RegisterReads := by
  intro s rest off
  refine ⟨fun width h => ⟨_, step_read h⟩, fun v hv h => ?_⟩
  have hscstat : s.scstat = BitVec.ofNat 32 ((s.sc[0]).life.code + 4 * (s.sc[1]).life.code) :=
    congrArg (BitVec.ofNat 32) (packLives_map_two ScCtx.life s.sc)
  have hrsastat : s.rsastat = BitVec.ofNat 32 ((s.rsa[0]).life.code + 4 * (s.rsa[1]).life.code) :=
    congrArg (BitVec.ofNat 32) (packLives_map_two RsaCtx.life s.rsa)
  rw [← hscstat, ← hrsastat] at hv
  simp only [List.mem_cons, Prod.mk.injEq, List.not_mem_nil, or_false] at hv
  rcases hv with ⟨rfl, rfl⟩ | ⟨rfl, rfl⟩ | ⟨rfl, rfl⟩ | ⟨rfl, rfl⟩ | ⟨rfl, rfl⟩ | ⟨rfl, rfl⟩ | ⟨rfl, rfl⟩
      | ⟨rfl, rfl⟩ | ⟨rfl, rfl⟩ | ⟨rfl, rfl⟩ | ⟨rfl, rfl⟩ <;>
    exact step_readRegister (by decide) (by decide) h

/-- A legal write that does not go to `CMD` stores (R63). -/
theorem step_store {s : State} {rest : List HostEvent} {off : BitVec 16} {v : Word}
    (hlegal : legalAccess 32 off = true) (hcmd : off.toNat ≠ Config.offCmd)
    (h : s.pending = .write 32 off v :: rest) :
    step s = .next { writeWord { s with pending := rest } off.toNat v with resp := .done } := by
  rw [step_write h, busWrite_store hlegal hcmd]

/-- A write past the `IBUF` window is discarded (R65). -/
theorem writeWord_of_obufBase_le {s : State} {off : Nat} (h : Config.obufBase ≤ off) (v : Word) :
    writeWord s off v = s := by
  have hne {r : Nat} (hr : r < Config.obufBase) : off ≠ r := by omega
  rw [writeWord, if_neg (hne (by decide)), if_neg (hne (by decide)), if_neg (hne (by decide)),
    if_neg (hne (by decide)), if_neg (hne (by decide)), if_neg (fun hwindow => by omega)]

/-- Settles O15: a register's offset selects its arm of `writeWord`, and the `OBUF` window selects none. -/
theorem registerWrites : Obligations.RegisterWrites := by
  intro s t rest off v ht h
  rcases ht with hreg | ⟨hlo, hhi, halign, rfl⟩
  · have hcfg : BitVec.ofNat 32 (v.toNat % 8) = cfgStored v :=
      BitVec.eq_of_toNat_eq (by rw [cfgStored_toNat, BitVec.toNat_ofNat]; omega)
    rw [hcfg] at hreg
    simp only [List.mem_cons, Prod.mk.injEq, List.not_mem_nil, or_false] at hreg
    rcases hreg with ⟨rfl, rfl⟩ | ⟨rfl, rfl⟩ | ⟨rfl, rfl⟩ | ⟨rfl, rfl⟩ | ⟨rfl, rfl⟩ | ⟨rfl, rfl⟩ | ⟨rfl, rfl⟩
        | ⟨rfl, rfl⟩ | ⟨rfl, rfl⟩ | ⟨rfl, rfl⟩ <;>
      exact step_store (by decide) (by decide) h
  · have hlegal : legalAccess 32 off = true := (legalAccess_iff 32 off).2 ⟨rfl, halign, .inr ⟨by omega, by omega⟩⟩
    have hcmd : off.toNat ≠ Config.offCmd := by simp only [Config.offCmd]; omega
    rw [step_store hlegal hcmd h, writeWord_of_obufBase_le hlo]

/-- Settles O11: the registers and buffers by computation, the vectors slot by slot. -/
theorem resetValues : Obligations.ResetValues := by
  refine ⟨by decide, rfl, rfl, rfl, rfl, rfl, rfl, rfl, by decide, by decide, fun j => ?sc, fun j => ?rsa, rfl,
    Memory.read_nil, Memory.read_nil, fun k => ?x, fun k => ?ks, rfl⟩
  case sc =>
    rw [State.reset_sc]
    exact ⟨rfl, rfl, rfl, fun k => Vector.getElem_replicate k.isLt⟩
  case rsa => exact State.reset_rsa j
  case x => exact Vector.getElem_replicate k.isLt
  case ks => exact Vector.getElem_replicate k.isLt

end Sys2Proof.Machine
end

section
/-! Proofs for 20_memory.md: accesses CORE does not implement (O13) and the two buffer windows (O16, O17). -/

namespace Sys2Proof.Machine

/-! ### Byte lanes -/

/-- Lane `j` of a word, as the byte sequence holds it (R62, R121). -/
theorem bytes32_getD (w : Word) {j : Nat} (h : j < 4) : (bytes32 w).getD j 0#8 = w.extractLsb' (8 * j) 8 :=
  match j, h with
  | 0, _ | 1, _ | 2, _ | 3, _ => rfl

/-- Lane `j` of the word at offset `i` is byte `i + j` of the sequence (R62, R121). -/
theorem extractLsb'_le32 (bs : Bytes) (i : Nat) {j : Nat} (h : j < 4) :
    (le32 bs i).extractLsb' (8 * j) 8 = bs.getD (i + j) 0#8 := by
  have h0 := (bs.getD i 0#8).isLt
  have h1 := (bs.getD (i + 1) 0#8).isLt
  have h2 := (bs.getD (i + 2) 0#8).isLt
  have h3 := (bs.getD (i + 3) 0#8).isLt
  apply BitVec.eq_of_toNat_eq
  simp only [le32, BitVec.extractLsb'_toNat, BitVec.toNat_ofNat, Nat.shiftRight_eq_div_pow]
  match j, h with
  | 0, _ =>
    rw [Nat.add_zero i]
    omega
  | 1, _ | 2, _ | 3, _ => omega

/-- Lane `j` of a word read from the `OBUF` window (R65). -/
theorem extractLsb'_readObuf (s : State) (i : Nat) {j : Nat} (h : j < 4) :
    (readObuf s i).extractLsb' (8 * j) 8 = obufVisible s (i + j) := by
  rw [readObuf, extractLsb'_le32 _ _ h]
  match j, h with
  | 0, _ | 1, _ | 2, _ | 3, _ => rfl

/-! ### Which accesses reach a window -/

/-- The offset of word `k` of a window is not truncated, and an access there is legal and not one to `CMD`. -/
theorem windowOffset_legal {base k : Nat} (hlo : 0x4000 ≤ base) (hhi : base ≤ 0x8000) (hk : 4 * k < 16384)
    (halign : base % 4 = 0) :
    (BitVec.ofNat 16 (base + 4 * k)).toNat = base + 4 * k
      ∧ legalAccess 32 (BitVec.ofNat 16 (base + 4 * k)) = true
      ∧ (BitVec.ofNat 16 (base + 4 * k)).toNat ≠ Config.offCmd := by
  have hoff : (BitVec.ofNat 16 (base + 4 * k)).toNat = base + 4 * k := by
    rw [BitVec.toNat_ofNat]
    omega
  rw [legalAccess_iff, hoff, Config.offCmd]
  omega

/-- A legal read answers the word at its offset (R61). -/
theorem busRead_legal {s : State} {width : Nat} {off : BitVec 16} (hl : legalAccess width off = true) :
    busRead s width off = .data (readWord s off.toNat) := if_pos hl

/-- A read CORE does not implement answers no word (R61, R66). -/
theorem busRead_error {s : State} {width : Nat} {off : BitVec 16} (hl : legalAccess width off = false) :
    busRead s width off = .busError := by
  rw [busRead, hl]
  rfl

/-- The `IBUF` window reads as 0 (R64). -/
theorem readWord_ibufWindow (s : State) {off : Nat} (hlo : Config.ibufBase ≤ off) (hhi : off < Config.obufBase) :
    readWord s off = 0#32 := by
  have hregs : ¬off < Config.regsEnd := Nat.not_lt.2 (Nat.le_trans (by decide) hlo)
  rw [readWord, if_neg hregs, if_pos hhi]

/-- The `OBUF` window shows the buffer from its own base on (R65). -/
theorem readWord_obufWindow (s : State) {off : Nat} (h : Config.obufBase ≤ off) :
    readWord s off = readObuf s (off - Config.obufBase) := by
  have hregs : ¬off < Config.regsEnd := Nat.not_lt.2 (Nat.le_trans (by decide) h)
  rw [readWord, if_neg hregs, if_neg (Nat.not_lt.2 h)]

/-- A write in the `IBUF` window stores the word's bytes (R64). -/
theorem writeWord_ibufWindow (s : State) {off : Nat} (hlo : Config.ibufBase ≤ off) (hhi : off < Config.obufBase)
    (v : Word) :
    writeWord s off v = { s with ibuf := Memory.writeBytes s.ibuf (off - Config.ibufBase) (bytes32 v) } := by
  have hne {r : Nat} (hr : r < Config.ibufBase) : off ≠ r := by omega
  rw [writeWord, if_neg (hne (by decide)), if_neg (hne (by decide)), if_neg (hne (by decide)),
    if_neg (hne (by decide)), if_neg (hne (by decide)), if_pos ⟨hlo, hhi⟩]

/-! ### The obligations -/

/-- Settles O13: no such access is legal, and neither a read nor a write that is not legal does anything else. -/
theorem busErrorChangesNothing : Obligations.BusErrorChangesNothing := by
  intro s rest ev width off hev h hbad
  have hillegal : legalAccess width off = false := by
    rw [Bool.eq_false_iff, ne_eq, legalAccess_iff]
    omega
  rcases hev with rfl | ⟨v, rfl⟩
  · rw [step_read h, busRead_error hillegal]
  · rw [step_write h, busWrite_error hillegal]

/-- Settles O16: the store is a write of four bytes at the window's own offset. -/
theorem ibufWindow : Obligations.IbufWindow := by
  intro s rest k v hk
  obtain ⟨hoff, hlegal, hcmd⟩ :=
    windowOffset_legal (base := Config.ibufBase) (by decide) (by decide) hk (by decide)
  have hlo : Config.ibufBase ≤ Config.ibufBase + 4 * k := Nat.le_add_right _ _
  have hhi : Config.ibufBase + 4 * k < Config.obufBase := Nat.add_lt_add_left hk Config.ibufBase
  constructor
  · intro hwf h
    refine ⟨Memory.writeBytes s.ibuf (4 * k) (bytes32 v), ?_, fun j hj => ?_, fun a ha => ?_⟩
    · rw [step_store hlegal hcmd h, hoff, writeWord_ibufWindow _ hlo hhi, Nat.add_sub_cancel_left]
    · rw [Memory.read_writeBytes hwf, bytes32_length, if_pos (by omega), Nat.add_sub_cancel_left, bytes32_getD v hj]
    · rw [Memory.read_writeBytes hwf, bytes32_length, if_neg (by omega)]
  · intro h
    rw [step_read h, busRead_legal hlegal, hoff, readWord_ibufWindow _ hlo hhi]

/-- Settles O17: the read assembles four visible bytes, and the write stores nowhere. -/
theorem obufWindow : Obligations.ObufWindow := by
  intro s rest k w hk
  obtain ⟨hoff, hlegal, hcmd⟩ :=
    windowOffset_legal (base := Config.obufBase) (by decide) (by decide) hk (by decide)
  have hlo : Config.obufBase ≤ Config.obufBase + 4 * k := Nat.le_add_right _ _
  constructor
  · intro h
    refine ⟨readObuf { s with pending := rest } (4 * k), ?_, fun j hj => extractLsb'_readObuf _ _ hj⟩
    rw [step_read h, busRead_legal hlegal, hoff, readWord_obufWindow _ hlo, Nat.add_sub_cancel_left]
  · intro h
    rw [step_store hlegal hcmd h, hoff, writeWord_of_obufBase_le hlo]

end Sys2Proof.Machine
end

section
/-! Proofs for 30_encoding.md: the command word both ways (O1, O2, O4, O5), the opcode map (O3), the write to `CMD`
(O6, O7, O8, O12), the pseudo-instruction `LOAD` (O19) and the key descriptor (O40). -/

namespace Sys2Proof.Machine

open Sys2Proof.Claims

/-! ### The encoder by fields -/

/-- Every command's word is the assembly of its four fields (R91, R93). -/
theorem encode_eq_assemble (i : Instr) :
    encode i = assemble (opcodeOf i) (BitVec.ofNat 4 (ctxOf i)) (BitVec.ofNat 4 (flOf i))
      (BitVec.ofNat 16 (immOf i)) := by
  cases i with
  | scInit ctx variant rounds => cases variant <;> simp [encode, opcodeOf, ctxOf, flOf, immOf, flOfBit, bitOfVariant]
  | rsaEnc ctx flag | rsaDec ctx flag | biB2i flag | biI2b length flag =>
    cases flag <;> simp [encode, opcodeOf, ctxOf, flOf, immOf, flOfBit]
  | _ => simp [encode, opcodeOf, ctxOf, flOf, immOf]

/-- The place of each field in an assembled word (R91). -/
theorem assemble_toNat (op : BitVec 8) (ctx fl : BitVec 4) (imm : BitVec 16) :
    (assemble op ctx fl imm).toNat = op.toNat + ctx.toNat * 2 ^ 8 + fl.toNat * 2 ^ 12 + imm.toNat * 2 ^ 16 := by
  simp only [assemble, BitVec.toNat_append]
  rw [← Nat.shiftLeft_add_eq_or_of_lt op.isLt, ← Nat.shiftLeft_add_eq_or_of_lt ctx.isLt,
    ← Nat.shiftLeft_add_eq_or_of_lt fl.isLt]
  simp only [Nat.shiftLeft_eq]
  omega

theorem opcodeOf_toNat (i : Instr) : (opcodeOf i).toNat = opOf i := by cases i <;> rfl

theorem ctxOf_lt (i : Instr) : ctxOf i < 2 ^ 4 := by
  cases i with
  | biB2i | biI2b | biXor => exact Nat.two_pow_pos 4
  | _ => exact BitVec.isLt _

theorem flOf_lt (i : Instr) : flOf i < 2 ^ 4 := by
  cases i with
  | rsaInit ctx keySizeBits hashSel => exact hashSel.isLt
  | scInit ctx variant rounds => cases variant <;> simp [flOf]
  | rsaEnc ctx flag | rsaDec ctx flag | biB2i flag | biI2b length flag => cases flag <;> simp [flOf]
  | _ => exact Nat.two_pow_pos 4

theorem immOf_lt (i : Instr) : immOf i < 2 ^ 16 := by
  cases i with
  | scInit | rsaInit | biI2b => exact BitVec.isLt _
  | _ => exact Nat.two_pow_pos 16

/-- Settles O4: the word is assembled from the four fields, and none of them is cut short. -/
theorem encodePlacesFields : Obligations.EncodePlacesFields := by
  intro i
  refine ⟨?_, opcodeOf_toNat i⟩
  rw [encode_eq_assemble, assemble_toNat, opcodeOf_toNat, BitVec.toNat_ofNat, BitVec.toNat_ofNat, BitVec.toNat_ofNat,
    Nat.mod_eq_of_lt (ctxOf_lt i), Nat.mod_eq_of_lt (flOf_lt i), Nat.mod_eq_of_lt (immOf_lt i)]

/-! ### The decoder by rows -/

/-- The command of the row of `i` with the operands a word carries. -/
def withOperands (w : Word) : Instr → Instr
  | .scInit _ _ _ => .scInit (ctxField w) (variantOfBit (flagBit w)) (immField w)
  | .scProcess _ => .scProcess (ctxField w)
  | .scSeek _ => .scSeek (ctxField w)
  | .scDispose _ => .scDispose (ctxField w)
  | .scQuery _ => .scQuery (ctxField w)
  | .rsaInit _ _ _ => .rsaInit (ctxField w) (immField w) (flField w)
  | .rsaEnc _ _ => .rsaEnc (ctxField w) (flagBit w)
  | .rsaDec _ _ => .rsaDec (ctxField w) (flagBit w)
  | .rsaPrivenc _ => .rsaPrivenc (ctxField w)
  | .rsaPrivdec _ => .rsaPrivdec (ctxField w)
  | .rsaPubenc _ => .rsaPubenc (ctxField w)
  | .rsaPubdec _ => .rsaPubdec (ctxField w)
  | .rsaQuery _ => .rsaQuery (ctxField w)
  | .rsaDispose _ => .rsaDispose (ctxField w)
  | .biB2i _ => .biB2i (flagBit w)
  | .biI2b _ _ => .biI2b (immField w) (flagBit w)
  | .biXor => .biXor

/-- A row of R93 by fields: the bits of `ctx`, `fl` and `imm` it marks zero, and the number of context slots. -/
structure RowFields where
  ctxZero : BitVec 4
  flZero : BitVec 4
  immZero : BitVec 16
  slots : Option Nat

/-- The row of each command (R93). -/
def rowFields : Instr → RowFields
  | .scInit _ _ _ => ⟨0#4, 0xE#4, 0#16, some Config.numScCtx⟩
  | .scProcess _ => ⟨0#4, 0xF#4, 0xFFFF#16, some Config.numScCtx⟩
  | .scSeek _ => ⟨0#4, 0xF#4, 0xFFFF#16, some Config.numScCtx⟩
  | .scDispose _ => ⟨0#4, 0xF#4, 0xFFFF#16, some Config.numScCtx⟩
  | .scQuery _ => ⟨0#4, 0xF#4, 0xFFFF#16, some Config.numScCtx⟩
  | .rsaInit _ _ _ => ⟨0#4, 0#4, 0#16, some Config.numRsaCtx⟩
  | .rsaEnc _ _ => ⟨0#4, 0xE#4, 0xFFFF#16, some Config.numRsaCtx⟩
  | .rsaDec _ _ => ⟨0#4, 0xE#4, 0xFFFF#16, some Config.numRsaCtx⟩
  | .rsaPrivenc _ => ⟨0#4, 0xF#4, 0xFFFF#16, some Config.numRsaCtx⟩
  | .rsaPrivdec _ => ⟨0#4, 0xF#4, 0xFFFF#16, some Config.numRsaCtx⟩
  | .rsaPubenc _ => ⟨0#4, 0xF#4, 0xFFFF#16, some Config.numRsaCtx⟩
  | .rsaPubdec _ => ⟨0#4, 0xF#4, 0xFFFF#16, some Config.numRsaCtx⟩
  | .rsaQuery _ => ⟨0#4, 0xF#4, 0xFFFF#16, some Config.numRsaCtx⟩
  | .rsaDispose _ => ⟨0#4, 0xF#4, 0xFFFF#16, some Config.numRsaCtx⟩
  | .biB2i _ => ⟨0xF#4, 0xE#4, 0xFFFF#16, none⟩
  | .biI2b _ _ => ⟨0xF#4, 0xE#4, 0#16, none⟩
  | .biXor => ⟨0xF#4, 0xF#4, 0xFFFF#16, none⟩

/-- One command of each row, in the order of R93. -/
def oneOfEach : List Instr :=
  [.scInit 0 .salsa20 0, .scProcess 0, .scSeek 0, .scDispose 0, .scQuery 0, .rsaInit 0 0 0, .rsaEnc 0 false,
    .rsaDec 0 false, .rsaPrivenc 0, .rsaPrivdec 0, .rsaPubenc 0, .rsaPubdec 0, .rsaQuery 0, .rsaDispose 0, .biB2i false,
    .biI2b 0 false, .biXor]

/-- The word is 0 in every bit the row of `i` marks zero (R94). -/
def reservedZero (w : Word) (i : Instr) : Bool :=
  flField w &&& (rowFields i).flZero == 0#4 && immField w &&& (rowFields i).immZero == 0#16
    && ctxField w &&& (rowFields i).ctxZero == 0#4

theorem reservedZero_iff {w : Word} {i : Instr} :
    reservedZero w i = true
      ↔ (flField w &&& (rowFields i).flZero = 0#4 ∧ immField w &&& (rowFields i).immZero = 0#16)
        ∧ ctxField w &&& (rowFields i).ctxZero = 0#4 := by
  simp only [reservedZero, Bool.and_eq_true, beq_iff_eq]

theorem flagsHighZero_iff (w : Word) : flagsHighZero w = true ↔ flField w &&& 0xE#4 = 0#4 := by
  rw [flagsHighZero, decide_eq_true_eq]
  generalize flField w = fl
  revert fl
  decide

/-- A mask of R93 that marks a whole field. -/
theorem and_allOnes_4 (x : BitVec 4) : x &&& 0xF#4 = x := BitVec.and_allOnes

/-- A mask of R93 that marks a whole field. -/
theorem and_allOnes_16 (x : BitVec 16) : x &&& 0xFFFF#16 = x := BitVec.and_allOnes

/-- The decoder on a word with a command's opcode: reserved bits first (R94), then the slot (R95). -/
theorem decode_of_opField {w : Word} {i : Instr} (h : opField w = opcodeOf i) :
    decode w =
      if reservedZero w i then
        if (withOperands w i).wellFormed then .ok (withOperands w i)
        else .error (.ctxOutOfRange (opField w) (ctxField w))
      else .error (.reservedField (opField w)) := by
  cases i with
  | scInit | scProcess | scSeek | scDispose | scQuery =>
    simp [decode, h, opcodeOf, decodeSc, reservedZero, rowFields, withOperands, Instr.wellFormed, flagsHighZero_iff,
      flagsZero, immZero, and_allOnes_4, and_allOnes_16]
  | biB2i | biI2b | biXor =>
    simp [decode, h, opcodeOf, decodeBi, reservedZero, rowFields, withOperands, Instr.wellFormed, flagsHighZero_iff,
      flagsZero, immZero, ctxZero, and_allOnes_4, and_allOnes_16]
  | _ =>
    simp [decode, h, opcodeOf, decodeRsa, reservedZero, rowFields, withOperands, Instr.wellFormed, flagsHighZero_iff,
      flagsZero, immZero, and_allOnes_4, and_allOnes_16]

/-- A word whose `op` byte is no command's (R97). -/
theorem decode_unknownOp {w : Word} (h : ∀ i, opField w ≠ opcodeOf i) :
    decode w = .error (.unknownOp (opField w)) := by
  have hrows : ∀ i ∈ oneOfEach, opField w ≠ opcodeOf i := fun i _ => h i
  simp only [oneOfEach, List.forall_mem_cons, opcodeOf] at hrows
  simp [decode, hrows]

theorem opcodeOf_withOperands (w : Word) (i : Instr) : opcodeOf (withOperands w i) = opcodeOf i := by
  cases i <;> rfl

theorem rowFields_withOperands (w : Word) (i : Instr) : rowFields (withOperands w i) = rowFields i := by
  cases i <;> rfl

theorem withOperands_withOperands (w v : Word) (i : Instr) : withOperands w (withOperands v i) = withOperands w i := by
  cases i <;> rfl

/-- What the decoder accepts, and as which command: a word with the command's opcode and operands, 0 in the reserved
bits, on a slot that exists (R93 to R95). -/
theorem decode_eq_ok_iff {w : Word} {i : Instr} :
    decode w = .ok i
      ↔ opField w = opcodeOf i ∧ reservedZero w i = true ∧ withOperands w i = i ∧ i.wellFormed = true := by
  constructor
  · intro h
    by_cases hop : ∃ j, opField w = opcodeOf j
    · obtain ⟨j, hj⟩ := hop
      rw [decode_of_opField hj] at h
      split_ifs at h with hreserved hwf
      cases h
      rw [opcodeOf_withOperands, withOperands_withOperands, reservedZero, rowFields_withOperands]
      exact ⟨hj, hreserved, rfl, hwf⟩
    · rw [decode_unknownOp (not_exists.1 hop)] at h
      cases h
  · rintro ⟨hop, hreserved, hoperands, hwf⟩
    rw [decode_of_opField hop, if_pos hreserved, hoperands, if_pos hwf]

/-! ### The round trip -/

theorem opField_encode (i : Instr) : opField (encode i) = opcodeOf i := by
  rw [encode_eq_assemble, opField_assemble]

/-- The encoder leaves the reserved bits 0 (R94). -/
theorem reservedZero_encode (i : Instr) : reservedZero (encode i) i = true := by
  have hflag (b : Bool) : flOfBit b &&& 0xE#4 = 0#4 := by cases b <;> rfl
  cases i <;> simp [reservedZero, rowFields, encode, hflag]

theorem flagBit_assemble (op : BitVec 8) (ctx : BitVec 4) (b : Bool) (imm : BitVec 16) :
    flagBit (assemble op ctx (flOfBit b) imm) = b := by
  rw [flagBit, flField_assemble]
  cases b <;> rfl

theorem variantOfBit_bitOfVariant (v : Variant) : variantOfBit (bitOfVariant v) = v := by cases v <;> rfl

/-- The encoder puts every operand where the decoder reads it. -/
theorem withOperands_encode (i : Instr) : withOperands (encode i) i = i := by
  cases i <;> simp [withOperands, encode, flagBit_assemble, variantOfBit_bitOfVariant]

/-- Settles O1: the encoder writes the opcode, the operands, and 0 in the reserved bits. -/
theorem decodeOfEncode : Obligations.DecodeOfEncode := fun i hwf =>
  decode_eq_ok_iff.2 ⟨opField_encode i, reservedZero_encode i, withOperands_encode i, hwf⟩

/-- With the reserved bits 0, the operands hold every other bit of the word. -/
theorem encode_withOperands {w : Word} {i : Instr} (hop : opField w = opcodeOf i) (h : reservedZero w i = true) :
    encode (withOperands w i) = w := by
  obtain ⟨⟨hfl, himm⟩, hctx⟩ := reservedZero_iff.1 h
  have hflag (hf : flField w &&& 0xE#4 = 0#4) : flOfBit (flagBit w) = flField w :=
    flOfBit_flagBit ((flagsHighZero_iff w).2 hf)
  conv_rhs => rw [← assemble_fields w, hop]
  cases i with
  | rsaInit => rfl
  | scInit | rsaEnc | rsaDec | biB2i | biI2b =>
    simp only [rowFields, and_allOnes_4, and_allOnes_16] at hfl himm hctx
    simp [encode, withOperands, opcodeOf, hflag hfl, himm, hctx]
  | _ =>
    simp only [rowFields, and_allOnes_4, and_allOnes_16] at hfl himm hctx
    simp [encode, withOperands, opcodeOf, hfl, himm, hctx]

/-- Settles O2: the bits that are no operand are the opcode, which the decoder checks, and 0. -/
theorem encodeOfDecode : Obligations.EncodeOfDecode := by
  intro w i h
  obtain ⟨hop, hreserved, hoperands, hwf⟩ := decode_eq_ok_iff.1 h
  exact ⟨hwf, hoperands ▸ encode_withOperands hop hreserved⟩

/-- Settles O5: each word is the encoding of its command. -/
theorem exampleWordsDecode : Obligations.ExampleWordsDecode :=
  ⟨decodeOfEncode (.scInit 0 .chacha20 20) rfl, decodeOfEncode (.scInit 1 .salsa20 20) rfl,
    decodeOfEncode (.scProcess 1) rfl, decodeOfEncode (.rsaInit 1 2048 1) rfl, decodeOfEncode (.rsaDec 0 true) rfl,
    decodeOfEncode (.biI2b 4 true) rfl, decodeOfEncode .biXor rfl⟩

/-! ### The opcode map -/

/-- The mask, match and slots of a command's row, from the row's fields (R93). -/
def rowOf (i : Instr) : OpcodeRow where
  mask := assemble 0xFF#8 (rowFields i).ctxZero (rowFields i).flZero (rowFields i).immZero
  pattern := assemble (opcodeOf i) 0#4 0#4 0#16
  slots := (rowFields i).slots

/-- The map R93 prints is the rows of the 17 commands. -/
theorem opcodeMap_eq : opcodeMap = oneOfEach.map rowOf := by decide

theorem rowOf_mem_opcodeMap (i : Instr) : rowOf i ∈ opcodeMap := by
  rw [opcodeMap_eq]
  cases i <;> simp [oneOfEach, rowOf, rowFields, opcodeOf]

/-- A mask applies to each field by itself. -/
theorem and_assemble (w : Word) (op : BitVec 8) (ctx fl : BitVec 4) (imm : BitVec 16) :
    w &&& assemble op ctx fl imm
      = assemble (opField w &&& op) (ctxField w &&& ctx) (flField w &&& fl) (immField w &&& imm) := by
  conv_lhs => rw [← assemble_fields w]
  change immField w ++ flField w ++ ctxField w ++ opField w &&& imm ++ fl ++ ctx ++ op = _
  rw [BitVec.and_append, BitVec.and_append, BitVec.and_append, assemble]

theorem assemble_inj {op op' : BitVec 8} {ctx ctx' fl fl' : BitVec 4} {imm imm' : BitVec 16} :
    assemble op ctx fl imm = assemble op' ctx' fl' imm' ↔ op = op' ∧ ctx = ctx' ∧ fl = fl' ∧ imm = imm' := by
  constructor
  · intro h
    exact ⟨by simpa using congrArg opField h, by simpa using congrArg ctxField h, by simpa using congrArg flField h,
      by simpa using congrArg immField h⟩
  · rintro ⟨rfl, rfl, rfl, rfl⟩
    rfl

/-- The mask and match of a row test the opcode and the reserved bits (R93, R94). -/
theorem and_mask_eq_pattern_iff {w : Word} {i : Instr} :
    w &&& (rowOf i).mask = (rowOf i).pattern ↔ opField w = opcodeOf i ∧ reservedZero w i = true := by
  have hop : opField w &&& 0xFF#8 = opField w := BitVec.and_allOnes
  rw [rowOf, and_assemble, assemble_inj, hop, reservedZero_iff]
  tauto

/-- A row accepts a word that has its opcode, 0 in its reserved bits, and a slot that exists (R93, R95). -/
theorem accepts_rowOf_iff {w : Word} {i : Instr} :
    (rowOf i).accepts w = true
      ↔ (opField w = opcodeOf i ∧ reservedZero w i = true) ∧ (withOperands w i).wellFormed = true := by
  have hslot : (rowOf i).accepts w
      = (decide (w &&& (rowOf i).mask = (rowOf i).pattern) && (withOperands w i).wellFormed) := by
    cases i <;> rfl
  rw [hslot, Bool.and_eq_true, decide_eq_true_eq, and_mask_eq_pattern_iff]

/-- Settles O3: a row accepts what the decoder accepts on the row's opcode. -/
theorem decoderFollowsOpcodeMap : Obligations.DecoderFollowsOpcodeMap := by
  intro w
  have hrow (i : Instr) (h : decode w = .ok i) :
      ∃ r ∈ opcodeMap, r.accepts w = true ∧ opcodeOf i = opField r.pattern := by
    obtain ⟨hop, hreserved, hoperands, hwf⟩ := decode_eq_ok_iff.1 h
    exact ⟨rowOf i, rowOf_mem_opcodeMap i, accepts_rowOf_iff.2 ⟨⟨hop, hreserved⟩, hoperands.symm ▸ hwf⟩,
      (opField_assemble ..).symm⟩
  refine ⟨⟨fun ⟨i, h⟩ => ?accepted, fun ⟨r, hr, haccepts⟩ => ?decoded⟩, hrow⟩
  case accepted =>
    obtain ⟨r, hr, haccepts, -⟩ := hrow i h
    exact ⟨r, hr, haccepts⟩
  case decoded =>
    rw [opcodeMap_eq] at hr
    obtain ⟨i, -, rfl⟩ := List.mem_map.1 hr
    obtain ⟨⟨hop, hreserved⟩, hwf⟩ := accepts_rowOf_iff.1 haccepts
    exact ⟨withOperands w i, by rw [decode_of_opField hop, if_pos hreserved, if_pos hwf]⟩

/-! ### A write to `CMD` -/

/-- A step whose next event is a write to `CMD` issues the word (R96). -/
theorem step_writeCmd {s : State} {w : Word} {rest : List HostEvent} (h : s.pending = .write 32 0x008#16 w :: rest) :
    step s = issueCommand w { s with pending := rest, resp := .done } := by
  rw [step_write h, busWrite_cmd]

theorem issueCommand_ok {w : Word} {i : Instr} (h : decode w = .ok i) (s : State) : issueCommand w s = exec i s := by
  rw [issueCommand, h]

theorem issueCommand_error {w : Word} {e : DecodeError} (h : decode w = .error e) (s : State) :
    issueCommand w s = .next (takeFailure (opField w) .illegalCommand s) := by
  rw [issueCommand, h]

/-- Settles O6: the word issued is the command decoded. -/
theorem stepRunsDecodedCommand : Obligations.StepRunsDecodedCommand := by
  intro s w rest i hp hd
  rw [step_writeCmd hp, issueCommand_ok hd]

/-- Settles O7: such a word takes the failure `IllegalCommand`. -/
theorem undecodableWordIsIllegalCommand : Obligations.UndecodableWordIsIllegalCommand := by
  intro s w rest e hp hd
  exact ⟨_, (step_writeCmd hp).trans (issueCommand_error hd _), failsWith_takeFailure _ _ _⟩

/-- The `op` values of the 17 commands (R93). -/
theorem opOf_range (i : Instr) :
    (0x10 ≤ opOf i ∧ opOf i ≤ 0x14) ∨ (0x20 ≤ opOf i ∧ opOf i ≤ 0x28) ∨ (0x30 ≤ opOf i ∧ opOf i ≤ 0x32) := by
  cases i <;> simp [opOf]

theorem opField_toNat (w : Word) : (opField w).toNat = w.toNat % 256 := by
  simp [opField, BitVec.extractLsb'_toNat]

/-- Settles O8: no command has such an `op` value, so the word does not decode. -/
theorem unknownOpcodeIsIllegalCommand : Obligations.UnknownOpcodeIsIllegalCommand := by
  intro s w rest hp hrange
  have hunknown (i : Instr) : opField w ≠ opcodeOf i := by
    intro h
    have hop : w.toNat % 256 = opOf i := by rw [← opField_toNat, h, opcodeOf_toNat]
    have := opOf_range i
    omega
  exact undecodableWordIsIllegalCommand s w rest _ hp (decode_unknownOp hunknown)

/-- Every word written to `CMD` ends (R98): a command ends by `exec_cases`, any other word fails. -/
theorem issueCommand_answersNext (w : Word) (s : State) : ∃ t, issueCommand w s = .next t := by
  cases hd : decode w with
  | ok i =>
    obtain ⟨r, hr, -⟩ := exec_cases i s
    exact ⟨_, (issueCommand_ok hd s).trans hr⟩
  | error e => exact ⟨_, issueCommand_error hd s⟩

theorem busWrite_answersNext (width : Nat) (off : BitVec 16) (v : Word) (s : State) :
    ∃ t, busWrite width off v s = .next t := by
  unfold busWrite
  split_ifs
  · exact issueCommand_answersNext v _
  · exact ⟨_, rfl⟩
  · exact ⟨_, rfl⟩

/-- Settles O12: a step is idle, a read, a bus write or a reset, and each answers. -/
theorem stepAlwaysAnswersNext : Obligations.StepAlwaysAnswersNext := by
  intro s
  cases hp : s.pending with
  | nil => exact ⟨s, step_nil hp⟩
  | cons ev rest =>
    rw [step_cons hp]
    cases ev with
    | read => exact ⟨_, rfl⟩
    | write width off v => exact busWrite_answersNext width off v _
    | reset => exact ⟨_, rfl⟩

/-! ### The pseudo-instruction `LOAD` -/

theorem run_succ_of_step {M : Host.Core} {s t : M.State} (h : M.step s = .next t) (n : Nat) :
    M.run (n + 1) s = M.run n t := by
  simp only [Host.Core.run, h]

/-- A write of word `k` of the `IBUF` window (R64). -/
theorem step_writeIbufWord {s : State} {rest : List HostEvent} {k : Nat} {v : Word} (hk : 4 * k < Config.ibufBytes)
    (hp : s.pending = wr (Config.ibufBase + 4 * k) v :: rest) :
    step s = .next { s with ibuf := Memory.writeBytes s.ibuf (4 * k) (bytes32 v), pending := rest, resp := .done } := by
  obtain ⟨hoff, hlegal, hcmd⟩ := windowOffset_legal (base := Config.ibufBase) (by decide) (by decide) hk (by decide)
  rw [step_store hlegal hcmd hp, hoff,
    writeWord_ibufWindow _ (Nat.le_add_right _ _) (Nat.add_lt_add_left hk Config.ibufBase), Nat.add_sub_cancel_left]

/-- Word `k` of a byte sequence, written where it stands in the sequence. -/
theorem read_writeBytes_le32 {m : Memory} (hwf : Memory.wf m = true) (b : Bytes) (k a : Nat) :
    Memory.read (Memory.writeBytes m (4 * k) (bytes32 (le32 b (4 * k)))) a
      = if a / 4 = k then b.getD a 0#8 else Memory.read m a := by
  rw [Memory.read_writeBytes hwf, bytes32_length]
  by_cases ha : a / 4 = k
  · have hlane : a - 4 * k < 4 := by omega
    rw [if_pos ha, if_pos (by omega), bytes32_getD _ hlane, extractLsb'_le32 _ _ hlane, Nat.add_sub_cancel' (by omega)]
  · rw [if_neg ha, if_neg (by omega)]

/-- The word writes of `LOAD` put the bytes they carry into `IBUF` and leave every other byte. -/
theorem run_writeWords (b : Bytes) {ks : List Nat} {s : State} {rest : List HostEvent}
    (hks : ∀ k ∈ ks, 4 * k < Config.ibufBytes) (hwf : Memory.wf s.ibuf = true)
    (hp : s.pending = ks.map (fun k => wr (Config.ibufBase + 4 * k) (le32 b (4 * k))) ++ rest) :
    ∃ u : State, (∀ n, Sys2Proof.core.run (ks.length + n) s = Sys2Proof.core.run n u) ∧ u.pending = rest
      ∧ ∀ a, Memory.read u.ibuf a = if a / 4 ∈ ks then b.getD a 0#8 else Memory.read s.ibuf a := by
  induction ks generalizing s with
  | nil => exact ⟨s, fun n => by rw [List.length_nil, Nat.zero_add], hp, fun a => rfl⟩
  | cons k ks ih =>
    obtain ⟨hk, hks⟩ := List.forall_mem_cons.1 hks
    have hstep := step_writeIbufWord hk hp
    obtain ⟨u, hrun, hpending, hread⟩ := ih (s := { s with ibuf := _, pending := _, resp := .done }) hks
      (Memory.wf_writeBytes hwf _ _) rfl
    refine ⟨u, fun n => ?_, hpending, fun a => ?_⟩
    · rw [List.length_cons, Nat.succ_add, ← hrun n]
      exact run_succ_of_step (M := Sys2Proof.core) hstep _
    · rw [hread, read_writeBytes_le32 hwf]
      simp only [List.mem_cons]
      split_ifs <;> tauto

/-- A write to `ILEN` (R35). -/
theorem step_writeIlen {s : State} {rest : List HostEvent} {v : Word} (hp : s.pending = wr Config.offIlen v :: rest) :
    step s = .next { s with ilen := v, pending := rest, resp := .done } :=
  step_store (by decide) (by decide) hp

/-- Settles O19: the words cover the bytes, and the write to `ILEN` comes last. -/
theorem loadMakesOperand : Obligations.LoadMakesOperand := by
  intro s b rest hwf hlen hp
  rw [loadEvents, List.append_assoc] at hp
  have hks : ∀ k ∈ List.range ((b.length + 3) / 4), 4 * k < Config.ibufBytes := fun k hk => by
    rw [List.mem_range] at hk
    simp only [Config.ibufBytes]
    omega
  obtain ⟨u, hrun, hpending, hread⟩ := run_writeWords b hks hwf hp
  have hstep := step_writeIlen hpending
  have hilen : (BitVec.ofNat 32 b.length).toNat = b.length := by
    rw [BitVec.toNat_ofNat]
    omega
  refine ⟨{ u with ilen := BitVec.ofNat 32 b.length, pending := rest, resp := .done }, ?run, rfl, hilen, ?bytes⟩
  case run =>
    have hlast := run_succ_of_step (M := Sys2Proof.core) hstep 0
    rw [loadEvents, List.length_append, List.length_map]
    exact (hrun 1).trans hlast
  case bytes =>
    simp only [hilen]
    refine List.ext_getElem (Memory.readBytes_length _ _ _) fun a ha hb => ?_
    have hmem : a / 4 ∈ List.range ((b.length + 3) / 4) := by
      rw [List.mem_range]
      omega
    rw [← List.getD_eq_getElem _ 0#8 ha, Memory.readBytes_getD _ _ _ _ hb, Nat.zero_add, hread, if_pos hmem,
      List.getD_eq_getElem _ _ hb]

/-! ### The key descriptor -/

/-- The length in a record's header (R101). -/
theorem toNat_headerLength {n : Nat} (h : n < 65536) :
    (BitVec.ofNat 8 (n % 256)).toNat + 256 * (BitVec.ofNat 8 (n / 256)).toNat = n := by
  simp only [BitVec.toNat_ofNat]
  omega

/-- The parser takes one record off the front (R165). -/
theorem parseRecords_fieldBytes (fuel : Nat) (tag : Byte) {value : Bytes} (h : value.length < 65536) (rest : Bytes) :
    parseRecords (fuel + 1) (fieldBytes tag value ++ rest)
      = (parseRecords fuel rest).map fun rs => ⟨tag, value⟩ :: rs := by
  simp only [fieldBytes, List.cons_append, parseRecords, toNat_headerLength h, List.length_append]
  rw [if_neg (by omega), List.drop_left, List.take_left]
  cases parseRecords fuel rest <;> rfl

theorem descriptor_cons (r : KeyRecord) (rs : List KeyRecord) :
    descriptor (r :: rs) = fieldBytes r.tag r.value ++ descriptor rs := List.flatMap_cons

theorem length_le_descriptor_length (rs : List KeyRecord) : rs.length ≤ (descriptor rs).length := by
  induction rs with
  | nil => exact Nat.zero_le _
  | cons r rs ih =>
    simp only [descriptor_cons, fieldBytes, List.length_append, List.length_cons]
    omega

/-- With fuel for each record, the parser reads the records of a descriptor. -/
theorem parseRecords_descriptor {rs : List KeyRecord} (hvalues : ∀ r ∈ rs, r.value.length < 65536) {fuel : Nat}
    (hfuel : rs.length ≤ fuel) : parseRecords fuel (descriptor rs) = some rs := by
  induction rs generalizing fuel with
  | nil => cases fuel <;> rfl
  | cons r rs ih =>
    obtain ⟨hr, hrs⟩ := List.forall_mem_cons.1 hvalues
    cases fuel with
    | zero => exact absurd hfuel (Nat.not_succ_le_zero _)
    | succ fuel =>
      rw [descriptor_cons, parseRecords_fieldBytes _ _ hr, ih hrs (Nat.le_of_succ_le_succ hfuel)]
      rfl

/-- A record read from its header and the bytes that follow is those bytes. -/
theorem fieldBytes_take (tag lo hi : Byte) {rest : Bytes} (h : lo.toNat + 256 * hi.toNat ≤ rest.length) :
    fieldBytes tag (rest.take (lo.toNat + 256 * hi.toNat)) ++ rest.drop (lo.toNat + 256 * hi.toNat)
      = tag :: lo :: hi :: rest := by
  have hlo := lo.isLt
  have hlow : BitVec.ofNat 8 ((lo.toNat + 256 * hi.toNat) % 256) = lo := by
    apply BitVec.eq_of_toNat_eq
    rw [BitVec.toNat_ofNat]
    omega
  have hhigh : BitVec.ofNat 8 ((lo.toNat + 256 * hi.toNat) / 256) = hi := by
    have := hi.isLt
    apply BitVec.eq_of_toNat_eq
    rw [BitVec.toNat_ofNat]
    omega
  rw [fieldBytes, List.length_take, Nat.min_eq_left h, hlow, hhigh]
  simp only [List.cons_append, List.take_append_drop]

/-- What parses is the descriptor of its records. -/
theorem descriptor_of_parseRecords :
    ∀ {fuel : Nat} {buf : Bytes} {rs : List KeyRecord}, parseRecords fuel buf = some rs → descriptor rs = buf
  | _, [], rs, h => by
    have hrs : [] = rs := by simpa only [parseRecords, Option.some.injEq] using h
    rw [← hrs]
    rfl
  | fuel + 1, tag :: lo :: hi :: rest, rs, h => by
    simp only [parseRecords] at h
    split at h
    · cases h
    · next hlen =>
      split at h
      · cases h
      · next records hrest =>
        cases h
        rw [descriptor_cons, descriptor_of_parseRecords hrest]
        exact fieldBytes_take tag lo hi (Nat.not_lt.1 hlen)
  | 0, _ :: _, _, h | _ + 1, [_], _, h | _ + 1, [_, _], _, h => by simp [parseRecords] at h

/-- Settles O40: the parser inverts the layout of a record list, with the buffer's length as fuel. -/
theorem descriptorParsesToItsRecords : Obligations.DescriptorParsesToItsRecords := by
  refine ⟨fun rs hne hvalues => ?parses, fun buf rs h => ?records⟩
  case parses =>
    have hfuel := length_le_descriptor_length rs
    have hbuf : descriptor rs ≠ [] := List.ne_nil_of_length_pos (Nat.lt_of_lt_of_le (List.length_pos_iff.2 hne) hfuel)
    rw [parseTop, if_neg hbuf, parseRecords_descriptor hvalues hfuel]
  case records =>
    unfold parseTop at h
    split_ifs at h with hbuf
    have hdescriptor := descriptor_of_parseRecords h
    refine ⟨fun hnil => hbuf ?_, hdescriptor⟩
    rw [← hdescriptor, hnil]
    rfl

end Sys2Proof.Machine
end

section
/-! Proofs for 40_stream_cipher.md, the cipher itself: quarter-rounds on disjoint words (O37), the block function (O34)
and the block counter (O35, O36). -/

namespace Sys2Proof.Machine

open Sys2Proof.Claims

/-! ### Quarter-rounds on disjoint words -/

/-- `f` works on the words of `is` alone: it writes no other word, and what it writes depends on no other word. -/
structure ActsOn (f : Words16 → Words16) (is : List (Fin 16)) : Prop where
  frame : ∀ x k, k ∉ is → (f x)[k] = x[k]
  congr : ∀ x y : Words16, (∀ k ∈ is, x[k] = y[k]) → ∀ k ∈ is, (f x)[k] = (f y)[k]

/-- Two updates of disjoint words commute: each word is written by at most one, which sees the other's input. -/
theorem ActsOn.comm {f g : Words16 → Words16} {is js : List (Fin 16)} (hf : ActsOn f is) (hg : ActsOn g js)
    (hdisj : is.Disjoint js) (x : Words16) : g (f x) = f (g x) := by
  have hword (k : Fin 16) : (g (f x))[k] = (f (g x))[k] := by
    by_cases hi : k ∈ is
    · rw [hg.frame _ k (hdisj hi)]
      exact hf.congr _ _ (fun l hl => (hg.frame x l (hdisj hl)).symm) k hi
    · rw [hf.frame _ k hi]
      by_cases hj : k ∈ js
      · exact hg.congr _ _ (fun l hl => hf.frame x l fun hl' => hdisj hl' hl) k hj
      · rw [hg.frame _ k hj, hg.frame _ k hj, hf.frame _ k hi]
  exact Vector.ext fun i hi => hword ⟨i, hi⟩

theorem ActsOn.comp {f g : Words16 → Words16} {is : List (Fin 16)} (hg : ActsOn g is) (hf : ActsOn f is) :
    ActsOn (fun x => g (f x)) is where
  frame x k hk := (hg.frame _ k hk).trans (hf.frame x k hk)
  congr x y h := hg.congr _ _ (hf.congr x y h)

theorem salsaQuarter_actsOn {a b c d : Fin 16} (h : [a, b, c, d].Nodup) :
    ActsOn (fun x => salsaQuarter x a b c d) [a, b, c, d] where
  frame x k hk := salsaQuarter_frame x hk
  congr x y hxy := by
    obtain ⟨hbx, hcx, hdx, hax⟩ := salsaQuarter_words x h
    obtain ⟨hby, hcy, hdy, hay⟩ := salsaQuarter_words y h
    simp only [List.forall_mem_cons, List.not_mem_nil, false_imp_iff, forall_const, and_true] at hxy ⊢
    obtain ⟨ha, hb, hc, hd⟩ := hxy
    have hb' := hbx.trans (by rw [ha, hb, hd, ← hby])
    have hc' := hcx.trans (by rw [ha, hc, hb', ← hcy])
    have hd' := hdx.trans (by rw [hd, hc', hb', ← hdy])
    have ha' := hax.trans (by rw [ha, hd', hc', ← hay])
    exact ⟨ha', hb', hc', hd'⟩

theorem chachaHalf_actsOn {a b c d : Fin 16} (h : [a, b, c, d].Nodup) (m n : Nat) :
    ActsOn (fun x => chachaHalf x a b c d m n) [a, b, c, d] where
  frame x k hk := chachaHalf_frame x hk m n
  congr x y hxy := by
    obtain ⟨hax, hdx, hcx, hbx⟩ := chachaHalf_words x h m n
    obtain ⟨hay, hdy, hcy, hby⟩ := chachaHalf_words y h m n
    simp only [List.forall_mem_cons, List.not_mem_nil, false_imp_iff, forall_const, and_true] at hxy ⊢
    obtain ⟨ha, hb, hc, hd⟩ := hxy
    have ha' := hax.trans (by rw [ha, hb, ← hay])
    have hd' := hdx.trans (by rw [hd, ha', ← hdy])
    have hc' := hcx.trans (by rw [hc, hd', ← hcy])
    have hb' := hbx.trans (by rw [hb, hc', ← hby])
    exact ⟨ha', hb', hc', hd'⟩

theorem chachaQuarter_actsOn {a b c d : Fin 16} (h : [a, b, c, d].Nodup) :
    ActsOn (fun x => chachaQuarter x a b c d) [a, b, c, d] :=
  (chachaHalf_actsOn h 8 7).comp (chachaHalf_actsOn h 16 12)

/-- Settles O37: a quarter-round acts on its four words alone. -/
theorem disjointQuarterRoundsCommute : Obligations.DisjointQuarterRoundsCommute := by
  intro x a b c d a' b' c' d' h
  obtain ⟨h₁, h₂, hdisj⟩ := List.nodup_append'.1 (show ([a, b, c, d] ++ [a', b', c', d']).Nodup from h)
  exact ⟨(salsaQuarter_actsOn h₁).comm (salsaQuarter_actsOn h₂) hdisj x,
    (chachaQuarter_actsOn h₁).comm (chachaQuarter_actsOn h₂) hdisj x⟩

/-! ### The block function -/

theorem doubleRound_eq_eightQuarters (v : Variant) (x : Words16) : doubleRound v x = eightQuarters v x := by
  cases v <;> rfl

theorem doubleRounds_eq_iterate (v : Variant) (n : Nat) (x : Words16) :
    doubleRounds v n x = (eightQuarters v)^[n] x := by
  induction n generalizing x with
  | zero => rfl
  | succ n ih => rw [doubleRounds, ih, doubleRound_eq_eightQuarters, Function.iterate_succ_apply]

/-- Byte `j` of word `i` in the serialisation of a word list (R121, R132). -/
theorem flatMap_bytes32_getD (ws : List Word) {i j : Nat} (hi : i < ws.length) (hj : j < 4) :
    (ws.flatMap bytes32).getD (4 * i + j) 0#8 = ws[i].extractLsb' (8 * j) 8 := by
  induction ws generalizing i with
  | nil => exact absurd hi (Nat.not_lt_zero i)
  | cons w ws ih =>
    rw [List.flatMap_cons]
    cases i with
    | zero =>
      rw [List.getD_append _ _ _ _ (by rw [bytes32_length]; omega), Nat.mul_zero, Nat.zero_add, bytes32_getD w hj]
      rfl
    | succ i =>
      rw [List.getD_append_right _ _ _ _ (by rw [bytes32_length]; omega), bytes32_length,
        show 4 * (i + 1) + j - 4 = 4 * i + j by omega]
      exact ih (Nat.lt_of_succ_lt_succ hi)

/-- Byte `j` of word `i` of a block (R132). -/
theorem block_getD (v : Variant) (st : Words16) (rounds : BitVec 16) (i : Fin 16) {j : Nat} (hj : j < 4) :
    (block v st rounds).getD (4 * i.val + j) 0#8
      = (((eightQuarters v)^[rounds.toNat / 2] st)[i] + st[i]).extractLsb' (8 * j) 8 := by
  have hword : (blockWords v st rounds)[i] = ((eightQuarters v)^[rounds.toNat / 2] st)[i] + st[i] := by
    rw [blockWords, doubleRounds_eq_iterate]
    exact Vector.getElem_zipWith i.isLt
  rw [block, flatMap_bytes32_getD _ (by simp) hj, Vector.getElem_toList]
  exact congrArg (BitVec.extractLsb' (8 * j) 8) hword

/-- The block function halves the round count, so the last of an odd number of rounds is lost (R132). -/
theorem block_odd_rounds (v : Variant) (st : Words16) {rounds : BitVec 16} (h : rounds.toNat % 2 = 1) :
    block v st rounds = block v st (rounds - 1) := by
  have hhalf : (rounds - 1).toNat / 2 = rounds.toNat / 2 := by
    have := rounds.isLt
    rw [BitVec.toNat_sub]
    simp only [BitVec.ofNat_eq_ofNat, BitVec.toNat_ofNat]
    omega
  rw [block, block, blockWords, blockWords, hhalf]

/-- Settles O34: with no double round a word is added to itself. -/
theorem blockFunction : Obligations.BlockFunction := by
  intro v st rounds i j hj
  refine ⟨doubleRound_eq_eightQuarters v st, block_getD v st rounds i hj, block_odd_rounds v st, fun hle => ?_⟩
  have hdouble : st[i] + st[i] = BitVec.ofNat 32 (2 * st[i].toNat) := by
    apply BitVec.eq_of_toNat_eq
    rw [BitVec.toNat_add, BitVec.toNat_ofNat, two_mul]
  rw [block_getD v st rounds i hj, show rounds.toNat / 2 = 0 by omega, Function.iterate_zero_apply, hdouble]

/-! ### The block counter -/

/-- The words that hold the block counter (R133, R134). -/
def counterWords : Variant → List (Fin 16)
  | .salsa20 => [8, 9]
  | .chacha20 => [12]

/-- Word `k` after one advance of the Salsa20 counter: the high word goes up when the low word wraps (R133). -/
theorem advanceCounter_salsa20_getElem (st : Words16) (k : Fin 16) :
    (advanceCounter .salsa20 st)[k]
      = if 9 = k ∧ st[8] + 1#32 = 0#32 then st[9] + 1#32 else if 8 = k then st[8] + 1#32 else st[k] := by
  have h8 : (st.set 8 (st[8] + 1#32))[8] = st[8] + 1#32 := words_getElem_set st 8 8 _
  have h9 : (st.set 8 (st[8] + 1#32))[9] = st[9] := words_getElem_set st 8 9 _
  have hlow := words_getElem_set st 8 k (st[8] + 1#32)
  have hhigh := words_getElem_set (st.set 8 (st[8] + 1#32)) 9 k (st[9] + 1#32)
  by_cases hwrap : st[8] + 1#32 = 0#32
  · simp only [advanceCounter, h8, h9, if_pos hwrap, and_iff_left hwrap]
    rw [← hlow]
    exact hhigh
  · simp only [advanceCounter, h8, hwrap, and_false, if_false]
    exact hlow

/-- Word `k` after one advance of the ChaCha20 counter (R134). -/
theorem advanceCounter_chacha20_getElem (st : Words16) (k : Fin 16) :
    (advanceCounter .chacha20 st)[k] = if 12 = k then st[12] + 1#32 else st[k] :=
  words_getElem_set st 12 k _

/-- Advancing the counter writes the counter's words alone. -/
theorem advanceCounter_frame (v : Variant) (st : Words16) {k : Fin 16} (h : k ∉ counterWords v) :
    (advanceCounter v st)[k] = st[k] := by
  cases v with
  | salsa20 =>
    simp only [counterWords, List.mem_cons, List.not_mem_nil, not_or, or_false, eq_comm (a := k)] at h
    rw [advanceCounter_salsa20_getElem, if_neg fun hk => h.2 hk.1, if_neg h.1]
  | chacha20 =>
    simp only [counterWords, List.mem_singleton, eq_comm (a := k)] at h
    rw [advanceCounter_chacha20_getElem, if_neg h]

theorem iterate_advanceCounter_frame (v : Variant) (n : Nat) (st : Words16) {k : Fin 16} (h : k ∉ counterWords v) :
    ((advanceCounter v)^[n] st)[k] = st[k] := by
  induction n with
  | zero => rfl
  | succ n ih => rw [Function.iterate_succ_apply', advanceCounter_frame v _ h, ih]

/-- One advance adds one to the Salsa20 counter: the carry into the high word is taken exactly when the low word
wraps (R133). -/
theorem counter64_advanceCounter (st : Words16) :
    counter64 (advanceCounter .salsa20 st) = (counter64 st + 1) % 2 ^ 64 := by
  have h8 : (advanceCounter .salsa20 st)[8] = st[8] + 1#32 := advanceCounter_salsa20_getElem st 8
  have h9 : (advanceCounter .salsa20 st)[9] = if st[8] + 1#32 = 0#32 then st[9] + 1#32 else st[9] := by
    simpa using advanceCounter_salsa20_getElem st 9
  have hlt8 := st[8].isLt
  have hlt9 := st[9].isLt
  rw [counter64, counter64, h8, h9]
  split
  · next hwrap =>
    have hwrap' := congrArg BitVec.toNat hwrap
    simp only [BitVec.toNat_add, BitVec.toNat_ofNat] at hwrap' ⊢
    omega
  · next hwrap =>
    have hwrap' := mt BitVec.eq_of_toNat_eq hwrap
    simp only [BitVec.toNat_add, BitVec.toNat_ofNat] at hwrap' ⊢
    omega

/-- Settles O35, by induction on the number of advances. -/
theorem salsaCounterCounts64Bits : Obligations.SalsaCounterCounts64Bits := by
  intro n st
  refine ⟨?counter, fun i h8 h9 => iterate_advanceCounter_frame .salsa20 n st (by simp [counterWords, h8, h9])⟩
  case counter =>
    induction n with
    | zero =>
      have hlt8 := st[8].isLt
      have hlt9 := st[9].isLt
      rw [Function.iterate_zero_apply, Nat.add_zero, Nat.mod_eq_of_lt]
      rw [counter64]
      omega
    | succ n ih => rw [Function.iterate_succ_apply', counter64_advanceCounter, ih, Nat.mod_add_mod, Nat.add_assoc]

/-- Settles O36, by induction on the number of advances. -/
theorem chachaCounterCounts32Bits : Obligations.ChachaCounterCounts32Bits := by
  intro n st
  refine ⟨?counter, fun i h12 => iterate_advanceCounter_frame .chacha20 n st (by simp [counterWords, h12])⟩
  case counter =>
    induction n with
    | zero => exact (Nat.mod_eq_of_lt st[12].isLt).symm
    | succ n ih =>
      have hnext (x : Words16) : (advanceCounter .chacha20 x)[12] = x[12] + 1#32 := advanceCounter_chacha20_getElem x 12
      rw [Function.iterate_succ_apply', hnext, BitVec.toNat_add, ih, Nat.mod_add_mod, Nat.add_assoc]
      rfl

end Sys2Proof.Machine
end

section
/-! Proofs for 40_stream_cipher.md, the commands: their rules (O28 to O32), the transform as an involution (O38) and the
message cut at a block boundary (O39). -/

namespace Sys2Proof.Machine

open Sys2Proof.Claims

/-! ### How a command ends, from its run -/

section

variable {i : Instr} {s t : State}

theorem failsAs_of_runOf {f : Failure} (h : runOf s i = .fail f) : FailsAs i f s :=
  ⟨_, by rw [exec_eq_complete_runOf, h]; rfl, failsWith_takeFailure (opcodeOf i) f s⟩

theorem exec_of_runOf {out : Bytes} (h : runOf s i = .succeed t out) :
    exec i s = .next (finish (opcodeOf i) t out) := by
  rw [exec_eq_complete_runOf, h, complete_succeed]

theorem succeedsAs_of_runOf {out : Bytes} (hw : Memory.wf t.obuf = true) (h : runOf s i = .succeed t out) :
    SucceedsAs i s t out :=
  ⟨_, exec_of_runOf h, succeedsWith_finish (opcodeOf i) hw out⟩

/-- A result-less command needs no canonical `OBUF`. -/
theorem succeedsAs_nil_of_runOf (h : runOf s i = .succeed t []) : SucceedsAs i s t [] :=
  ⟨_, exec_of_runOf h, succeedsWith_finish_nil (opcodeOf i) t⟩

end

/-! ### The slot a stream command names -/

section

variable {ctx : BitVec 4} {s : State} {c : ScCtx}

theorem scSlot_none (s : State) (h : 2 ≤ ctx.toNat) : s.sc[ctx.toNat]? = none :=
  Vector.getElem?_eq_none h

theorem withLiveSc_noSlot (s : State) (h : 2 ≤ ctx.toNat) (body : ScCtx → RunResult) :
    withLiveSc ctx s body = .fail .illegalCommand := by
  simp [withLiveSc, scSlot_none s h]

theorem withLiveSc_notLive (h : s.sc[ctx.toNat]? = some c) (hl : c.life ≠ .live) (body : ScCtx → RunResult) :
    withLiveSc ctx s body = .fail .illegalState := by
  simp [withLiveSc, h, hl]

/-- A slot that held a context holds what is put there. -/
theorem scSlot_setIfInBounds (h : s.sc[ctx.toNat]? = some c) (c' : ScCtx) :
    (s.sc.setIfInBounds ctx.toNat c')[ctx.toNat]? = some c' := by
  have hlt : ctx.toNat < 2 := (Vector.getElem?_eq_some_iff.1 h).1
  rw [Vector.getElem?_setIfInBounds_self, if_pos hlt]

end

/-! ### `SC_SEEK`, `SC_QUERY`, `SC_DISPOSE` -/

theorem runScSeek_live {ctx : BitVec 4} {s : State} {c : ScCtx} (h : s.sc[ctx.toNat]? = some c)
    (hl : c.life = .live) :
    runOf s (.scSeek ctx)
      = .succeed (putSc s ctx.toNat { c with state := seekState c.variant s.arg0 s.arg1 c.state }) [] :=
  withLiveSc_live h hl _

/-- Settles O30: on a LIVE slot the command seeks, by the variant of its context. -/
theorem scSeekRule : Obligations.ScSeekRule := by
  intro ctx s
  exact ⟨fun hslot => failsAs_of_runOf (withLiveSc_noSlot s hslot _), fun c hc =>
    ⟨fun hl => failsAs_of_runOf (withLiveSc_notLive hc hl _),
      fun hl hv => succeedsAs_nil_of_runOf (by rw [runScSeek_live hc hl, hv, seekState]),
      fun hl hv => succeedsAs_nil_of_runOf (by rw [runScSeek_live hc hl, hv, seekState])⟩⟩

theorem runScQuery_live {ctx : BitVec 4} {s : State} {c : ScCtx} (h : s.sc[ctx.toNat]? = some c)
    (hl : c.life = .live) : runOf s (.scQuery ctx) = .succeed s (scQueryBytes c) :=
  withLiveSc_live h hl _

/-- The words `SC_QUERY` reports for a Salsa20 context (R139). -/
theorem scQueryBytes_salsa20 {c : ScCtx} (h : c.variant = .salsa20) :
    scQueryBytes c
      = bytes32 0#32 ++ bytes32 (c.rounds.zeroExtend 32) ++ bytes32 c.state[8] ++ bytes32 c.state[9] := by
  rw [scQueryBytes, counterLo, counterHi, h, BitVec.ofNat_toNat]
  rfl

/-- The words `SC_QUERY` reports for a ChaCha20 context (R139). -/
theorem scQueryBytes_chacha20 {c : ScCtx} (h : c.variant = .chacha20) :
    scQueryBytes c = bytes32 1#32 ++ bytes32 (c.rounds.zeroExtend 32) ++ bytes32 c.state[12] ++ bytes32 0#32 := by
  rw [scQueryBytes, counterLo, counterHi, h, BitVec.ofNat_toNat]
  rfl

/-- Settles O31: on a LIVE slot the result is the query's four words, two of them by the variant. -/
theorem scQueryRule : Obligations.ScQueryRule := by
  intro ctx s
  exact ⟨fun hslot => failsAs_of_runOf (withLiveSc_noSlot s hslot _), fun c hc =>
    ⟨fun hl => failsAs_of_runOf (withLiveSc_notLive hc hl _),
      fun hl hw hv => succeedsAs_of_runOf hw (scQueryBytes_salsa20 hv ▸ runScQuery_live hc hl),
      fun hl hw hv => succeedsAs_of_runOf hw (scQueryBytes_chacha20 hv ▸ runScQuery_live hc hl)⟩⟩

theorem runScDispose_noSlot {ctx : BitVec 4} (s : State) (h : 2 ≤ ctx.toNat) :
    runScDispose ctx s = .fail .illegalCommand := by
  simp [runScDispose, scSlot_none s h]

theorem runScDispose_slot {ctx : BitVec 4} {s : State} {c : ScCtx} (h : s.sc[ctx.toNat]? = some c) :
    runScDispose ctx s = if c.life = .live then .succeed (putSc s ctx.toNat disposedSc) [] else .succeed s [] := by
  simp only [runScDispose, h]
  rfl

/-- Settles O32: a slot that exists is zeroed when it is LIVE. -/
theorem scDisposeRule : Obligations.ScDisposeRule := fun _ s =>
  ⟨fun hslot => failsAs_of_runOf (runScDispose_noSlot s hslot), fun _ hc =>
    ⟨fun hl => succeedsAs_nil_of_runOf ((runScDispose_slot hc).trans (if_pos hl)),
      fun hl => succeedsAs_nil_of_runOf ((runScDispose_slot hc).trans (if_neg hl))⟩⟩

/-! ### `SC_INIT` -/

/-- The length checks are those of R136 and R143. -/
theorem scInitLengthsOk_iff (variant : Variant) (s : State) :
    scInitLengthsOk variant s = true ↔ LengthsAccepted variant s := by
  cases variant <;>
    simp only [scInitLengthsOk, LengthsAccepted, nonceLenOk, State.ilenFits, State.splitFits, Bool.and_eq_true,
      Bool.or_eq_true, decide_eq_true_eq, Config.ibufBytes, reduceCtorEq, false_imp_iff, forall_const, true_and] <;>
    omega

theorem runScInit_noSlot {ctx : BitVec 4} (h : 2 ≤ ctx.toNat) (variant : Variant) (rounds : BitVec 16) (s : State) :
    runScInit ctx variant rounds s = .fail .illegalCommand := by
  simp [runScInit, scSlot_none s h]

/-- A word of a byte sequence depends on its four bytes (R121). -/
theorem le32_congr {bs cs : Bytes} {i j : Nat} (h : ∀ l, l < 4 → bs.getD (i + l) 0#8 = cs.getD (j + l) 0#8) :
    le32 bs i = le32 cs j := by
  have h0 : bs.getD i 0#8 = cs.getD j 0#8 := h 0 (by decide)
  rw [le32, le32, h0, h 1 (by decide), h 2 (by decide), h 3 (by decide)]

/-- A word that lies in the first part of a sequence. -/
theorem le32_append_left {bs : Bytes} (cs : Bytes) {i : Nat} (h : i + 4 ≤ bs.length) :
    le32 (bs ++ cs) i = le32 bs i :=
  le32_congr fun _ hl => List.getD_append _ _ _ _ (by omega)

/-- A word that lies in the second part of a sequence. -/
theorem le32_append_right (bs cs : Bytes) (i : Nat) : le32 (bs ++ cs) (bs.length + i) = le32 cs i :=
  le32_congr fun l _ => by
    rw [List.getD_append_right _ _ _ _ (by omega), show bs.length + i + l - bs.length = i + l by omega]

/-- A word of a stretch of `IBUF` (R92, R121). -/
theorem le32_readBytes_ibuf (s : State) (a : Nat) {n i : Nat} (h : i + 4 ≤ n) :
    le32 (Memory.readBytes s.ibuf a n) i = ibufWord s (a + i) := by
  simp (disch := omega) only [le32, Memory.readBytes_getD, ibufWord, Nat.add_assoc]

/-- The key words of `SC_INIT` are read from the first part of its operand (R124). -/
theorem keyWord_firstPart {s : State} (hkey : s.arg0.toNat = 16 ∨ s.arg0.toNat = 32) {i : Nat} (hi : i < 8) :
    keyWord s.firstPart i = keyAt s i := by
  have hoffset : keyWordOffset s.arg0.toNat i + 4 ≤ s.arg0.toNat := by
    unfold keyWordOffset
    split <;> omega
  rw [keyWord, State.firstPart, Memory.readBytes_length, le32_readBytes_ibuf s 0 hoffset, Nat.zero_add]
  rfl

/-- The nonce words of `SC_INIT` are read from the second part of its operand. -/
theorem le32_secondPart {s : State} {i : Nat} (h : 4 * i + 4 ≤ s.arg1.toNat) :
    le32 s.secondPart (4 * i) = nonceAt s i :=
  le32_readBytes_ibuf s s.arg0.toNat h

theorem constantWords_eq (s : State) :
    constantWords s.firstPart.length = #v[0x61707865#32, const1 s, const2 s, 0x6B206574#32] := by
  rw [State.firstPart, Memory.readBytes_length, constantWords, const1, const2]
  split <;> rfl

/-- The words of an 8-byte nonce with zeros before it (R127). -/
theorem le32_padNonce_false {nonce : Bytes} (h : nonce.length = 8) :
    le32 (padNonce false nonce) 0 = 0#32 ∧ le32 (padNonce false nonce) 4 = le32 nonce 0
      ∧ le32 (padNonce false nonce) 8 = le32 nonce 4 := by
  have hpad : padNonce false nonce = [0#8, 0#8, 0#8, 0#8] ++ nonce := by simp only [padNonce, if_pos h]; rfl
  rw [hpad]
  exact ⟨le32_append_left nonce (by decide), le32_append_right _ nonce 0, le32_append_right _ nonce 4⟩

/-- The words of an 8-byte nonce with zeros after it (R127). -/
theorem le32_padNonce_true {nonce : Bytes} (h : nonce.length = 8) :
    le32 (padNonce true nonce) 0 = le32 nonce 0 ∧ le32 (padNonce true nonce) 4 = le32 nonce 4
      ∧ le32 (padNonce true nonce) 8 = 0#32 := by
  have hpad : padNonce true nonce = nonce ++ [0#8, 0#8, 0#8, 0#8] := by simp only [padNonce, if_pos h]; rfl
  have hlast := le32_append_right nonce [0#8, 0#8, 0#8, 0#8] 0
  rw [h] at hlast
  rw [hpad]
  exact ⟨le32_append_left _ (by omega), le32_append_left _ (by omega), hlast⟩

/-- The words of the ChaCha20 nonce of `SC_INIT` (R126, R127). -/
theorem le32_padNonce_secondPart {s : State} (h : s.arg1.toNat = 8 ∨ s.arg1.toNat = 12) :
    le32 (padNonce s.cc8pad s.secondPart) 0
        = (if s.arg1.toNat = 8 ∧ s.cfg.getLsbD 2 = false then 0#32 else nonceAt s 0)
      ∧ le32 (padNonce s.cc8pad s.secondPart) 4
        = (if s.arg1.toNat = 8 ∧ s.cfg.getLsbD 2 = false then nonceAt s 0 else nonceAt s 1)
      ∧ le32 (padNonce s.cc8pad s.secondPart) 8
        = if s.arg1.toNat = 8 then (if s.cfg.getLsbD 2 = false then nonceAt s 1 else 0#32) else nonceAt s 2 := by
  have hlen : s.secondPart.length = s.arg1.toNat := Memory.readBytes_length ..
  have hword0 : le32 s.secondPart 0 = nonceAt s 0 := le32_secondPart (i := 0) (by omega)
  have hword1 : le32 s.secondPart 4 = nonceAt s 1 := le32_secondPart (i := 1) (by omega)
  rw [State.cc8pad]
  rcases h with h8 | h12
  · cases s.cfg.getLsbD 2 with
    | false => simpa only [h8, hword0, hword1, and_self, if_true] using le32_padNonce_false (hlen.trans h8)
    | true => simpa [h8, hword0, hword1] using le32_padNonce_true (hlen.trans h8)
  · have hword2 : le32 s.secondPart 8 = nonceAt s 2 := le32_secondPart (i := 2) (by omega)
    have hpad : padNonce (s.cfg.getLsbD 2) s.secondPart = s.secondPart := if_neg (by omega)
    rw [hpad]
    simp [h12, hword0, hword1, hword2]

/-- The state `SC_INIT` builds holds the words R125 to R127 name. -/
theorem initialState_eq_initWords {variant : Variant} {s : State} (h : LengthsAccepted variant s) :
    initialState variant s.cc8pad s.firstPart s.secondPart s.arg2 = initWords variant s := by
  obtain ⟨hkey, hsalsa, hchacha, -⟩ := h
  cases variant with
  | salsa20 =>
    have hnonce := hsalsa rfl
    have h0 : le32 s.secondPart 0 = nonceAt s 0 := le32_secondPart (i := 0) (by omega)
    have h1 : le32 s.secondPart 4 = nonceAt s 1 := le32_secondPart (i := 1) (by omega)
    simp (disch := omega) only [initialState, initWords, salsaState, salsaWords, constantWords_eq,
      keyWord_firstPart hkey, h0, h1]
    rfl
  | chacha20 =>
    obtain ⟨h0, h1, h2⟩ := le32_padNonce_secondPart (hchacha rfl)
    simp (disch := omega) only [initialState, initWords, chachaState, chachaWords, constantWords_eq,
      keyWord_firstPart hkey, h0, h1, h2]
    rfl

/-- `SC_INIT` on a slot that exists: the lifecycle check, then the lengths (R136). -/
theorem runScInit_slot {ctx : BitVec 4} {s : State} {c : ScCtx} (h : s.sc[ctx.toNat]? = some c) (variant : Variant)
    (rounds : BitVec 16) :
    runScInit ctx variant rounds s
      = if c.life = .live then .fail .illegalState
        else if scInitLengthsOk variant s then .succeed (s.setSc ctx.toNat (scInitCtx variant rounds s)) []
        else .fail .invalidArgument := by
  simp only [runScInit, h]

/-- Settles O28: the checks in order, and the context's words by `initialState_eq_initWords`. -/
theorem scInitRule : Obligations.ScInitRule := by
  intro ctx variant rounds s
  refine ⟨fun hslot => failsAs_of_runOf (runScInit_noSlot hslot variant rounds s), fun c hc =>
    ⟨fun hl => ?live, fun hl hlen => ?lengths, fun hl hlen => ?ok⟩⟩
  case live => exact failsAs_of_runOf ((runScInit_slot hc variant rounds).trans (if_pos hl))
  case lengths =>
    rw [← scInitLengthsOk_iff] at hlen
    exact failsAs_of_runOf ((runScInit_slot hc variant rounds).trans (by rw [if_neg hl, if_neg hlen]))
  case ok =>
    refine succeedsAs_nil_of_runOf ((runScInit_slot hc variant rounds).trans ?_)
    rw [if_neg hl, if_pos ((scInitLengthsOk_iff variant s).2 hlen), scInitCtx, initialState_eq_initWords hlen]
    rfl

/-! ### `SC_PROCESS` -/

/-- Byte `j` of the keystream of a context: byte `j mod 64` of the block `j div 64` blocks further (R137). -/
def keystreamByte (c : ScCtx) (j : Nat) : Byte :=
  (block c.variant ((advanceCounter c.variant)^[j / 64] c.state) c.rounds).getD (j % 64) 0#8

/-- The context `n` blocks further. -/
def ScCtx.skip (c : ScCtx) (n : Nat) : ScCtx := { c with state := (advanceCounter c.variant)^[n] c.state }

/-- The keystream of a context some blocks further is the rest of its keystream. -/
theorem keystreamByte_skip (c : ScCtx) (n j : Nat) : keystreamByte (c.skip n) j = keystreamByte c (64 * n + j) := by
  rw [keystreamByte, keystreamByte, Nat.mul_add_div (by decide), Nat.mul_add_mod, Nat.add_comm n,
    Function.iterate_add_apply]
  rfl

theorem ScCtx.skip_skip (c : ScCtx) (m n : Nat) : (c.skip m).skip n = c.skip (m + n) := by
  rw [Nat.add_comm]
  simp only [ScCtx.skip, Function.iterate_add_apply]

/-- A byte of one chunk: the data XORed with the block (R137). -/
theorem chunk_getD (data block : Bytes) (hblock : block.length = 64) {j : Nat} (h : j < data.length) (h64 : j < 64) :
    (List.zipWith (· ^^^ ·) (data.take 64) block).getD j 0#8 = data.getD j 0#8 ^^^ block.getD j 0#8 := by
  have hj : j < block.length := by omega
  simp [h, h64, hj]

/-- The chunk loop XORs the data with the keystream (R137). -/
theorem processChunks_getD (c : ScCtx) (k : Nat) (data : Bytes) (hcover : data.length ≤ 64 * k) {j : Nat}
    (h : j < data.length) :
    (processChunks c.variant c.rounds k c.state data).2.getD j 0#8 = data.getD j 0#8 ^^^ keystreamByte c j := by
  induction k generalizing c data j with
  | zero => omega
  | succ k ih =>
    have hchunk : (List.zipWith (· ^^^ ·) (data.take 64) (block c.variant c.state c.rounds)).length
        = min 64 data.length := by simp
    simp only [processChunks]
    by_cases h64 : j < 64
    · rw [List.getD_append _ _ _ _ (by omega), chunk_getD data _ (block_length ..) h h64, keystreamByte,
        Nat.div_eq_of_lt h64, Nat.mod_eq_of_lt h64, Function.iterate_zero_apply]
    · have hdrop : (data.drop 64).length = data.length - 64 := List.length_drop
      have hrest := ih (c.skip 1) (data.drop 64) (by omega) (j := j - 64) (by omega)
      rw [keystreamByte_skip, show 64 * 1 + (j - 64) = j by omega] at hrest
      rw [List.getD_append_right _ _ _ _ (by omega), hchunk, Nat.min_eq_left (by omega)]
      refine hrest.trans ?_
      rw [List.getD_eq_getElem?_getD, List.getElem?_drop, ← List.getD_eq_getElem?_getD,
        show 64 + (j - 64) = j by omega]

/-- What `SC_PROCESS` gives on a LIVE slot when `ILEN` fits (R137). -/
theorem runScProcess_live {ctx : BitVec 4} {s : State} {c : ScCtx} (h : s.sc[ctx.toNat]? = some c)
    (hl : c.life = .live) (hn : s.ilen.toNat ≤ 16384) :
    ∃ out : Bytes, out.length = s.ilen.toNat
      ∧ (∀ j, j < s.ilen.toNat → out.getD j 0#8 = Memory.read s.ibuf j ^^^ keystreamByte c j)
      ∧ runOf s (.scProcess ctx) = .succeed (putSc s ctx.toNat (c.skip ((s.ilen.toNat + 63) / 64))) out := by
  have hcover : s.operand.length ≤ 64 * chunkCount s.ilen.toNat := by
    rw [operand_length]
    exact chunkCount_covers _
  refine ⟨_, (processChunks_length c.variant c.rounds _ c.state _ hcover).trans (operand_length s),
    fun j hj => ?bytes, (withLiveSc_live h hl _).trans ?run⟩
  case bytes =>
    rw [processChunks_getD c _ _ hcover (by rwa [operand_length]), State.operand, Memory.readBytes_getD _ _ _ _ hj,
      Nat.zero_add]
  case run =>
    rw [if_pos (by simpa [State.ilenFits] using hn)]
    simp only [processChunks_state]
    rfl

theorem runScProcess_tooLong {ctx : BitVec 4} {s : State} {c : ScCtx} (h : s.sc[ctx.toNat]? = some c)
    (hl : c.life = .live) (hn : 16384 < s.ilen.toNat) : runOf s (.scProcess ctx) = .fail .invalidArgument :=
  (withLiveSc_live h hl _).trans (if_neg (by simpa [State.ilenFits] using hn))

/-- Settles O29: the checks in order, and the bytes by `processChunks_getD`. -/
theorem scProcessRule : Obligations.ScProcessRule := by
  intro ctx s
  refine ⟨fun hslot => failsAs_of_runOf (withLiveSc_noSlot s hslot _), fun c hc =>
    ⟨fun hl => failsAs_of_runOf (withLiveSc_notLive hc hl _),
      fun hl hn => failsAs_of_runOf (runScProcess_tooLong hc hl hn), fun hl hn hw => ?_⟩⟩
  obtain ⟨out, hlen, hbytes, hrun⟩ := runScProcess_live hc hl hn
  exact ⟨out, hlen, hbytes, succeedsAs_of_runOf hw hrun⟩

/-! ### Two commands in turn -/

/-- `u` is a state `SC_PROCESS` leaves after it transformed the operand of `s` with context `c` (R137). -/
structure Processed (ctx : BitVec 4) (c : ScCtx) (s u : State) : Prop where
  sc : u.sc = s.sc.setIfInBounds ctx.toNat (c.skip ((s.ilen.toNat + 63) / 64))
  ilen : u.ilen = s.ilen
  olen : u.olen = s.ilen
  obuf_wf : Memory.wf u.obuf = true
  obuf : ∀ j, j < s.ilen.toNat → Memory.read u.obuf j = Memory.read s.ibuf j ^^^ keystreamByte c j

theorem exec_scProcess_live {ctx : BitVec 4} {s : State} {c : ScCtx} (h : s.sc[ctx.toNat]? = some c)
    (hl : c.life = .live) (hn : s.ilen.toNat ≤ 16384) (hw : Memory.wf s.obuf = true) :
    ∃ u, exec (.scProcess ctx) s = .next u ∧ Processed ctx c s u := by
  obtain ⟨out, hlen, hbytes, hrun⟩ := runScProcess_live h hl hn
  refine ⟨_, exec_of_runOf hrun, rfl, rfl, ?olen, ?wf, fun j hj => ?obuf⟩
  case olen => rw [finish_olen, hlen, BitVec.ofNat_toNat, BitVec.setWidth_eq]
  case wf => exact Memory.wf_writeBytes hw 0 out
  case obuf =>
    refine (Memory.read_writeBytes hw 0 out j).trans ?_
    rw [if_pos (by omega), Nat.sub_zero, hbytes j hj]

/-- `exec_scProcess_live` for a command whose end is known. -/
theorem processed_of_exec {ctx : BitVec 4} {s u : State} {c : ScCtx} (h : s.sc[ctx.toNat]? = some c)
    (hl : c.life = .live) (hn : s.ilen.toNat ≤ 16384) (hw : Memory.wf s.obuf = true)
    (he : exec (.scProcess ctx) s = .next u) : Processed ctx c s u := by
  obtain ⟨u', he', hu'⟩ := exec_scProcess_live h hl hn hw
  cases he.symm.trans he'
  exact hu'

/-- A state whose words agree but for the counter's becomes the same when the counter is put back (R138). -/
theorem seekState_eq {c : ScCtx} {x : Words16} (h : ∀ k, k ∉ counterWords c.variant → x[k] = c.state[k]) :
    seekState c.variant (counterLo c) (counterHi c) x = c.state := by
  obtain ⟨life, variant, rounds, state⟩ := c
  have hword (k : Fin 16) : (seekState variant (counterLo ⟨life, variant, rounds, state⟩)
      (counterHi ⟨life, variant, rounds, state⟩) x)[k] = state[k] := by
    cases variant with
    | salsa20 =>
      have h8 := words_getElem_set x 8 k state[8]
      have h9 := words_getElem_set (x.set 8 state[8]) 9 k state[9]
      refine h9.trans ?_
      split
      · next hk => subst hk; rfl
      · next hk9 =>
        refine h8.trans ?_
        split
        · next hk => subst hk; rfl
        · next hk8 => exact h k (by simp [counterWords, Ne.symm hk8, Ne.symm hk9])
    | chacha20 =>
      refine (words_getElem_set x 12 k state[12]).trans ?_
      split
      · next hk => subst hk; rfl
      · next hk => exact h k (by simp [counterWords, Ne.symm hk])
  exact Vector.ext fun i hi => hword ⟨i, hi⟩

/-- A context some blocks further with its counter put back is the context (R141). -/
theorem seekState_skip (c : ScCtx) (n : Nat) :
    seekState c.variant (counterLo c) (counterHi c) (c.skip n).state = c.state :=
  seekState_eq fun _ => iterate_advanceCounter_frame c.variant n c.state

/-- `SC_SEEK` on a LIVE slot puts the counter there and leaves the operand and `OBUF` (R138). -/
theorem exec_scSeek_live {ctx : BitVec 4} {s : State} {c : ScCtx} (h : s.sc[ctx.toNat]? = some c)
    (hl : c.life = .live) :
    ∃ u, exec (.scSeek ctx) s = .next u
      ∧ u.sc[ctx.toNat]? = some { c with state := seekState c.variant s.arg0 s.arg1 c.state }
      ∧ u.ilen = s.ilen ∧ u.ibuf = s.ibuf ∧ u.obuf = s.obuf :=
  ⟨_, exec_of_runOf (runScSeek_live h hl), scSlot_setIfInBounds h _, rfl, rfl, rfl⟩

/-- Settles O38: the second command has the context of the first, so it XORs the same keystream again. -/
theorem transformIsAnInvolution : Obligations.TransformIsAnInvolution := by
  intro ctx s t c m hc hl hn hw ht hm
  have hfirst := processed_of_exec hc hl hn hw ht
  have hmoved : t.sc[ctx.toNat]? = some (c.skip ((s.ilen.toNat + 63) / 64)) := by
    rw [hfirst.sc]
    exact scSlot_setIfInBounds hc _
  obtain ⟨t', hseek, hctx, hilen, hibuf, hobuf⟩ :=
    exec_scSeek_live (s := { t with ibuf := m, arg0 := counterLo c, arg1 := counterHi c }) hmoved hl
  have hback : t'.sc[ctx.toNat]? = some c := hctx.trans (congrArg _ (congrArg (ScCtx.mk _ _ _) (seekState_skip c _)))
  have hlen : t'.ilen = s.ilen := hilen.trans hfirst.ilen
  obtain ⟨u, hu, hsecond⟩ := exec_scProcess_live hback hl (hlen ▸ hn) (hobuf ▸ hfirst.obuf_wf)
  refine ⟨t', u, hseek, hu, hsecond.olen.trans hlen, fun j hj => ?_⟩
  rw [hsecond.obuf j (hlen ▸ hj), hibuf, hm j hj, hfirst.obuf j hj, BitVec.xor_assoc, BitVec.xor_self,
    BitVec.xor_zero]

/-- Settles O39: the second command starts where a multiple of 64 bytes left the counter, so its keystream is the rest
of the keystream of one command. -/
theorem splittingAtBlockBoundaries : Obligations.SplittingAtBlockBoundaries := by
  intro ctx s u t1 c n1 n2 m hc hl hw hcut hfit hilen hu ht1 hm
  have hlen : s.ilen.toNat = n1 + n2 := by rw [hilen, BitVec.toNat_ofNat]; omega
  have hlen1 : (BitVec.ofNat 32 n1).toNat = n1 := by rw [BitVec.toNat_ofNat]; omega
  have hlen2 : (BitVec.ofNat 32 n2).toNat = n2 := by rw [BitVec.toNat_ofNat]; omega
  have hwhole := processed_of_exec hc hl (by omega) hw hu
  have hfirst := processed_of_exec (s := { s with ilen := BitVec.ofNat 32 n1 }) hc hl
    (by simp only [hlen1]; omega) hw ht1
  have hmoved : t1.sc[ctx.toNat]? = some (c.skip (n1 / 64)) := by
    rw [hfirst.sc, hlen1, show (n1 + 63) / 64 = n1 / 64 by omega]
    exact scSlot_setIfInBounds hc _
  obtain ⟨t2, ht2, hsecond⟩ := exec_scProcess_live (s := { t1 with ilen := BitVec.ofNat 32 n2, ibuf := m }) hmoved hl
    (by simp only [hlen2]; omega) hfirst.obuf_wf
  refine ⟨t2, ht2, ?contexts, fun j hj => ?first, fun j hj => ?second⟩
  case contexts =>
    rw [hsecond.sc, hfirst.sc, hwhole.sc, Vector.setIfInBounds_setIfInBounds, ScCtx.skip_skip, hlen, hlen2]
    congr 2
    omega
  case first => rw [hfirst.obuf j (hlen1.symm ▸ hj), hwhole.obuf j (by omega)]
  case second =>
    rw [hsecond.obuf j (hlen2.symm ▸ hj), hwhole.obuf (n1 + j) (by omega), hm j hj, keystreamByte_skip,
      show 64 * (n1 / 64) = n1 by omega]

end Sys2Proof.Machine
end

section
/-! Proofs for 42_modular_arithmetic.md: the Montgomery and the Barrett datapath compute the residue of R200. -/

namespace Sys2Proof.Machine

/-! ### Limbs and bits -/

theorem lt_two_pow_bitLen (e : Nat) : e < 2 ^ bitLen e := by
  unfold bitLen
  split
  · next h => simp [h]
  · exact Nat.lt_log2_self

/-- The limbs of R203 hold `n`. -/
theorem lt_montRadix (n : Nat) : n < montRadix n :=
  Nat.lt_log2_self.trans_le (Nat.pow_le_pow_right (by decide) (by simp only [limbCount, Config.limbBits]; omega))

/-- One limb less would not hold `n` (R203). -/
theorem two_pow_limbCount_pred_le {n : Nat} (hn : 1 ≤ n) : 2 ^ (Config.limbBits * (limbCount n - 1)) ≤ n :=
  (Nat.pow_le_pow_right (by decide) (by simp only [limbCount, Config.limbBits]; omega)).trans
    (Nat.log2_self_le (by omega))

/-- One turn of the exponent loops: the power that the bits from `i` up name, from the one that the bits above `i`
name (R207, R209). -/
theorem pow_div_two_pow (b e i : Nat) :
    b ^ (e / 2 ^ i)
      = if e.testBit i then b ^ (e / 2 ^ (i + 1)) * b ^ (e / 2 ^ (i + 1)) * b
        else b ^ (e / 2 ^ (i + 1)) * b ^ (e / 2 ^ (i + 1)) := by
  have hbits : e / 2 ^ (i + 1) = e / 2 ^ i / 2 := by rw [pow_succ, Nat.div_div_eq_div_mul]
  rw [hbits, Nat.testBit_eq_decide_div_mod_eq, ← pow_add, ← pow_succ]
  split
  · next hbit =>
    rw [decide_eq_true_eq] at hbit
    congr 1
    omega
  · next hbit =>
    rw [decide_eq_true_eq] at hbit
    congr 1
    omega

/-! ### The Montgomery constants -/

/-- A Newton step squares the error of the inverse modulo `r` (log 14). -/
theorem one_sub_mul_inverseMod_succ (n : Nat) {r : Nat} (hr : 0 < r) (j : Nat) :
    (1 - n * inverseMod n r (j + 1) : ℤ)
      ≡ (1 - n * inverseMod n r j) * (1 - n * inverseMod n r j) [ZMOD r] := by
  have hlt : n * inverseMod n r j % r < r := Nat.mod_lt _ hr
  simp only [inverseMod]
  generalize inverseMod n r j = y at hlt
  have hcast : ((r + 2 - n * y % r : ℕ) : ℤ) = r + 2 - n * y % r := by
    rw [Nat.cast_sub (by omega)]
    push_cast
    ring
  have hfactor : (r + 2 - n * y % r : ℤ) ≡ 2 - n * y [ZMOD r] := by
    have hr0 : (r : ℤ) ≡ 0 [ZMOD r] := Int.modEq_zero_iff_dvd.2 dvd_rfl
    simpa using (hr0.add_right 2).sub (Int.mod_modEq (n * y : ℤ) r)
  have hy : ((y * (r + 2 - n * y % r) % r : ℕ) : ℤ) ≡ y * (2 - n * y) [ZMOD r] := by
    rw [Int.natCast_mod, Nat.cast_mul, hcast]
    exact (Int.mod_modEq _ _).trans (hfactor.mul_left _)
  refine ((hy.mul_left (n : ℤ)).sub_left 1).trans ?_
  rw [show (1 - n * (y * (2 - n * y)) : ℤ) = (1 - n * y) * (1 - n * y) by ring]

/-- After `j` Newton steps the inverse of an odd `n` is right to `2^j` bits (log 14). -/
theorem two_pow_dvd_one_sub_mul_inverseMod {n r : Nat} (hn : n % 2 = 1) (hr : 0 < r) (j k : Nat) (hk : k ≤ 2 ^ j)
    (hdvd : 2 ^ k ∣ r) : (2 ^ k : ℤ) ∣ 1 - n * inverseMod n r j := by
  induction j generalizing k with
  | zero =>
    rw [pow_zero] at hk
    interval_cases k
    · exact one_dvd _
    · simp only [inverseMod]
      omega
  | succ j ih =>
    have hsplit : k / 2 + (k - k / 2) = k := by omega
    rw [pow_succ] at hk
    have hlow := ih (k / 2) (by omega) ((pow_dvd_pow 2 (by omega)).trans hdvd)
    have hhigh := ih (k - k / 2) (by omega) ((pow_dvd_pow 2 (by omega)).trans hdvd)
    have hsquare := mul_dvd_mul hlow hhigh
    rw [← pow_add, hsplit] at hsquare
    have hstep := (one_sub_mul_inverseMod_succ n hr j).of_dvd (m := 2 ^ k) (by exact_mod_cast hdvd)
    exact (hstep.dvd_iff).2 hsquare

/-- The negated residue of an inverse modulo `r` is inverse to `-1` (R204). -/
theorem dvd_mul_neg_inverse_add_one {n r y : Nat} (hr : 0 < r) (h : (r : ℤ) ∣ 1 - n * y) :
    r ∣ n * ((r - y % r) % r) + 1 := by
  have hneg : (((r - y % r) % r : ℕ) : ℤ) ≡ -y [ZMOD r] := by
    have hr0 : (r : ℤ) ≡ 0 [ZMOD r] := Int.modEq_zero_iff_dvd.2 dvd_rfl
    rw [Int.natCast_mod, Nat.cast_sub (Nat.mod_lt _ hr).le, Int.natCast_mod]
    refine (Int.mod_modEq _ _).trans ?_
    simpa using hr0.sub (Int.mod_modEq (y : ℤ) r)
  have hsum := (hneg.mul_left (n : ℤ)).add_right 1
  rw [show (n * -y + 1 : ℤ) = 1 - n * y by ring] at hsum
  exact_mod_cast Int.modEq_zero_iff_dvd.1 (hsum.trans (Int.modEq_zero_iff_dvd.2 h))

/-- The defining property of `n'` (R204). -/
theorem montRadix_dvd_mul_montNPrime {n : Nat} (hn : n % 2 = 1) : montRadix n ∣ n * montNPrime n + 1 := by
  have hr : 0 < montRadix n := (Nat.zero_le n).trans_lt (lt_montRadix n)
  have hinv := two_pow_dvd_one_sub_mul_inverseMod hn hr (bitLen (Config.limbBits * limbCount n)) _
    (lt_two_pow_bitLen _).le dvd_rfl
  exact dvd_mul_neg_inverse_add_one hr (by exact_mod_cast hinv)

/-- What Montgomery arithmetic asks of its constants (R203, R204). -/
structure MontConstants (n r n' : Nat) : Prop where
  pos : 0 < n
  lt : n < r
  coprime : n.Coprime r
  dvd : r ∣ n * n' + 1

theorem montConstants_of_odd {n : Nat} (hn : n % 2 = 1) : MontConstants n (montRadix n) (montNPrime n) where
  pos := by omega
  lt := lt_montRadix n
  coprime := Nat.Coprime.pow_right _ (Nat.coprime_two_right.2 (Nat.odd_iff.2 hn))
  dvd := montRadix_dvd_mul_montNPrime hn

/-! ### Montgomery arithmetic -/

/-- `x` is the Montgomery form of `a` modulo `n` (R206). -/
def IsMontForm (n r a x : Nat) : Prop := x < n ∧ x ≡ a * r [MOD n]

section

variable {n r n' : Nat} (hc : MontConstants n r n')

include hc

/-- `REDC` adds a multiple of `n` that makes its input a multiple of `R` (R205). -/
theorem MontConstants.dvd_redc (t : Nat) : r ∣ t + t % r * n' % r * n := by
  have hm : t % r * n' % r * n ≡ t * n' * n [MOD r] :=
    ((Nat.mod_modEq _ _).trans ((Nat.mod_modEq t r).mul_right n')).mul_right n
  have hfactor : t + t * n' * n = t * (n * n' + 1) := by ring
  have hsum : t + t * n' * n ≡ 0 [MOD r] := Nat.modEq_zero_iff_dvd.2 (hfactor ▸ hc.dvd.mul_left t)
  exact Nat.modEq_zero_iff_dvd.1 ((hm.add_left t).trans hsum)

/-- `REDC` divides by `R` modulo `n` (R205). -/
theorem MontConstants.redc_spec {t : Nat} (ht : t < r * n) :
    redc n r n' t < n ∧ redc n r n' t * r ≡ t [MOD n] := by
  have hr : 0 < r := hc.pos.trans hc.lt
  have hmul := Nat.div_mul_cancel (hc.dvd_redc t)
  have hm : t % r * n' % r < r := Nat.mod_lt _ hr
  simp only [redc]
  generalize t % r * n' % r = m at hmul hm
  generalize (t + m * n) / r = u at hmul
  have hmod : u * r ≡ t [MOD n] := by
    rw [hmul]
    exact Nat.add_mul_mod_self_right ..
  have hu : u < 2 * n := by
    have hmn : m * n < r * n := Nat.mul_lt_mul_of_pos_right hm hc.pos
    refine Nat.lt_of_mul_lt_mul_right (a := r) ?_
    calc u * r = t + m * n := hmul
      _ < r * n + r * n := by omega
      _ = 2 * n * r := by ring
  split
  · next hge =>
    refine ⟨by omega, Nat.ModEq.trans ?_ hmod⟩
    have hadd : (u - n) * r + r * n = u * r := by rw [mul_comm r n, ← add_mul, Nat.sub_add_cancel hge]
    exact hadd ▸ (Nat.add_mul_mod_self_right ..).symm
  · exact ⟨by omega, hmod⟩

theorem MontConstants.mul_lt {x y : Nat} (hx : x < n) (hy : y < n) : x * y < r * n :=
  Nat.mul_lt_mul'' (hx.trans hc.lt) hy

/-- `REDC` of a product of two factors `R` takes one of them away (R205). -/
theorem MontConstants.isMontForm_redc {t a : Nat} (ht : t < r * n) (ha : t ≡ a * r * r [MOD n]) :
    IsMontForm n r a (redc n r n' t) := by
  obtain ⟨hlt, hmod⟩ := hc.redc_spec ht
  exact ⟨hlt, Nat.ModEq.cancel_right_of_coprime hc.coprime (hmod.trans ha)⟩

/-- Montgomery multiplication multiplies in Montgomery form (R206). -/
theorem MontConstants.isMontForm_montMul {a b x y : Nat} (hx : IsMontForm n r a x) (hy : IsMontForm n r b y) :
    IsMontForm n r (a * b) (montMul n r n' x y) := by
  obtain ⟨hxlt, hxmod⟩ := hx
  obtain ⟨hylt, hymod⟩ := hy
  refine hc.isMontForm_redc (hc.mul_lt hxlt hylt) ?_
  rw [show a * b * r * r = a * r * (b * r) by ring]
  exact hxmod.mul hymod

/-- The exponent loop takes the power named by the bits above `i` to the whole power (R207). -/
theorem MontConstants.isMontForm_montLoop {b x : Nat} (hx : IsMontForm n r b x) (e i acc : Nat)
    (hacc : IsMontForm n r (b ^ (e / 2 ^ i)) acc) : IsMontForm n r (b ^ e) (montLoop n r n' x e i acc) := by
  induction i generalizing acc with
  | zero => simpa [montLoop] using hacc
  | succ i ih =>
    have hsq := hc.isMontForm_montMul hacc hacc
    refine ih _ ?_
    rw [pow_div_two_pow]
    split
    · exact hc.isMontForm_montMul hsq hx
    · exact hsq

/-- `REDC` leaves Montgomery form (R207). -/
theorem MontConstants.redc_of_isMontForm {a x : Nat} (hx : IsMontForm n r a x) : redc n r n' x = a % n := by
  obtain ⟨hxlt, hxmod⟩ := hx
  have hr : 1 ≤ r := hc.pos.trans hc.lt
  obtain ⟨hlt, hmod⟩ := hc.redc_spec (hxlt.trans_le (Nat.le_mul_of_pos_left n hr))
  have heq : redc n r n' x ≡ a [MOD n] := Nat.ModEq.cancel_right_of_coprime hc.coprime (hmod.trans hxmod)
  exact (Nat.mod_eq_of_lt hlt).symm.trans heq

end

/-- Montgomery exponentiation meets the contract for odd `n` (R207, R200). -/
theorem montExp_eq_pow_mod (b e : Nat) {n : Nat} (hn : n % 2 = 1) : montExp b e n = b ^ e % n := by
  have hc := montConstants_of_odd hn
  have hx : IsMontForm n (montRadix n) b
      (redc n (montRadix n) (montNPrime n) (b % n * (montRadix n * montRadix n % n))) := by
    refine hc.isMontForm_redc (hc.mul_lt (Nat.mod_lt _ hc.pos) (Nat.mod_lt _ hc.pos)) ?_
    rw [mul_assoc]
    exact (Nat.mod_modEq b n).mul (Nat.mod_modEq _ n)
  have hone : IsMontForm n (montRadix n) (b ^ (e / 2 ^ bitLen e)) (montRadix n % n) := by
    rw [Nat.div_eq_of_lt (lt_two_pow_bitLen e), pow_zero, IsMontForm, one_mul]
    exact ⟨Nat.mod_lt _ hc.pos, Nat.mod_modEq _ n⟩
  exact hc.redc_of_isMontForm (hc.isMontForm_montLoop hx e (bitLen e) _ hone)

/-! ### Barrett arithmetic -/

/-- The quotient that Barrett reduction estimates is at most 2 short, so the rest is below `3 n` (R208): `β` and `γ`
are the two shifts. -/
theorem barrett_quotient_bounds {n x β γ : Nat} (hn : 1 ≤ n) (hβ : 0 < β) (hβn : β ≤ n) (hx : x < β * γ) :
    x / β * (β * γ / n) / γ * n ≤ x ∧ x < x / β * (β * γ / n) / γ * n + 3 * n := by
  have hγ : 0 < γ := Nat.pos_of_mul_pos_left (Nat.zero_lt_of_lt hx)
  have hxdiv := Nat.div_add_mod x β
  have hxmod := Nat.mod_lt x hβ
  have hμdiv := Nat.div_add_mod (β * γ) n
  have hμmod := Nat.mod_lt (β * γ) hn
  have hq1 : x / β < γ := Nat.div_lt_of_lt_mul hx
  generalize x / β = q1 at *
  generalize β * γ / n = μ at *
  have hqdiv := Nat.div_add_mod (q1 * μ) γ
  have hqmod := Nat.mod_lt (q1 * μ) hγ
  generalize q1 * μ / γ = q3 at *
  generalize x % β = x0 at *
  generalize β * γ % n = ρ at *
  generalize q1 * μ % γ = σ at *
  have hscaled : γ * x = γ * (q3 * n) + (σ * n + q1 * ρ + γ * x0) := by
    calc γ * x = q1 * (β * γ) + γ * x0 := by rw [← hxdiv]; ring
      _ = q1 * μ * n + q1 * ρ + γ * x0 := by rw [← hμdiv]; ring
      _ = γ * (q3 * n) + (σ * n + q1 * ρ + γ * x0) := by rw [← hqdiv]; ring
  have hσ : σ * n < γ * n := Nat.mul_lt_mul_of_pos_right hqmod hn
  have hρ : q1 * ρ ≤ γ * n := Nat.mul_le_mul hq1.le hμmod.le
  have hx0 : γ * x0 ≤ γ * n := Nat.mul_le_mul_left γ (hxmod.le.trans hβn)
  constructor
  · exact Nat.le_of_mul_le_mul_left (by omega) hγ
  · refine Nat.lt_of_mul_lt_mul_left (a := γ) ?_
    rw [mul_add, show γ * (3 * n) = 3 * (γ * n) by ring]
    omega

/-- Two turns of the final loop are enough (R208). -/
theorem subtractIfGe_twice {n r : Nat} (h : r < 3 * n) : subtractIfGe n (subtractIfGe n r) = r % n := by
  have hturn {r : Nat} : subtractIfGe n r % n = r % n := by
    unfold subtractIfGe
    split
    · next hge => exact (Nat.mod_eq_sub_mod hge).symm
    · rfl
  rw [← hturn, ← hturn]
  refine (Nat.mod_eq_of_lt ?_).symm
  unfold subtractIfGe
  split_ifs <;> omega

/-- Barrett reduction is the remainder on its input range (R208). -/
theorem barrettReduce_eq_mod {n x : Nat} (hn : 1 ≤ n) (hx : x < 2 ^ (Config.limbBits * (2 * limbCount n))) :
    barrettReduce n x = x % n := by
  have hk : 1 ≤ limbCount n := Nat.succ_pos _
  have hshifts : 2 ^ (Config.limbBits * (2 * limbCount n))
      = 2 ^ (Config.limbBits * (limbCount n - 1)) * 2 ^ (Config.limbBits * (limbCount n + 1)) := by
    rw [← pow_add]
    congr 1
    simp only [Config.limbBits]
    omega
  obtain ⟨hle, hlt⟩ := barrett_quotient_bounds hn (Nat.two_pow_pos _) (two_pow_limbCount_pred_le hn)
    (hshifts ▸ hx)
  simp only [barrettReduce, hshifts]
  rw [subtractIfGe_twice (by omega), mul_comm _ n, Nat.sub_mul_mod (by rwa [mul_comm])]

/-- A product of two residues is in the range of Barrett reduction (R209). -/
theorem barrettReduce_mul {n x y : Nat} (hx : x < n) (hy : y < n) : barrettReduce n (x * y) = x * y % n := by
  refine barrettReduce_eq_mod (by omega) ?_
  have hprod := Nat.mul_lt_mul'' (hx.trans (lt_montRadix n)) (hy.trans (lt_montRadix n))
  rwa [montRadix, ← pow_add, show Config.limbBits * limbCount n + Config.limbBits * limbCount n
    = Config.limbBits * (2 * limbCount n) by ring] at hprod

/-- The exponent loop takes the power named by the bits above `i` to the whole power (R209). -/
theorem barrettLoop_eq_pow_mod {n : Nat} (hn : 1 ≤ n) (b e i : Nat) :
    barrettLoop n (b % n) e i (b ^ (e / 2 ^ i) % n) = b ^ e % n := by
  have hlt (a : Nat) : a % n < n := Nat.mod_lt a hn
  induction i with
  | zero => simp [barrettLoop]
  | succ i ih =>
    rw [barrettLoop, barrettReduce_mul (hlt _) (hlt _), ← Nat.mul_mod, barrettReduce_mul (hlt _) (hlt _),
      ← Nat.mul_mod, ← ih, pow_div_two_pow b e i]
    split <;> rfl

/-- Barrett exponentiation meets the contract for every `n >= 1` (R209, R200). -/
theorem barrettExp_eq_pow_mod (b e : Nat) {n : Nat} (hn : 1 ≤ n) : barrettExp b e n = b ^ e % n := by
  have hloop := barrettLoop_eq_pow_mod hn b e (bitLen e)
  rwa [Nat.div_eq_of_lt (lt_two_pow_bitLen e), pow_zero] at hloop

/-! ### The contract -/

/-- `ModExp` is the residue of the power (R200, R210). -/
theorem modExp_eq_pow_mod (b e : Nat) {n : Nat} (hn : 1 ≤ n) : modExp b e n = b ^ e % n := by
  unfold modExp
  split
  · next hodd => exact montExp_eq_pow_mod b e hodd
  · exact barrettExp_eq_pow_mod b e hn

end Sys2Proof.Machine
end

section
/-! Proofs for 41_rsa_engine.md: construction (O41, O42), the query and disposal (O46, O47). -/

namespace Sys2Proof.Machine

open Sys2Proof.Claims

/-! ### The slot an RSA command names -/

section

variable {ctx : BitVec 4} {s : State} {c : RsaCtx}

theorem rsaSlot_none (s : State) (h : 2 ≤ ctx.toNat) : s.rsa[ctx.toNat]? = none :=
  Vector.getElem?_eq_none h

theorem withLiveRsa_noSlot (s : State) (h : 2 ≤ ctx.toNat) (body : RsaCtx → RunResult) :
    withLiveRsa ctx s body = .fail .illegalCommand := by
  simp [withLiveRsa, rsaSlot_none s h]

theorem withLiveRsa_notLive (h : s.rsa[ctx.toNat]? = some c) (hl : c.life ≠ .live) (body : RsaCtx → RunResult) :
    withLiveRsa ctx s body = .fail .illegalState := by
  simp [withLiveRsa, h, hl]

/-- On a slot that exists the lifecycle check depends on the body at that slot's context alone. -/
theorem withLiveRsa_congr {body body' : RsaCtx → RunResult} (h : s.rsa[ctx.toNat]? = some c)
    (hbody : body c = body' c) : withLiveRsa ctx s body = withLiveRsa ctx s body' := by
  simp only [withLiveRsa, h, hbody]

end

/-! ### `RSA_QUERY`, `RSA_DISPOSE` -/

theorem runRsaQuery_live {ctx : BitVec 4} {s : State} {c : RsaCtx} (h : s.rsa[ctx.toNat]? = some c)
    (hl : c.life = .live) : runOf s (.rsaQuery ctx) = .succeed s (rsaQueryBytes c) :=
  withLiveRsa_live h hl _

/-- The bytes of the flags word: the availability flags, `hashId`, `hashLen` and 0 (R178). -/
theorem bytes32_rsaFlagsWord (c : RsaCtx) :
    bytes32 (rsaFlagsWord c)
      = [BitVec.ofNat 8 (c.hasPublicInfo.toNat + 2 * c.hasPrivateInfo.toNat + 4 * c.hasCrtInfo.toNat),
          c.hashId.zeroExtend 8, c.hashLen, 0#8] := by
  have hpub := Bool.toNat_le c.hasPublicInfo
  have hpriv := Bool.toNat_le c.hasPrivateInfo
  have hcrt := Bool.toNat_le c.hasCrtInfo
  have hid := c.hashId.isLt
  have hlen := c.hashLen.isLt
  simp only [bytes32, List.cons.injEq, and_true]
  refine ⟨?_, ?_, ?_, ?_⟩ <;> apply BitVec.eq_of_toNat_eq <;>
    simp only [rsaFlagsWord, BitVec.extractLsb'_toNat, BitVec.toNat_ofNat, BitVec.truncate_eq_setWidth,
      BitVec.toNat_setWidth, Nat.shiftRight_eq_div_pow] <;>
    omega

/-- The words `RSA_QUERY` reports (R178). -/
theorem rsaQueryBytes_eq (c : RsaCtx) :
    rsaQueryBytes c
      = bytes32 (c.keySizeBits.zeroExtend 32)
          ++ bytes32 (BitVec.ofNat 32 (c.keySizeBits.toNat / 8))
          ++ bytes32 (BitVec.ofNat 32 ((c.keySizeBits.toNat - 384) / 8 + 37))
          ++ [BitVec.ofNat 8 (c.hasPublicInfo.toNat + 2 * c.hasPrivateInfo.toNat + 4 * c.hasCrtInfo.toNat),
              c.hashId.zeroExtend 8, c.hashLen, 0#8] := by
  rw [rsaQueryBytes, bytes32_rsaFlagsWord, BitVec.ofNat_toNat]
  rfl

/-- Settles O46: on a LIVE slot the result is the query's three lengths and the flags word. -/
theorem rsaQueryRule : Obligations.RsaQueryRule := fun _ s =>
  ⟨fun hslot => failsAs_of_runOf (withLiveRsa_noSlot s hslot _), fun c hc =>
    ⟨fun hl => failsAs_of_runOf (withLiveRsa_notLive hc hl _),
      fun hl hw => succeedsAs_of_runOf hw (rsaQueryBytes_eq c ▸ runRsaQuery_live hc hl)⟩⟩

theorem runRsaDispose_noSlot {ctx : BitVec 4} (s : State) (h : 2 ≤ ctx.toNat) :
    runRsaDispose ctx s = .fail .illegalCommand := by
  simp [runRsaDispose, rsaSlot_none s h]

theorem runRsaDispose_slot {ctx : BitVec 4} {s : State} {c : RsaCtx} (h : s.rsa[ctx.toNat]? = some c) :
    runRsaDispose ctx s
      = if c.life = .live then .succeed (putRsa s ctx.toNat { c with life := .disposed }) []
        else .succeed s [] := by
  simp only [runRsaDispose, h]
  rfl

/-- Settles O47: a slot that exists is marked when it is LIVE. -/
theorem rsaDisposeRule : Obligations.RsaDisposeRule := fun _ s =>
  ⟨fun hslot => failsAs_of_runOf (runRsaDispose_noSlot s hslot), fun _ hc =>
    ⟨fun hl => succeedsAs_nil_of_runOf ((runRsaDispose_slot hc).trans (if_pos hl)),
      fun hl => succeedsAs_nil_of_runOf ((runRsaDispose_slot hc).trans (if_neg hl))⟩⟩

/-! ### `RSA_INIT`: the descriptor in `IBUF` -/

/-- The records `RSA_INIT` reads from its operand; none when `ILEN` does not fit or the operand is no descriptor. -/
def keyRecords (s : State) : Option (List KeyRecord) := if s.ilenFits then parseTop s.operand else none

theorem length_value_le_descriptor_length {rs : List KeyRecord} {r : KeyRecord} (h : r ∈ rs) :
    r.value.length ≤ (descriptor rs).length := by
  induction rs with
  | nil => cases h
  | cons r' rs ih =>
    simp only [descriptor_cons, fieldBytes, List.length_append, List.length_cons]
    rcases List.mem_cons.1 h with rfl | hrs
    · omega
    · have := ih hrs
      omega

/-- The records are read exactly when `IBUF` below `ILEN` is their descriptor (R165, R169). -/
theorem keyRecords_eq_some_iff (s : State) (rs : List KeyRecord) :
    keyRecords s = some rs
      ↔ s.ilen.toNat ≤ 16384 ∧ rs ≠ [] ∧ (∀ r ∈ rs, r.value.length < 65536)
          ∧ Memory.readBytes s.ibuf 0 s.ilen.toNat = descriptor rs := by
  obtain ⟨hparses, hrecords⟩ := descriptorParsesToItsRecords
  simp only [keyRecords, State.ilenFits, Config.ibufBytes, decide_eq_true_eq, Option.ite_none_right_eq_some]
  refine and_congr_right fun hfits => ⟨fun hparse => ?_, fun ⟨hne, hvalues, hbuf⟩ => ?_⟩
  · obtain ⟨hne, hbuf⟩ := hrecords _ _ hparse
    refine ⟨hne, fun r hr => ?_, hbuf.symm⟩
    have hlen := length_value_le_descriptor_length hr
    rw [hbuf, operand_length] at hlen
    omega
  · rw [State.operand, hbuf]
    exact hparses rs hne hvalues

theorem keySizeOk_iff (keySizeBits : BitVec 16) :
    keySizeOk keySizeBits = true
      ↔ 384 ≤ keySizeBits.toNat ∧ keySizeBits.toNat ≤ 16384 ∧ keySizeBits.toNat % 8 = 0 := by
  simp only [keySizeOk, Bool.and_eq_true, decide_eq_true_eq, and_assoc]

section

variable {ctx : BitVec 4} {keySizeBits : BitVec 16} (hashSel : BitVec 4) {s : State} {c : RsaCtx}

theorem runRsaInit_noSlot (keySizeBits : BitVec 16) (s : State) (h : 2 ≤ ctx.toNat) :
    runRsaInit ctx keySizeBits hashSel s = .fail .illegalCommand := by
  simp [runRsaInit, rsaSlot_none s h]

theorem runRsaInit_live (keySizeBits : BitVec 16) (h : s.rsa[ctx.toNat]? = some c) (hl : c.life = .live) :
    runRsaInit ctx keySizeBits hashSel s = .fail .illegalState := by
  simp [runRsaInit, h, hl]

theorem runRsaInit_badKeySize (h : s.rsa[ctx.toNat]? = some c) (hl : c.life ≠ .live)
    (hk : ¬keySizeOk keySizeBits = true) : runRsaInit ctx keySizeBits hashSel s = .fail .invalidArgument := by
  simp [runRsaInit, h, hl, hk]

theorem runRsaInit_noRecords (h : s.rsa[ctx.toNat]? = some c) (hl : c.life ≠ .live)
    (hk : keySizeOk keySizeBits = true) (hrs : keyRecords s = none) :
    runRsaInit ctx keySizeBits hashSel s = .fail .malformedKeyMaterial := by
  simp only [runRsaInit, h, hl, hk, if_true, if_false]
  cases hfits : s.ilenFits with
  | false => rfl
  | true =>
    rw [keyRecords, hfits, if_pos rfl] at hrs
    simp [hrs]

theorem runRsaInit_records (h : s.rsa[ctx.toNat]? = some c) (hl : c.life ≠ .live)
    (hk : keySizeOk keySizeBits = true) {rs : List KeyRecord} (hrs : keyRecords s = some rs) :
    runRsaInit ctx keySizeBits hashSel s
      = .succeed (putRsa s ctx.toNat (rsaInitCtx rs s.keyLe keySizeBits hashSel)) [] := by
  obtain ⟨hfits, hparse⟩ := Option.ite_none_right_eq_some.1 hrs
  simp only [runRsaInit, h, hl, hk, hfits, hparse, if_true, if_false]
  rfl

end

/-- Settles O41: the checks in order; no records are read exactly when `ILEN` or the descriptor's form is at fault. -/
theorem rsaInitFailures : Obligations.RsaInitFailures := by
  intro ctx keySizeBits hashSel s
  refine ⟨fun hslot => failsAs_of_runOf (runRsaInit_noSlot hashSel keySizeBits s hslot), fun c hc =>
    ⟨fun hl => failsAs_of_runOf (runRsaInit_live hashSel keySizeBits hc hl), fun hl hbad => ?keySize,
      fun hl hmin hmax hstep hbad => ?malformed⟩⟩
  case keySize =>
    refine failsAs_of_runOf (runRsaInit_badKeySize hashSel hc hl fun hk => ?_)
    rw [keySizeOk_iff] at hk
    omega
  case malformed =>
    refine failsAs_of_runOf
      (runRsaInit_noRecords hashSel hc hl ((keySizeOk_iff _).2 ⟨hmin, hmax, hstep⟩) ?_)
    refine Option.eq_none_iff_forall_ne_some.2 fun rs hrs => ?_
    obtain ⟨hfits, hdescriptor⟩ := (keyRecords_eq_some_iff s rs).1 hrs
    rcases hbad with hlong | hnone
    · omega
    · exact hnone ⟨rs, hdescriptor⟩

/-! ### `RSA_INIT`: the groups of the new context -/

section

variable {rs : List KeyRecord} {t : Nat} {v : Bytes}

theorem tagCount_eq_length (rs : List KeyRecord) (t : Nat) :
    tagCount rs t = ((rs.filter fun r => decide (r.tag.toNat = t)).map KeyRecord.value).length := by
  rw [tagCount, List.countP_eq_length_filter, List.length_map]

theorem tagRaw_eq_head (rs : List KeyRecord) (t : Nat) :
    tagRaw rs t = ((rs.filter fun r => decide (r.tag.toNat = t)).map KeyRecord.value).headD [] := by
  rw [tagRaw, ← List.head?_filter]
  cases rs.filter fun r => decide (r.tag.toNat = t) <;> rfl

/-- A field is well formed exactly when its tag's first value is usable (R166). -/
theorem usable_iff : usable rs t v ↔ fieldOk rs t = true ∧ tagRaw rs t = v := by
  simp only [usable, fieldOk, tagCount_eq_length, tagRaw_eq_head, Bool.and_eq_true, decide_eq_true_eq,
    Config.fieldMaxBytes]
  generalize (rs.filter fun r => decide (r.tag.toNat = t)).map KeyRecord.value = values
  constructor
  · rintro ⟨rfl, hmin, hmax⟩
    exact ⟨⟨⟨rfl, hmin⟩, hmax⟩, rfl⟩
  · rintro ⟨⟨⟨hone, hmin⟩, hmax⟩, rfl⟩
    obtain ⟨w, rfl⟩ := List.length_eq_one_iff.1 hone
    exact ⟨rfl, hmin, hmax⟩

theorem usable_tagRaw (h : fieldOk rs t = true) : usable rs t (tagRaw rs t) := usable_iff.2 ⟨h, rfl⟩

theorem fieldOk_of_usable (h : usable rs t v) : fieldOk rs t = true := (usable_iff.1 h).1

theorem fieldVal_of_usable (h : usable rs t v) (keyLe : Bool) : fieldVal rs keyLe t = bytesToInteger v keyLe := by
  obtain ⟨hok, hraw⟩ := usable_iff.1 h
  rw [fieldVal, if_pos hok, hraw]

/-- The integer stored for a usable field of an available group (R168). -/
theorem groupVal_of_usable {avail : Bool} (havail : avail = true) (h : usable rs t v) (keyLe : Bool) :
    groupVal avail rs keyLe t = bytesToInteger v keyLe :=
  (groupVal_of_true havail rs keyLe t).trans (fieldVal_of_usable h keyLe)

end

section

variable (rs : List KeyRecord) (keyLe : Bool)

/-- When the public group is available (R167). -/
theorem publicOk_iff :
    publicOk rs keyLe = true
      ↔ ∃ vn ve, usable rs 1 vn ∧ usable rs 2 ve ∧ bytesToInteger vn keyLe ≠ 0 := by
  simp only [publicOk, Bool.and_eq_true, decide_eq_true_eq]
  constructor
  · rintro ⟨⟨hn, he⟩, hne⟩
    exact ⟨_, _, usable_tagRaw hn, usable_tagRaw he, fieldVal_of_usable (usable_tagRaw hn) keyLe ▸ hne⟩
  · rintro ⟨vn, ve, hn, he, hne⟩
    exact ⟨⟨fieldOk_of_usable hn, fieldOk_of_usable he⟩, (fieldVal_of_usable hn keyLe).trans_ne hne⟩

/-- When the exponent `D` is available (R167). -/
theorem privateOk_iff : privateOk rs = true ↔ ∃ vd, usable rs 3 vd :=
  ⟨fun h => ⟨_, usable_tagRaw h⟩, fun ⟨_, hd⟩ => fieldOk_of_usable hd⟩

/-- When the CRT group is available (R167). -/
theorem crtOk_iff :
    crtOk rs keyLe = true
      ↔ ∃ vp vq v6 v7 v8, usable rs 4 vp ∧ usable rs 5 vq ∧ usable rs 6 v6 ∧ usable rs 7 v7 ∧ usable rs 8 v8
          ∧ bytesToInteger vp keyLe ≠ 0 ∧ bytesToInteger vq keyLe ≠ 0 := by
  simp only [crtOk, Bool.and_eq_true, decide_eq_true_eq]
  constructor
  · rintro ⟨⟨⟨⟨⟨⟨h4, h5⟩, h6⟩, h7⟩, h8⟩, hp⟩, hq⟩
    exact ⟨_, _, _, _, _, usable_tagRaw h4, usable_tagRaw h5, usable_tagRaw h6, usable_tagRaw h7, usable_tagRaw h8,
      fieldVal_of_usable (usable_tagRaw h4) keyLe ▸ hp, fieldVal_of_usable (usable_tagRaw h5) keyLe ▸ hq⟩
  · rintro ⟨vp, vq, v6, v7, v8, h4, h5, h6, h7, h8, hp, hq⟩
    exact ⟨⟨⟨⟨⟨⟨fieldOk_of_usable h4, fieldOk_of_usable h5⟩, fieldOk_of_usable h6⟩, fieldOk_of_usable h7⟩,
      fieldOk_of_usable h8⟩, (fieldVal_of_usable h4 keyLe).trans_ne hp⟩, (fieldVal_of_usable h5 keyLe).trans_ne hq⟩

end

/-- `hashId` and `hashLen` by selector (R164). -/
theorem hashOf_cases (hashSel : BitVec 4) :
    (hashSel, hashIdOf hashSel, hashLenOf hashSel)
        ∈ [(0#4, 0#3, 20#8), (1#4, 1#3, 32#8), (2#4, 2#3, 48#8), (3#4, 3#3, 64#8)]
      ∨ (4 ≤ hashSel.toNat ∧ hashIdOf hashSel = 7#3 ∧ hashLenOf hashSel = 0#8) := by
  revert hashSel
  decide

/-- Settles O42: each group of the context by whether its fields are usable. -/
theorem rsaInitResult : Obligations.RsaInitResult := by
  intro ctx keySizeBits hashSel s c rs hc hl hmin hmax hstep hfits hne hvalues hbuf
  have hrs : keyRecords s = some rs := (keyRecords_eq_some_iff s rs).2 ⟨hfits, hne, hvalues, hbuf⟩
  have hk : keySizeOk keySizeBits = true := (keySizeOk_iff _).2 ⟨hmin, hmax, hstep⟩
  refine ⟨rsaInitCtx rs s.keyLe keySizeBits hashSel, succeedsAs_nil_of_runOf (runRsaInit_records hashSel hc hl hk hrs),
    rfl, rfl, hashOf_cases hashSel, ?groupN, ?groupD, ?groupCrt⟩
  case groupN =>
    by_cases hok : publicOk rs s.keyLe = true
    · obtain ⟨vn, ve, hn, he, hnz⟩ := (publicOk_iff rs s.keyLe).1 hok
      exact .inl ⟨vn, ve, hn, he, hnz, hok, groupVal_of_usable hok hn _, groupVal_of_usable hok he _⟩
    · have hoff := Bool.eq_false_of_not_eq_true hok
      exact .inr ⟨mt (publicOk_iff rs s.keyLe).2 hok, hoff, groupVal_of_false hoff .., groupVal_of_false hoff ..⟩
  case groupD =>
    by_cases hok : privateOk rs = true
    · obtain ⟨vd, hd⟩ := (privateOk_iff rs).1 hok
      exact .inl ⟨vd, hd, hok, groupVal_of_usable hok hd _⟩
    · have hoff := Bool.eq_false_of_not_eq_true hok
      exact .inr ⟨mt (privateOk_iff rs).2 hok, hoff, groupVal_of_false hoff ..⟩
  case groupCrt =>
    by_cases hok : crtOk rs s.keyLe = true
    · obtain ⟨vp, vq, v6, v7, v8, hp, hq, h6, h7, h8, hpz, hqz⟩ := (crtOk_iff rs s.keyLe).1 hok
      exact .inl ⟨vp, vq, v6, v7, v8, hp, hq, h6, h7, h8, hpz, hqz, hok, groupVal_of_usable hok hp _,
        groupVal_of_usable hok hq _, groupVal_of_usable hok h6 _, groupVal_of_usable hok h7 _,
        groupVal_of_usable hok h8 _⟩
    · have hoff := Bool.eq_false_of_not_eq_true hok
      exact .inr ⟨mt (crtOk_iff rs s.keyLe).2 hok, hoff, groupVal_of_false hoff .., groupVal_of_false hoff ..,
        groupVal_of_false hoff .., groupVal_of_false hoff .., groupVal_of_false hoff ..⟩

end Sys2Proof.Machine
end

section
/-! Proofs for 41_rsa_engine.md: the six transforms, their failures (O43) and results (O44, O45), the CRT path against
the direct path (O48) and the round trip (O49). -/

namespace Sys2Proof.Machine

open Sys2Proof.Claims

/-! ### Payloads and results as bytes -/

theorem leToNat_natToLe (v n : Nat) : leToNat (natToLe v n) = v % 256 ^ n := by
  induction n generalizing v with
  | zero => simp [natToLe, leToNat, Nat.mod_one]
  | succ n ih => rw [natToLe, leToNat, ih, pow_succ', Nat.mod_mul, BitVec.toNat_ofNat]

/-- A serialised integer reads back modulo its width (R231). -/
theorem bytesToInteger_integerToBytes (v n : Nat) (littleEndian : Bool) :
    bytesToInteger (integerToBytes v n littleEndian) littleEndian = v % 256 ^ n := by
  cases littleEndian <;> simp [bytesToInteger, integerToBytes, leToNat_natToLe]

/-- A result that fits the modulus' byte length reads back whole (R171). -/
theorem bytesToInteger_resultBytes (c : RsaCtx) (s : State) {v : Nat} (h : v < 256 ^ (c.keySizeBits.toNat / 8)) :
    bytesToInteger (resultBytes c s v) (s.cfg.getLsbD 0) = v :=
  (bytesToInteger_integerToBytes ..).trans (Nat.mod_eq_of_lt h)

theorem resultBytes_length (c : RsaCtx) (s : State) (v : Nat) :
    (resultBytes c s v).length = c.keySizeBits.toNat / 8 := integerToBytes_length ..

/-- A buffer that holds a byte sequence at its start reads as that sequence. -/
theorem Memory.readBytes_eq_of_getD {m : Memory} {bs : Bytes}
    (h : ∀ i, i < bs.length → Memory.read m i = bs.getD i 0#8) : Memory.readBytes m 0 bs.length = bs := by
  refine List.ext_getElem (Memory.readBytes_length ..) fun i hi hbs => ?_
  rw [← List.getD_eq_getElem _ 0#8 hi, Memory.readBytes_getD _ _ _ _ hbs, Nat.zero_add, h i hbs,
    List.getD_eq_getElem _ _ hbs]

/-! ### The shape of the six transforms -/

theorem runOf_of_mem_directForms {ctx : BitVec 4} {usePrivate : Bool} {dir : Direction} {i : Instr}
    (h : i ∈ directForms ctx usePrivate dir) (s : State) : runOf s i = rsaDirect ctx usePrivate dir s := by
  cases usePrivate <;> cases dir <;> simp only [directForms, List.mem_cons, List.not_mem_nil, or_false] at h
  · rcases h with rfl | rfl <;> rfl
  · rcases h with rfl | rfl <;> rfl
  · exact h ▸ rfl
  · exact h ▸ rfl

theorem rsaEnc_mem_directForms (ctx : BitVec 4) (usePrivate : Bool) :
    .rsaEnc ctx usePrivate ∈ directForms ctx usePrivate .enc := by
  cases usePrivate <;> exact List.mem_cons_self

theorem rsaDec_mem_directForms (ctx : BitVec 4) (usePrivate : Bool) :
    .rsaDec ctx usePrivate ∈ directForms ctx usePrivate .dec := by
  cases usePrivate <;> exact List.mem_cons_self

theorem runOf_crtForm (ctx : BitVec 4) (dir : Direction) (s : State) :
    runOf s (crtForm ctx dir) = rsaCrt ctx dir s := by
  cases dir <;> rfl

/-- Every transform checks the slot, then the payload (R170, R171, R174). -/
theorem runOf_transform {ctx : BitVec 4} {usePrivate : Bool} {dir : Direction} {i : Instr} (s : State)
    (h : i ∈ directForms ctx usePrivate dir ∨ i = crtForm ctx dir) :
    ∃ body : RsaCtx → RunResult,
      runOf s i = withLiveRsa ctx s fun c => withPayload c dir s (body c) := by
  rcases h with h | rfl
  · exact ⟨_, runOf_of_mem_directForms h s⟩
  · exact ⟨_, runOf_crtForm ctx dir s⟩

section

variable {c : RsaCtx} {dir : Direction} {s : State}

theorem payloadLimit_eq (c : RsaCtx) (dir : Direction) : payloadLimit c dir = limitOf c dir := by
  cases dir <;> rfl

theorem withPayload_tooLarge (h : limitOf c dir < s.ilen.toNat) (body : RunResult) :
    withPayload c dir s body = .fail .payloadTooLarge := by
  simp [withPayload, payloadLimit_eq, h]

theorem withPayload_empty (h : s.ilen.toNat = 0) (body : RunResult) :
    withPayload c dir s body = .fail .emptyPayload := by
  simp [withPayload, h]

theorem withPayload_accepted (hmin : 1 ≤ s.ilen.toNat) (hmax : s.ilen.toNat ≤ limitOf c dir) (body : RunResult) :
    withPayload c dir s body = body := by
  rw [withPayload, payloadLimit_eq, if_neg (by omega), if_neg (by omega)]

end

/-- The key groups the direct transform needs (R171). -/
def directKeyOk (c : RsaCtx) (usePrivate : Bool) : Bool := c.hasPublicInfo && (!usePrivate || c.hasPrivateInfo)

/-- The exponent the direct transform uses (R171). -/
def exponentOf (c : RsaCtx) (usePrivate : Bool) : Nat := if usePrivate then c.d else c.e

section

variable {ctx : BitVec 4} {s : State} {c : RsaCtx} {dir : Direction}

/-- The direct transform past the payload check: its result when the key groups it needs are there (R171). -/
theorem rsaDirect_accepted (h : s.rsa[ctx.toNat]? = some c) (hl : c.life = .live) (hmin : 1 ≤ s.ilen.toNat)
    (hmax : s.ilen.toNat ≤ limitOf c dir) (usePrivate : Bool) :
    rsaDirect ctx usePrivate dir s
      = if directKeyOk c usePrivate then
          .succeed s (resultBytes c s (modExp (payloadOf s) (exponentOf c usePrivate) c.n))
        else .fail .missingKeyMaterial := by
  rw [rsaDirect, withLiveRsa_live h hl, withPayload_accepted hmin hmax]
  cases usePrivate with
  | false => simp only [directKeyOk, Bool.not_false, Bool.true_or, Bool.and_true]; rfl
  | true => simp only [directKeyOk, Bool.not_true, Bool.false_or, Bool.and_comm c.hasPublicInfo]; rfl

/-- The CRT transform past the payload check: its result when the CRT group is there (R174). -/
theorem rsaCrt_accepted (h : s.rsa[ctx.toNat]? = some c) (hl : c.life = .live) (hmin : 1 ≤ s.ilen.toNat)
    (hmax : s.ilen.toNat ≤ limitOf c dir) :
    rsaCrt ctx dir s
      = if c.hasCrtInfo then
          .succeed s (resultBytes c s (crtCombine (payloadOf s) c.p c.q c.dp c.dq c.inverseQ))
        else .fail .missingKeyMaterial := by
  rw [rsaCrt, withLiveRsa_live h hl, withPayload_accepted hmin hmax]
  rfl

/-- What a direct transform gives with its groups available and a modulus that is not 0 (R171, R200). -/
theorem runOf_direct_available {usePrivate : Bool} {i : Instr} (hi : i ∈ directForms ctx usePrivate dir)
    (h : s.rsa[ctx.toNat]? = some c) (hl : c.life = .live) (hmin : 1 ≤ s.ilen.toNat)
    (hmax : s.ilen.toNat ≤ limitOf c dir) (hpub : c.hasPublicInfo = true)
    (hpriv : usePrivate = true → c.hasPrivateInfo = true) (hn : 1 ≤ c.n) :
    runOf s i = .succeed s (resultBytes c s (payloadOf s ^ exponentOf c usePrivate % c.n)) := by
  have hkey : directKeyOk c usePrivate = true := by
    cases usePrivate
    · simp [directKeyOk, hpub]
    · simp [directKeyOk, hpub, hpriv rfl]
  rw [runOf_of_mem_directForms hi, rsaDirect_accepted h hl hmin hmax, if_pos hkey, modExp_eq_pow_mod _ _ hn]

end

/-- Settles O43: the slot, its lifecycle and the payload are checked alike by all six, the key groups last. -/
theorem rsaTransformFailures : Obligations.RsaTransformFailures := by
  intro ctx usePrivate dir i s hi
  obtain ⟨body, hrun⟩ := runOf_transform s hi
  refine ⟨fun hslot => failsAs_of_runOf (hrun.trans (withLiveRsa_noSlot s hslot _)), fun c hc =>
    ⟨fun hl => failsAs_of_runOf (hrun.trans (withLiveRsa_notLive hc hl _)), fun hl hlong => ?tooLarge,
      fun hl hzero => ?empty, fun hl hmin hmax hmissing => failsAs_of_runOf ?missing⟩⟩
  case tooLarge =>
    exact failsAs_of_runOf ((hrun.trans (withLiveRsa_live hc hl _)).trans (withPayload_tooLarge hlong _))
  case empty =>
    exact failsAs_of_runOf ((hrun.trans (withLiveRsa_live hc hl _)).trans (withPayload_empty hzero _))
  case missing =>
    rcases hmissing with ⟨hdirect, hgroup⟩ | ⟨rfl, hgroup⟩
    · have hkey : ¬directKeyOk c usePrivate = true := by
        rcases hgroup with hpub | ⟨huse, hpriv⟩
        · simp [directKeyOk, hpub]
        · simp [directKeyOk, huse, hpriv]
      rw [runOf_of_mem_directForms hdirect, rsaDirect_accepted hc hl hmin hmax, if_neg hkey]
    · rw [runOf_crtForm, rsaCrt_accepted hc hl hmin hmax, if_neg (by simp [hgroup])]

/-- Settles O44: `runOf_direct_available` is the result it states. -/
theorem rsaDirectResult : Obligations.RsaDirectResult :=
  fun _ _ _ _ _ _ hi hc hl hmin hmax hpub hpriv hn hw =>
    succeedsAs_of_runOf hw (runOf_direct_available hi hc hl hmin hmax hpub hpriv hn)

/-! ### The CRT recombination -/

section

variable {c p q dp dq inverseQ : Nat}

theorem crtH_cast (m1 m2 inverseQ : Nat) (hp : 1 ≤ p) :
    (crtH m1 m2 inverseQ p : ℤ) = ((m1 : ℤ) - m2) * inverseQ % p :=
  Int.toNat_of_nonneg (Int.emod_nonneg _ (by omega))

theorem crtH_lt (m1 m2 inverseQ : Nat) (hp : 1 ≤ p) : crtH m1 m2 inverseQ p < p := by
  have hlt := Int.emod_lt_of_pos (((m1 : ℤ) - m2) * inverseQ) (b := p) (by omega)
  rw [← crtH_cast m1 m2 inverseQ hp] at hlt
  exact_mod_cast hlt

theorem crtCombine_eq (c dp dq inverseQ : Nat) (hp : 1 ≤ p) (hq : 1 ≤ q) :
    crtCombine c p q dp dq inverseQ
      = c ^ dq % q + q * crtH (c ^ dp % p) (c ^ dq % q) inverseQ p := by
  simp only [crtCombine, modExp_eq_pow_mod _ _ hp, modExp_eq_pow_mod _ _ hq]

/-- The recombination is below `P * Q` (R211). -/
theorem crtCombine_lt (c dp dq inverseQ : Nat) (hp : 1 ≤ p) (hq : 1 ≤ q) :
    crtCombine c p q dp dq inverseQ < p * q := by
  have hm2 : c ^ dq % q < q := Nat.mod_lt _ hq
  have hh := crtH_lt (c ^ dp % p) (c ^ dq % q) inverseQ hp
  rw [crtCombine_eq _ _ _ _ hp hq]
  calc c ^ dq % q + q * crtH (c ^ dp % p) (c ^ dq % q) inverseQ p
      < q + q * crtH (c ^ dp % p) (c ^ dq % q) inverseQ p := Nat.add_lt_add_right hm2 _
    _ = q * (crtH (c ^ dp % p) (c ^ dq % q) inverseQ p + 1) := by ring
    _ ≤ q * p := Nat.mul_le_mul_left q hh
    _ = p * q := Nat.mul_comm q p

/-- The recombination modulo `Q` (R211). -/
theorem crtCombine_modEq_q (c dp dq inverseQ : Nat) (hp : 1 ≤ p) (hq : 1 ≤ q) :
    crtCombine c p q dp dq inverseQ ≡ c ^ dq [MOD q] := by
  rw [crtCombine_eq _ _ _ _ hp hq]
  exact (Nat.add_mul_mod_self_left ..).trans (Nat.mod_modEq _ q)

/-- The recombination modulo `P`, when `InverseQ` inverts `Q` (R211). -/
theorem crtCombine_modEq_p (c dp dq : Nat) (hp : 1 ≤ p) (hq : 1 ≤ q) (hinv : inverseQ * q ≡ 1 [MOD p]) :
    crtCombine c p q dp dq inverseQ ≡ c ^ dp [MOD p] := by
  rw [crtCombine_eq _ _ _ _ hp hq]
  refine Nat.ModEq.trans ?_ (Nat.mod_modEq (c ^ dp) p)
  generalize c ^ dp % p = m1
  generalize c ^ dq % q = m2
  have hinv' : ((inverseQ : ℤ) * q) ≡ 1 [ZMOD p] := by exact_mod_cast Int.natCast_modEq_iff.2 hinv
  have hh : (crtH m1 m2 inverseQ p : ℤ) ≡ (m1 - m2) * inverseQ [ZMOD p] := by
    rw [crtH_cast m1 m2 inverseQ hp]
    exact Int.mod_modEq _ _
  refine Int.natCast_modEq_iff.1 ?_
  push_cast
  calc (m2 + q * crtH m1 m2 inverseQ p : ℤ)
      ≡ m2 + q * ((m1 - m2) * inverseQ) [ZMOD p] := (hh.mul_left _).add_left _
    _ = m2 + (m1 - m2) * (inverseQ * q) := by ring
    _ ≡ m2 + (m1 - m2) * 1 [ZMOD p] := (hinv'.mul_left _).add_left _
    _ = m1 := by ring

end

/-- Settles O45: the recombination is R211's formula on the residues of the two powers. -/
theorem rsaCrtResult : Obligations.RsaCrtResult := by
  intro ctx dir s c hc hl hmin hmax hcrt hp hq hw
  refine ⟨crtCombine (payloadOf s) c.p c.q c.dp c.dq c.inverseQ,
    crtH (payloadOf s ^ c.dp % c.p) (payloadOf s ^ c.dq % c.q) c.inverseQ c.p, crtH_cast _ _ _ hp,
    crtCombine_eq _ _ _ _ hp hq, crtCombine_lt _ _ _ _ hp hq, succeedsAs_of_runOf hw ?_⟩
  rw [runOf_crtForm, rsaCrt_accepted hc hl hmin hmax, if_pos hcrt]

/-! ### Powers modulo a prime and modulo a product of two -/

section

variable {p q : Nat}

/-- A positive exponent counts modulo `p - 1` (Fermat), for every base: a base that `p` divides gives 0. -/
theorem pow_add_mul_pred_modEq (hp : p.Prime) {a : Nat} (ha : a ≠ 0) (x j : Nat) :
    x ^ (a + (p - 1) * j) ≡ x ^ a [MOD p] := by
  by_cases hx : p ∣ x
  · have hzero {k : Nat} (hk : k ≠ 0) : x ^ k ≡ 0 [MOD p] := Nat.modEq_zero_iff_dvd.2 (dvd_pow hx hk)
    exact (hzero (by omega)).trans (hzero ha).symm
  · have hcoprime : x.Coprime p := ((Nat.Prime.coprime_iff_not_dvd hp).2 hx).symm
    have hfermat : x ^ (p - 1) ≡ 1 [MOD p] := Nat.totient_prime hp ▸ Nat.ModEq.pow_totient hcoprime
    rw [pow_add, pow_mul]
    simpa using (hfermat.pow j).mul_left (x ^ a)

/-- The reduced exponent gives the same residue, but for a positive one that reduces to 0 (log 17). -/
theorem pow_mod_pred_modEq (hp : p.Prime) {d : Nat} (hd : d % (p - 1) = 0 → d = 0) (x : Nat) :
    x ^ (d % (p - 1)) ≡ x ^ d [MOD p] := by
  by_cases hzero : d % (p - 1) = 0
  · rw [hd hzero, Nat.zero_mod]
  · have hpow := pow_add_mul_pred_modEq hp hzero x (d / (p - 1))
    rw [Nat.mod_add_div] at hpow
    exact hpow.symm

/-- An exponent that is 1 modulo `p - 1` gives the base back. -/
theorem pow_modEq_self (hp : p.Prime) {k : Nat} (hk : 1 ≤ k) (hmod : k % (p - 1) = 1 % (p - 1)) (x : Nat) :
    x ^ k ≡ x [MOD p] := by
  obtain ⟨j, hj⟩ := (Nat.modEq_iff_dvd' hk).1 (Nat.ModEq.symm hmod)
  have hpow := pow_add_mul_pred_modEq hp one_ne_zero x j
  rwa [← hj, Nat.add_sub_cancel' hk, pow_one] at hpow

/-- A residue modulo two distinct primes is one modulo their product. -/
theorem modEq_mul_of_primes (hp : p.Prime) (hq : q.Prime) (hne : p ≠ q) {a b : Nat} (hap : a ≡ b [MOD p])
    (haq : a ≡ b [MOD q]) : a ≡ b [MOD p * q] :=
  (Nat.modEq_and_modEq_iff_modEq_mul ((Nat.coprime_primes hp hq).2 hne)).1 ⟨hap, haq⟩

/-- The product of inverse exponents is not 0: one of two distinct primes is not 2. -/
theorem one_le_of_mod_pred (hp : p.Prime) (hq : q.Prime) (hne : p ≠ q) {k : Nat}
    (hkp : k % (p - 1) = 1 % (p - 1)) (hkq : k % (q - 1) = 1 % (q - 1)) : 1 ≤ k := by
  have hp2 := hp.two_le
  have hq2 := hq.two_le
  rcases Nat.eq_zero_or_pos k with rfl | hk
  · have hpone : p - 1 ∣ 1 := Nat.dvd_of_mod_eq_zero (hkp.symm.trans (Nat.zero_mod _))
    have hqone : q - 1 ∣ 1 := Nat.dvd_of_mod_eq_zero (hkq.symm.trans (Nat.zero_mod _))
    rw [Nat.dvd_one] at hpone hqone
    omega
  · exact hk

/-- Inverse exponents give the integer back modulo a product of two distinct primes (R182). -/
theorem pow_mod_pow_mod_eq_self (hp : p.Prime) (hq : q.Prime) (hne : p ≠ q) {a b x : Nat}
    (habp : a * b % (p - 1) = 1 % (p - 1)) (habq : a * b % (q - 1) = 1 % (q - 1)) (hx : x < p * q) :
    (x ^ a % (p * q)) ^ b % (p * q) = x := by
  have hk := one_le_of_mod_pred hp hq hne habp habq
  have hself : x ^ (a * b) ≡ x [MOD p * q] :=
    modEq_mul_of_primes hp hq hne (pow_modEq_self hp hk habp x) (pow_modEq_self hq hk habq x)
  rw [← Nat.pow_mod, ← pow_mul]
  exact Eq.trans hself (Nat.mod_eq_of_lt hx)

/-- On a valid key the recombination is the power modulo `P * Q` (R181, R211). -/
theorem crtCombine_eq_pow_mod (hp : p.Prime) (hq : q.Prime) (hne : p ≠ q) {d inverseQ : Nat}
    (hinv : inverseQ * q ≡ 1 [MOD p]) (hdp : d % (p - 1) = 0 → d = 0) (hdq : d % (q - 1) = 0 → d = 0) (c : Nat) :
    crtCombine c p q (d % (p - 1)) (d % (q - 1)) inverseQ = c ^ d % (p * q) := by
  have hmod : crtCombine c p q (d % (p - 1)) (d % (q - 1)) inverseQ ≡ c ^ d [MOD p * q] :=
    modEq_mul_of_primes hp hq hne
      ((crtCombine_modEq_p c _ _ hp.one_le hq.one_le hinv).trans (pow_mod_pred_modEq hp hdp c))
      ((crtCombine_modEq_q c _ _ _ hp.one_le hq.one_le).trans (pow_mod_pred_modEq hq hdq c))
  exact (Nat.mod_eq_of_lt (crtCombine_lt c _ _ _ hp.one_le hq.one_le)).symm.trans hmod

end

/-! ### The CRT path and the direct path -/

/-- Two commands of the same run end alike but for the opcode in `STATUS` (R96). -/
theorem complete_eq_withStatus (op op' : BitVec 8) (s : State) (r : RunResult) :
    complete op s r = { complete op' s r with status := (complete op s r).status } := by
  cases r <;> rfl

theorem statusCode_statusWord (op : BitVec 8) {code : Nat} (h : code ≤ 8) : statusCode (statusWord op code) = code := by
  simp only [statusCode, BitVec.extractLsb'_toNat, Nat.shiftRight_eq_div_pow, statusWord_toNat op h]
  omega

/-- The code in `STATUS` is the run's alone (R96). -/
theorem statusCode_complete (op op' : BitVec 8) (s : State) (r : RunResult) :
    statusCode (complete op s r).status = statusCode (complete op' s r).status := by
  cases r with
  | fail f => simp only [complete_fail, takeFailure_status, statusCode_statusWord _ f.code_range.2]
  | succeed t out => simp only [complete_succeed, finish_status, statusCode_statusWord _ (Nat.zero_le 8)]

/-- On a valid key the two paths run alike, whatever the lifecycle and the payload (R181). -/
theorem rsaCrt_eq_rsaDirect {ctx : BitVec 4} {s : State} {c : RsaCtx} (dir : Direction)
    (hc : s.rsa[ctx.toNat]? = some c) (hpub : c.hasPublicInfo = true) (hpriv : c.hasPrivateInfo = true)
    (hcrt : c.hasCrtInfo = true) (hn : 1 ≤ c.n)
    (hvalue : ∀ x, crtCombine x c.p c.q c.dp c.dq c.inverseQ = x ^ c.d % c.n) :
    rsaCrt ctx dir s = rsaDirect ctx true dir s :=
  withLiveRsa_congr hc (by simp [hpub, hpriv, hcrt, hvalue, modExp_eq_pow_mod _ _ hn])

/-- Settles O48: the runs of the two paths are equal, since the recombination is the power modulo `N`. -/
theorem crtPathEqualsDirectPath : Obligations.CrtPathEqualsDirectPath := by
  intro ctx dir i s c hi hc hpub hpriv hcrt hp hq hne hn hdp hdq hinv hdp0 hdq0
  have hinv' : c.inverseQ * c.q ≡ 1 [MOD c.p] := hinv.trans (Nat.mod_eq_of_lt hp.one_lt).symm
  have hvalue (x : Nat) : crtCombine x c.p c.q c.dp c.dq c.inverseQ = x ^ c.d % c.n := by
    rw [hn, hdp, hdq]
    exact crtCombine_eq_pow_mod hp hq hne hinv' (hdp ▸ hdp0) (hdq ▸ hdq0) x
  have hrun : runOf s (crtForm ctx dir) = runOf s i := by
    rw [runOf_crtForm, runOf_of_mem_directForms hi]
    exact rsaCrt_eq_rsaDirect dir hc hpub hpriv hcrt (hn ▸ Nat.mul_pos hp.pos hq.pos) hvalue
  exact ⟨_, _, (exec_eq_complete_runOf _ s).trans (by rw [hrun]), exec_eq_complete_runOf i s,
    complete_eq_withStatus .., statusCode_complete ..⟩

/-! ### The round trip -/

/-- `u` is a state a transform leaves on `s` when its result is the integer `v` (R171). -/
structure Transformed (c : RsaCtx) (s u : State) (v : Nat) : Prop where
  rsa : u.rsa = s.rsa
  cfg : u.cfg = s.cfg
  code : statusCode u.status = 0
  olen : u.olen.toNat = c.keySizeBits.toNat / 8
  obuf_wf : Memory.wf u.obuf = true
  result : Memory.readBytes u.obuf 0 u.olen.toNat = resultBytes c s v

theorem transformed_finish (op : BitVec 8) {s : State} (hw : Memory.wf s.obuf = true) (c : RsaCtx) (v : Nat) :
    Transformed c s (finish op s (resultBytes c s v)) v := by
  have hlen := resultBytes_length c s v
  have holen : (finish op s (resultBytes c s v)).olen.toNat = (resultBytes c s v).length := by
    have := c.keySizeBits.isLt
    rw [finish_olen, BitVec.toNat_ofNat, Nat.mod_eq_of_lt (by omega)]
  refine ⟨rfl, rfl, statusCode_statusWord op (Nat.zero_le 8), holen.trans hlen, Memory.wf_writeBytes hw 0 _, ?_⟩
  rw [holen]
  refine Memory.readBytes_eq_of_getD fun i hi => ?_
  rw [finish_obuf, Memory.read_writeBytes hw, if_pos (by omega), Nat.sub_zero]

/-- A direct transform with its groups available, as a state to go on from. -/
theorem exec_direct_available {ctx : BitVec 4} {usePrivate : Bool} {dir : Direction} {i : Instr} {s : State}
    {c : RsaCtx} (hi : i ∈ directForms ctx usePrivate dir) (hc : s.rsa[ctx.toNat]? = some c) (hl : c.life = .live)
    (hmin : 1 ≤ s.ilen.toNat) (hmax : s.ilen.toNat ≤ limitOf c dir) (hpub : c.hasPublicInfo = true)
    (hpriv : c.hasPrivateInfo = true) (hn : 1 ≤ c.n) (hw : Memory.wf s.obuf = true) :
    ∃ u, exec i s = .next u ∧ Transformed c s u (payloadOf s ^ exponentOf c usePrivate % c.n) :=
  ⟨_, exec_of_runOf (runOf_direct_available hi hc hl hmin hmax hpub (fun _ => hpriv) hn),
    transformed_finish _ hw c _⟩

theorem exponentOf_mul_not (c : RsaCtx) (usePrivate : Bool) :
    exponentOf c usePrivate * exponentOf c (!usePrivate) = c.e * c.d := by
  cases usePrivate
  · rfl
  · exact Nat.mul_comm c.d c.e

/-- Settles O49: the second command's payload is the residue the first one gave, and the exponents are inverse. -/
theorem rsaRoundTrip : Obligations.RsaRoundTrip := by
  intro ctx usePrivate s t c m p q hc hl hpub hpriv hsize hstep hp hq hne hn hedp hedq hfits hmin hmax hx hw ht hm
  have hn1 : 1 ≤ c.n := by omega
  obtain ⟨t', ht', henc⟩ := exec_direct_available (rsaEnc_mem_directForms ctx usePrivate) hc hl hmin hmax hpub hpriv
    hn1 hw
  cases ht.symm.trans ht'
  obtain ⟨u, hu, hdec⟩ := exec_direct_available (s := { t with ibuf := m, ilen := t.olen })
    (rsaDec_mem_directForms ctx (!usePrivate)) (henc.rsa ▸ hc) hl (by rw [henc.olen]; omega) henc.olen.le hpub hpriv
    hn1 henc.obuf_wf
  refine ⟨u, hu, hdec.code, hdec.olen, ?_⟩
  have hpayload : payloadOf { t with ibuf := m, ilen := t.olen } = payloadOf s ^ exponentOf c usePrivate % c.n := by
    rw [payloadOf, Memory.readBytes_congr m t.obuf 0 t.olen.toNat fun j _ hj => hm j (by omega), henc.result, henc.cfg]
    exact bytesToInteger_resultBytes c s ((Nat.mod_lt _ hn1).trans_le hfits)
  have hback : (payloadOf s ^ exponentOf c usePrivate % c.n) ^ exponentOf c (!usePrivate) % c.n = payloadOf s := by
    rw [hn] at hx ⊢
    exact pow_mod_pow_mod_eq_self hp hq hne (exponentOf_mul_not c usePrivate ▸ hedp)
      (exponentOf_mul_not c usePrivate ▸ hedq) hx
  rw [hdec.result, hpayload, hback, ← henc.cfg]
  exact bytesToInteger_resultBytes c _ (hx.trans_le hfits)

end Sys2Proof.Machine
end

section
/-! Proofs for 42_modular_arithmetic.md: the contract of `ModExp` (O50), the Montgomery datapath (O51) and the Barrett
datapath (O52). -/

namespace Sys2Proof.Machine

open Sys2Proof.Claims

/-- No number of limbs below `k(n)` holds `n` (R203). -/
theorem limbCount_le {n k : Nat} (hn : 1 ≤ n) (hk : n < 2 ^ (Config.limbBits * k)) : limbCount n ≤ k := by
  have hbits : n.log2 < Config.limbBits * k := (Nat.log2_lt (Nat.ne_of_gt hn)).2 hk
  exact Nat.div_lt_of_lt_mul hbits

theorem montNPrime_lt_montRadix (n : Nat) : montNPrime n < montRadix n :=
  Nat.mod_lt _ (Nat.zero_lt_of_lt (lt_montRadix n))

/-- Settles O50: the datapath computes `b^e mod n`, and the recursion is that of the power. -/
theorem modExpMeetsContract : Obligations.ModExpMeetsContract := by
  intro b e n hn
  have hpow (e : Nat) : modExp b e n = b ^ e % n := modExp_eq_pow_mod b e hn
  refine ⟨?bound, hpow e, ?zero, ?succ⟩
  case bound => exact hpow e ▸ Nat.mod_lt _ hn
  case zero => rw [hpow, pow_zero]
  case succ => rw [hpow, hpow, pow_succ, Nat.mod_mul_mod]

/-- Settles O51, from the constants' defining properties and the one rule of `REDC`. -/
theorem montgomeryDatapath : Obligations.MontgomeryDatapath := by
  intro n hodd
  have hc := montConstants_of_odd hodd
  exact ⟨Nat.succ_pos _, lt_montRadix n, fun _ _ => limbCount_le hc.pos, rfl, montNPrime_lt_montRadix n,
    Nat.mod_eq_zero_of_dvd hc.dvd, fun _ => hc.redc_spec, fun b e => montExp_eq_pow_mod b e hodd⟩

/-- Settles O52: both halves are the rules of the reduction and of the exponent loop. -/
theorem barrettDatapath : Obligations.BarrettDatapath := fun _ hn =>
  ⟨fun _ => barrettReduce_eq_mod hn, fun b e => barrettExp_eq_pow_mod b e hn⟩

end Sys2Proof.Machine
end

section
/-! Proofs for 43_bigint_codec.md: the codec as sums of digits (O56), its laws (O57) and its three commands
(O53 to O55). -/

namespace Sys2Proof.Machine

open Sys2Proof.Claims

/-! ### Bytes and limbs by their positions -/

/-- A little-endian sequence is the sum of its bytes, each at its place (R230). -/
theorem leToNat_eq_sum (b : Bytes) :
    leToNat b = ∑ i ∈ Finset.range b.length, (b.getD i 0#8).toNat * 256 ^ i := by
  induction b with
  | nil => rfl
  | cons x b ih =>
    rw [leToNat, ih, List.length_cons, Finset.sum_range_succ', Nat.add_comm]
    simp [Finset.mul_sum, pow_succ', Nat.mul_left_comm]

/-- In either byte order, the sum of the bytes, each at its place (R230). -/
theorem bytesToInteger_eq_sum (b : Bytes) (littleEndian : Bool) :
    bytesToInteger b littleEndian
      = ∑ i ∈ Finset.range b.length,
          (b.getD (if littleEndian then i else b.length - 1 - i) 0#8).toNat * 256 ^ i := by
  cases littleEndian with
  | true => exact leToNat_eq_sum b
  | false =>
    calc bytesToInteger b false
        = ∑ i ∈ Finset.range b.reverse.length, (b.reverse.getD i 0#8).toNat * 256 ^ i := leToNat_eq_sum b.reverse
      _ = ∑ i ∈ Finset.range b.length, (b.getD (b.length - 1 - i) 0#8).toNat * 256 ^ i := by
        rw [List.length_reverse]
        exact Finset.sum_congr rfl fun i hi => by rw [List.getD_reverse i (Finset.mem_range.1 hi)]

/-- Byte `i` of the little-endian form is digit `i` in base 256 (R231). -/
theorem natToLe_getD {n i : Nat} (v : Nat) (h : i < n) : ((natToLe v n).getD i 0#8).toNat = v / 256 ^ i % 256 := by
  induction n generalizing v i with
  | zero => omega
  | succ n ih =>
    cases i with
    | zero => rw [natToLe, List.getD_cons_zero, BitVec.toNat_ofNat, pow_zero, Nat.div_one]
    | succ i => rw [natToLe, List.getD_cons_succ, ih _ (by omega), Nat.div_div_eq_div_mul, ← pow_succ']

/-- In either byte order, the byte at place `i` is digit `i` in base 256 (R231). -/
theorem integerToBytes_getD {n i : Nat} (v : Nat) (littleEndian : Bool) (h : i < n) :
    ((integerToBytes v n littleEndian).getD (if littleEndian then i else n - 1 - i) 0#8).toNat
      = v / 256 ^ i % 256 := by
  cases littleEndian with
  | true => exact natToLe_getD v h
  | false =>
    have hplace : (integerToBytes v n false).getD (n - 1 - i) 0#8 = (natToLe v n).getD i 0#8 := by
      have hback : n - 1 - (n - 1 - i) = i := by omega
      rw [integerToBytes, if_neg Bool.false_ne_true, List.getD_reverse _ (by rw [natToLe_length]; omega),
        natToLe_length, hback]
    exact hplace ▸ natToLe_getD v h

theorem limbs_length (v k : Nat) : (limbs v k).length = k := by simp [limbs]

/-- Limb `i` is digit `i` in base 2^32 (R233). -/
theorem limbs_getD {k i : Nat} (v : Nat) (h : i < k) :
    ((limbs v k).getD i 0#32).toNat = v / (2 ^ 32) ^ i % 2 ^ 32 := by
  rw [List.getD_eq_getElem _ _ (by rwa [limbs_length]), ← pow_mul]
  simp [limbs, Config.limbBits]

/-- The low `k` digits in base `b`, each at its place, sum to the value modulo `b^k`. -/
theorem sum_digits_eq_mod (b v k : Nat) : ∑ i ∈ Finset.range k, v / b ^ i % b * b ^ i = v % b ^ k := by
  induction k with
  | zero => rw [Finset.sum_range_zero, pow_zero, Nat.mod_one]
  | succ k ih => rw [Finset.sum_range_succ, ih, Nat.mod_pow_succ, Nat.mul_comm (b ^ k)]

/-- A value of at most `k` limbs is the sum of its limbs, each at its place (R233). -/
theorem eq_sum_limbs {v k : Nat} (h : v < 2 ^ (32 * k)) :
    v = ∑ i ∈ Finset.range k, ((limbs v k).getD i 0#32).toNat * 2 ^ (32 * i) := by
  calc v = v % (2 ^ 32) ^ k := (Nat.mod_eq_of_lt (by rwa [← pow_mul])).symm
    _ = ∑ i ∈ Finset.range k, v / (2 ^ 32) ^ i % 2 ^ 32 * (2 ^ 32) ^ i := (sum_digits_eq_mod ..).symm
    _ = ∑ i ∈ Finset.range k, ((limbs v k).getD i 0#32).toNat * 2 ^ (32 * i) :=
      Finset.sum_congr rfl fun i hi => by rw [limbs_getD v (Finset.mem_range.1 hi), pow_mul]

/-- Settles O56: each form is its digits, each at its place. -/
theorem codecIsPositional : Obligations.CodecIsPositional := by
  refine ⟨fun b le => ⟨bytesToInteger_eq_sum b le, ?bound⟩,
    fun v n le i hi => ⟨integerToBytes_length v n le, integerToBytes_getD v le hi⟩,
    fun v k hv => ⟨limbs_length v k, eq_sum_limbs hv⟩⟩
  case bound => exact (bytesToInteger_lt le_rfl le).trans_eq (pow_mul 2 8 b.length)

/-! ### The codec laws -/

theorem natToLe_zero (n : Nat) : natToLe 0 n = List.replicate n 0#8 := by
  induction n with
  | zero => rfl
  | succ n ih => rw [natToLe, Nat.zero_div, ih, List.replicate_succ]

/-- A sequence's value, serialised to `k` bytes more, is the sequence with `k` zero bytes at its most significant
end. -/
theorem natToLe_leToNat (b : Bytes) (k : Nat) :
    natToLe (leToNat b) (b.length + k) = b ++ List.replicate k 0#8 := by
  induction b with
  | nil => simpa [leToNat] using natToLe_zero k
  | cons x b ih =>
    have hx := x.isLt
    have hlow : BitVec.ofNat 8 (x.toNat + 256 * leToNat b) = x := BitVec.eq_of_toNat_eq (by
      rw [BitVec.toNat_ofNat]; omega)
    have hhigh : (x.toNat + 256 * leToNat b) / 256 = leToNat b := by omega
    rw [List.length_cons, Nat.succ_add, leToNat, natToLe, hlow, hhigh, ih, List.cons_append]

/-- A big-endian field longer than the sequence is padded with zero bytes at its front (R237 e). -/
theorem integerToBytes_bytesToInteger_bigEndian {b : Bytes} {m : Nat} (h : b.length ≤ m) :
    integerToBytes (bytesToInteger b false) m false = List.replicate (m - b.length) 0#8 ++ b := by
  have hpad := natToLe_leToNat b.reverse (m - b.length)
  rw [List.length_reverse, Nat.add_sub_cancel' h] at hpad
  simp [integerToBytes, bytesToInteger, hpad]

/-- A sequence is restored from its value at its own length (R237 b). -/
theorem integerToBytes_bytesToInteger (b : Bytes) (littleEndian : Bool) :
    integerToBytes (bytesToInteger b littleEndian) b.length littleEndian = b := by
  cases littleEndian with
  | true => simpa [integerToBytes, bytesToInteger] using natToLe_leToNat b 0
  | false => simpa using integerToBytes_bytesToInteger_bigEndian (le_refl b.length)

/-- `xorBytes` answers exactly on equal lengths (R232). -/
theorem xorBytes_eq_ok_iff {x y z : Bytes} :
    xorBytes x y = .ok z ↔ x.length = y.length ∧ List.zipWith (· ^^^ ·) x y = z := by
  by_cases h : x.length = y.length <;> simp [xorBytes, h]

theorem xorBytes_of_length_ne {x y : Bytes} (h : x.length ≠ y.length) : xorBytes x y = .error .lengthMismatch :=
  if_neg h

theorem zipWith_xor_cancel_right {x y : Bytes} (h : x.length = y.length) :
    List.zipWith (· ^^^ ·) (List.zipWith (· ^^^ ·) x y) y = x := by
  refine List.ext_getElem (by simp [h]) fun i _ _ => ?_
  rw [List.getElem_zipWith, List.getElem_zipWith, BitVec.xor_assoc, BitVec.xor_self, BitVec.xor_zero]

/-- XOR with the same sequence restores the first operand (R237 f). -/
theorem xorBytes_cancel_right {x y z : Bytes} (h : xorBytes x y = .ok z) : xorBytes z y = .ok x := by
  obtain ⟨hlen, rfl⟩ := xorBytes_eq_ok_iff.1 h
  exact xorBytes_eq_ok_iff.2 ⟨by simp [hlen], zipWith_xor_cancel_right hlen⟩

/-- Settles O57: (c) and (d) are the definitions, the other laws are the lemmas above. -/
theorem codecLaws : Obligations.CodecLaws :=
  ⟨bytesToInteger_integerToBytes, integerToBytes_bytesToInteger, fun _ _ => rfl, fun _ => rfl,
    fun _ _ => integerToBytes_bytesToInteger_bigEndian, fun _ _ _ => xorBytes_cancel_right⟩

/-! ### The commands -/

/-- A run of bytes, byte by byte (R92). -/
theorem Memory.readBytes_eq_map (m : Memory) (a n : Nat) :
    Memory.readBytes m a n = (List.range n).map fun i => Memory.read m (a + i) := by
  refine List.ext_getElem (by simp) fun i hi _ => ?_
  rw [← List.getD_eq_getElem _ 0#8 hi, Memory.readBytes_getD _ _ _ _ (by simpa using hi), List.getElem_map,
    List.getElem_range]

/-- Settles O53: the run is one check on `ILEN`. -/
theorem biB2iRule : Obligations.BiB2iRule := by
  intro le s
  refine ⟨fun hlong => failsAs_of_runOf ?_, fun hfits => succeedsAs_nil_of_runOf ?_⟩
  · exact if_neg (by simpa [State.ilenFits] using hlong)
  · exact if_pos (by simpa [State.ilenFits] using hfits)

/-- Settles O54: the run is one check on the length. -/
theorem biI2bRule : Obligations.BiI2bRule := fun _ _ _ =>
  ⟨fun hlong => failsAs_of_runOf (if_neg (Nat.not_le.2 hlong)),
    fun hfits hw => succeedsAs_of_runOf hw (if_pos hfits)⟩

section

variable {s : State}

/-- The lengths' check of `BI_XOR` (R236). -/
theorem runBiXor_of_not_lengthsOk
    (h : 16384 < s.ilen.toNat ∨ s.arg0.toNat + s.arg1.toNat ≠ s.ilen.toNat) :
    runBiXor s = .fail .invalidArgument := by
  refine if_neg fun hok => ?_
  simp only [State.ilenFits, State.splitFits, Bool.and_eq_true, decide_eq_true_eq, Config.ibufBytes] at hok
  omega

/-- Past the lengths' check, `BI_XOR` ends as `xorBytes` of its two operands does (R236). -/
theorem runBiXor_of_xorBytes_ok (hfits : s.ilen.toNat ≤ 16384) (hsplit : s.arg0.toNat + s.arg1.toNat = s.ilen.toNat)
    {out : Bytes} (h : xorBytes s.firstPart s.secondPart = .ok out) : runBiXor s = .succeed s out := by
  simp [runBiXor, State.ilenFits, State.splitFits, Config.ibufBytes, hfits, hsplit, h]

theorem runBiXor_of_xorBytes_error (hfits : s.ilen.toNat ≤ 16384)
    (hsplit : s.arg0.toNat + s.arg1.toNat = s.ilen.toNat) {f : Failure}
    (h : xorBytes s.firstPart s.secondPart = .error f) : runBiXor s = .fail f := by
  simp [runBiXor, State.ilenFits, State.splitFits, Config.ibufBytes, hfits, hsplit, h]

/-- Operands of unequal lengths are refused (R232). -/
theorem xorBytes_parts_of_ne (h : s.arg0 ≠ s.arg1) : xorBytes s.firstPart s.secondPart = .error .lengthMismatch :=
  xorBytes_of_length_ne fun hlen => h (BitVec.eq_of_toNat_eq (by
    simpa [State.firstPart, State.secondPart] using hlen))

/-- The bytes of `BI_XOR` on operands of one length (R236). -/
theorem xorBytes_parts_of_eq (h : s.arg0 = s.arg1) :
    xorBytes s.firstPart s.secondPart
      = .ok ((List.range s.arg0.toNat).map fun i =>
          Memory.read s.ibuf i ^^^ Memory.read s.ibuf (s.arg0.toNat + i)) := by
  refine xorBytes_eq_ok_iff.2 ⟨by simp [State.firstPart, State.secondPart, h], ?_⟩
  simp only [State.firstPart, State.secondPart, ← h, Memory.readBytes_eq_map, List.zipWith_map, List.zipWith_self,
    Nat.zero_add]

end

/-- Settles O55: the checks in order, the second one being `xorBytes`' own. -/
theorem biXorRule : Obligations.BiXorRule := fun _ =>
  ⟨fun hlengths => failsAs_of_runOf (runBiXor_of_not_lengthsOk hlengths),
    fun hfits hsplit hne => failsAs_of_runOf (runBiXor_of_xorBytes_error hfits hsplit (xorBytes_parts_of_ne hne)),
    fun hfits hsplit heq hw =>
      succeedsAs_of_runOf hw (runBiXor_of_xorBytes_ok hfits hsplit (xorBytes_parts_of_eq heq))⟩

end Sys2Proof.Machine
end

section
/-! Proofs for 60_exceptions.md: the idle step (O9), what a failing command changes (O20) and the codes a command may
end with (O21). -/

namespace Sys2Proof.Machine

open Sys2Proof.Claims

/-- Settles O9: no event is taken. -/
theorem idleStepKeepsState : Obligations.IdleStepKeepsState := fun _ h => step_nil h

/-! ### How a command ends, from its code -/

/-- A command ends with code `OK`, or its run fails and R255 says the end state. -/
theorem ok_or_takeFailure_of_exec {i : Instr} {s u : State} (h : exec i s = .next u) :
    statusCode u.status = 0 ∨ ∃ f, runOf s i = .fail f ∧ u = takeFailure (opcodeOf i) f s := by
  rw [exec_eq_complete_runOf] at h
  cases h
  cases hrun : runOf s i with
  | fail f => exact .inr ⟨f, rfl, rfl⟩
  | succeed t out => exact .inl (statusCode_statusWord (opcodeOf i) (Nat.zero_le 8))

/-- A command whose code is not `OK` failed as R255 says. -/
theorem failsWith_of_exec {i : Instr} {s u : State} (hcode : statusCode u.status ≠ 0) (h : exec i s = .next u) :
    ∃ f, FailsWith (opcodeOf i) f s u := by
  rcases ok_or_takeFailure_of_exec h with hok | ⟨f, -, rfl⟩
  · exact absurd hok hcode
  · exact ⟨f, failsWith_takeFailure _ f s⟩

/-- Any word whose code is not `OK` failed as R255 says, under the word's own `op` byte. -/
theorem failsWith_of_issueCommand {w : Word} {s u : State} (hcode : statusCode u.status ≠ 0)
    (h : issueCommand w s = .next u) : ∃ f, FailsWith (opField w) f s u := by
  cases hd : decode w with
  | ok i =>
    obtain ⟨hop, -⟩ := decode_eq_ok_iff.1 hd
    rw [issueCommand_ok hd] at h
    exact hop ▸ failsWith_of_exec hcode h
  | error e =>
    rw [issueCommand_error hd] at h
    cases h
    exact ⟨.illegalCommand, failsWith_takeFailure _ _ s⟩

/-- Settles O20: a command and a word that spells none have the same failing end. -/
theorem failureChangesOnlyOlenAndStatus : Obligations.FailureChangesOnlyOlenAndStatus :=
  fun _ _ _ _ hcode => ⟨failsWith_of_exec hcode, failsWith_of_issueCommand hcode⟩

/-! ### The slot of a well-formed command -/

section

variable {ctx : BitVec 4}

theorem two_le_of_not_scCtxOk (h : scCtxOk ctx = false) : 2 ≤ ctx.toNat :=
  Nat.le_of_not_lt (of_decide_eq_false h)

theorem two_le_of_not_rsaCtxOk (h : rsaCtxOk ctx = false) : 2 ≤ ctx.toNat :=
  Nat.le_of_not_lt (of_decide_eq_false h)

theorem scSlot_of_scCtxOk (h : scCtxOk ctx = true) (s : State) : ∃ c, s.sc[ctx.toNat]? = some c :=
  ⟨_, Vector.getElem?_eq_getElem (of_decide_eq_true h)⟩

theorem rsaSlot_of_rsaCtxOk (h : rsaCtxOk ctx = true) (s : State) : ∃ c, s.rsa[ctx.toNat]? = some c :=
  ⟨_, Vector.getElem?_eq_getElem (of_decide_eq_true h)⟩

end

/-- A command on a slot that does not exist is refused before anything else is checked (R95). -/
theorem runOf_of_not_wellFormed {i : Instr} (h : i.wellFormed = false) (s : State) :
    runOf s i = .fail .illegalCommand := by
  cases i with
  | scInit ctx variant rounds => exact runScInit_noSlot (two_le_of_not_scCtxOk h) variant rounds s
  | scProcess | scSeek | scQuery => exact withLiveSc_noSlot s (two_le_of_not_scCtxOk h) _
  | scDispose => exact runScDispose_noSlot s (two_le_of_not_scCtxOk h)
  | rsaInit ctx keySizeBits hashSel => exact runRsaInit_noSlot hashSel keySizeBits s (two_le_of_not_rsaCtxOk h)
  | rsaEnc | rsaDec | rsaPrivenc | rsaPrivdec | rsaPubenc | rsaPubdec | rsaQuery =>
    exact withLiveRsa_noSlot s (two_le_of_not_rsaCtxOk h) _
  | rsaDispose => exact runRsaDispose_noSlot s (two_le_of_not_rsaCtxOk h)
  | biB2i | biI2b | biXor => cases h

/-! ### Which failures a run can end with -/

/-- The run succeeds, or fails with one of `fs`. -/
def FailsOnlyWith (fs : List Failure) (r : RunResult) : Prop := ∀ f, r = .fail f → f ∈ fs

section

variable {fs : List Failure} {s : State}

theorem failsOnlyWith_succeed {t : State} {out : Bytes} : FailsOnlyWith fs (.succeed t out) := nofun

theorem failsOnlyWith_fail {f : Failure} (h : f ∈ fs) : FailsOnlyWith fs (.fail f) := by
  rintro _ ⟨⟩
  exact h

theorem FailsOnlyWith.ite {p : Prop} [Decidable p] {r r' : RunResult} (h : FailsOnlyWith fs r)
    (h' : FailsOnlyWith fs r') : FailsOnlyWith fs (if p then r else r') := by
  split
  · exact h
  · exact h'

/-- On a slot that exists the lifecycle check adds `IllegalState` alone (R23). -/
theorem failsOnlyWith_withLiveSc {ctx : BitVec 4} {c : ScCtx} (hc : s.sc[ctx.toNat]? = some c)
    {body : ScCtx → RunResult} (hstate : .illegalState ∈ fs) (hbody : FailsOnlyWith fs (body c)) :
    FailsOnlyWith fs (withLiveSc ctx s body) := by
  by_cases hl : c.life = .live
  · rwa [withLiveSc_live hc hl]
  · rw [withLiveSc_notLive hc hl]
    exact failsOnlyWith_fail hstate

/-- On a slot that exists the lifecycle check adds `IllegalState` alone (R23). -/
theorem failsOnlyWith_withLiveRsa {ctx : BitVec 4} {c : RsaCtx} (hc : s.rsa[ctx.toNat]? = some c)
    {body : RsaCtx → RunResult} (hstate : .illegalState ∈ fs) (hbody : FailsOnlyWith fs (body c)) :
    FailsOnlyWith fs (withLiveRsa ctx s body) := by
  by_cases hl : c.life = .live
  · rwa [withLiveRsa_live hc hl]
  · rw [withLiveRsa_notLive hc hl]
    exact failsOnlyWith_fail hstate

/-- The payload check adds its two failures alone (R170). -/
theorem failsOnlyWith_withPayload (c : RsaCtx) (dir : Direction) {body : RunResult} (hlarge : .payloadTooLarge ∈ fs)
    (hempty : .emptyPayload ∈ fs) (hbody : FailsOnlyWith fs body) : FailsOnlyWith fs (withPayload c dir s body) :=
  .ite (failsOnlyWith_fail hlarge) (.ite (failsOnlyWith_fail hempty) hbody)

end

/-! ### The row of each command in R251 -/

section

variable {ctx : BitVec 4} {s : State}

theorem failsOnlyWith_runScInit {c : ScCtx} (hc : s.sc[ctx.toNat]? = some c) (variant : Variant)
    (rounds : BitVec 16) :
    FailsOnlyWith (listedFailures (.scInit ctx variant rounds)) (runScInit ctx variant rounds s) := by
  rw [runScInit_slot hc]
  exact .ite (failsOnlyWith_fail (by simp [listedFailures]))
    (.ite failsOnlyWith_succeed (failsOnlyWith_fail (by simp [listedFailures])))

theorem failsOnlyWith_runScProcess {c : ScCtx} (hc : s.sc[ctx.toNat]? = some c) :
    FailsOnlyWith (listedFailures (.scProcess ctx)) (runScProcess ctx s) :=
  failsOnlyWith_withLiveSc hc (by simp [listedFailures])
    (.ite failsOnlyWith_succeed (failsOnlyWith_fail (by simp [listedFailures])))

theorem failsOnlyWith_runScDispose {c : ScCtx} (hc : s.sc[ctx.toNat]? = some c) :
    FailsOnlyWith (listedFailures (.scDispose ctx)) (runScDispose ctx s) := by
  rw [runScDispose_slot hc]
  exact .ite failsOnlyWith_succeed failsOnlyWith_succeed

theorem failsOnlyWith_runRsaInit {c : RsaCtx} (hc : s.rsa[ctx.toNat]? = some c) (keySizeBits : BitVec 16)
    (hashSel : BitVec 4) :
    FailsOnlyWith (listedFailures (.rsaInit ctx keySizeBits hashSel)) (runRsaInit ctx keySizeBits hashSel s) := by
  by_cases hl : c.life = .live
  · rw [runRsaInit_live hashSel keySizeBits hc hl]
    exact failsOnlyWith_fail (by simp [listedFailures])
  by_cases hk : keySizeOk keySizeBits = true
  · cases hrs : keyRecords s with
    | none =>
      rw [runRsaInit_noRecords hashSel hc hl hk hrs]
      exact failsOnlyWith_fail (by simp [listedFailures])
    | some rs =>
      rw [runRsaInit_records hashSel hc hl hk hrs]
      exact failsOnlyWith_succeed
  · rw [runRsaInit_badKeySize hashSel hc hl hk]
    exact failsOnlyWith_fail (by simp [listedFailures])

theorem failsOnlyWith_runRsaDispose {c : RsaCtx} (hc : s.rsa[ctx.toNat]? = some c) :
    FailsOnlyWith (listedFailures (.rsaDispose ctx)) (runRsaDispose ctx s) := by
  rw [runRsaDispose_slot hc]
  exact .ite failsOnlyWith_succeed failsOnlyWith_succeed

/-- The one row of R251 that the six transforms share. -/
def transformFailures : List Failure := [.illegalState, .payloadTooLarge, .emptyPayload, .missingKeyMaterial]

theorem failsOnlyWith_rsaDirect {c : RsaCtx} (hc : s.rsa[ctx.toNat]? = some c) (usePrivate : Bool)
    (dir : Direction) : FailsOnlyWith transformFailures (rsaDirect ctx usePrivate dir s) := by
  refine failsOnlyWith_withLiveRsa hc (by decide) (failsOnlyWith_withPayload c dir (by decide) (by decide) ?_)
  exact .ite (.ite failsOnlyWith_succeed (failsOnlyWith_fail (by decide)))
    (.ite failsOnlyWith_succeed (failsOnlyWith_fail (by decide)))

theorem failsOnlyWith_rsaCrt {c : RsaCtx} (hc : s.rsa[ctx.toNat]? = some c) (dir : Direction) :
    FailsOnlyWith transformFailures (rsaCrt ctx dir s) :=
  failsOnlyWith_withLiveRsa hc (by decide) (failsOnlyWith_withPayload c dir (by decide) (by decide)
    (.ite failsOnlyWith_succeed (failsOnlyWith_fail (by decide))))

end

/-- Past the lengths' check, operands of unequal lengths are the one failure (R236). -/
theorem failsOnlyWith_runBiXor (s : State) : FailsOnlyWith (listedFailures .biXor) (runBiXor s) := by
  by_cases hok : s.ilen.toNat ≤ 16384 ∧ s.arg0.toNat + s.arg1.toNat = s.ilen.toNat
  · obtain ⟨hfits, hsplit⟩ := hok
    by_cases harg : s.arg0 = s.arg1
    · rw [runBiXor_of_xorBytes_ok hfits hsplit (xorBytes_parts_of_eq harg)]
      exact failsOnlyWith_succeed
    · rw [runBiXor_of_xorBytes_error hfits hsplit (xorBytes_parts_of_ne harg)]
      exact failsOnlyWith_fail (by simp [listedFailures])
  · rw [runBiXor_of_not_lengthsOk (by omega)]
    exact failsOnlyWith_fail (by simp [listedFailures])

/-- On a slot that exists every command fails with a failure of its row only (R251). -/
theorem failsOnlyWith_runOf {i : Instr} (h : i.wellFormed = true) (s : State) :
    FailsOnlyWith (listedFailures i) (runOf s i) := by
  cases i with
  | scInit ctx variant rounds =>
    obtain ⟨_, hc⟩ := scSlot_of_scCtxOk h s
    exact failsOnlyWith_runScInit hc variant rounds
  | scProcess =>
    obtain ⟨_, hc⟩ := scSlot_of_scCtxOk h s
    exact failsOnlyWith_runScProcess hc
  | scSeek | scQuery =>
    obtain ⟨_, hc⟩ := scSlot_of_scCtxOk h s
    exact failsOnlyWith_withLiveSc hc List.mem_cons_self failsOnlyWith_succeed
  | scDispose =>
    obtain ⟨_, hc⟩ := scSlot_of_scCtxOk h s
    exact failsOnlyWith_runScDispose hc
  | rsaInit ctx keySizeBits hashSel =>
    obtain ⟨_, hc⟩ := rsaSlot_of_rsaCtxOk h s
    exact failsOnlyWith_runRsaInit hc keySizeBits hashSel
  | rsaEnc | rsaDec | rsaPubenc | rsaPubdec =>
    obtain ⟨_, hc⟩ := rsaSlot_of_rsaCtxOk h s
    exact failsOnlyWith_rsaDirect hc _ _
  | rsaPrivenc | rsaPrivdec =>
    obtain ⟨_, hc⟩ := rsaSlot_of_rsaCtxOk h s
    exact failsOnlyWith_rsaCrt hc _
  | rsaQuery =>
    obtain ⟨_, hc⟩ := rsaSlot_of_rsaCtxOk h s
    exact failsOnlyWith_withLiveRsa hc List.mem_cons_self failsOnlyWith_succeed
  | rsaDispose =>
    obtain ⟨_, hc⟩ := rsaSlot_of_rsaCtxOk h s
    exact failsOnlyWith_runRsaDispose hc
  | biB2i | biI2b => exact .ite failsOnlyWith_succeed (failsOnlyWith_fail List.mem_cons_self)
  | biXor => exact failsOnlyWith_runBiXor s

/-- Settles O21: an ill-formed command is refused at once, a well-formed one fails within its row. -/
theorem commandsEndWithListedCodes : Obligations.CommandsEndWithListedCodes := by
  intro i s u h
  refine ⟨fun hwf => ?listed, fun hwf => ?illFormed⟩
  case listed =>
    rcases ok_or_takeFailure_of_exec h with hok | ⟨f, hrun, rfl⟩
    · exact .inl hok
    · exact .inr ⟨f, failsOnlyWith_runOf hwf s f hrun, statusCode_statusWord _ f.code_range.2⟩
  case illFormed =>
    rw [exec_eq_complete_runOf, runOf_of_not_wellFormed hwf] at h
    cases h
    exact failsWith_takeFailure _ _ s

end Sys2Proof.Machine
end

section
/-! PROOFS. The host's reset (O10). -/

namespace Sys2Proof.Machine

/-- Settles O10: a reset takes its own event and no other from `pending` (R281; log 6). -/
theorem resetEventGivesResetState : Obligations.ResetEventGivesResetState := fun _ _ h => step_reset h

end Sys2Proof.Machine
end
